-- ==== Sys2Proof/Word.lean ====
section
/-! DEFINITION. The plain data of the CMIF codec block: bytes, sizes, colours, entries, groups. -/

namespace Sys2Proof

/-- One colour channel, one byte of the bit buffer (00_scope.md R7: `CHW` = 8). -/
abbrev Byte := BitVec 8

/-- A width or a height: `IW` = 127 bits, unsigned (00_scope.md R8). -/
abbrev Size := BitVec 127

/-- A Color: three 8-bit unsigned channels, equal iff all three agree (00_scope.md R11). -/
structure Color where
  r : Byte
  g : Byte
  b : Byte
  deriving DecidableEq, Repr, Inhabited

/-- An entry of a group (10_state.md R38): one LinearIndex, or the half-open interval `[a, b)`.
Indices are naturals, as 92_eei_decisions.md D3 allows (DESIGN CHOICE, log 9). -/
inductive Entry where
  | single (a : Nat)
  | run (a b : Nat)
  deriving DecidableEq, Repr, Inhabited

/-- A group of the group store (10_state.md R38): a colour and its entries in order. -/
structure ColorGroup where
  color : Color
  entries : List Entry
  deriving DecidableEq, Repr, Inhabited

/-- The states of the decoder's record sequencer (43_decoder.md R212); `stop` is the spec's `END`. -/
inductive DState where
  | hdr
  | color
  | entry
  | stop
  deriving DecidableEq, Repr, Inhabited

/-- The engine's internal cursors (10_state.md R31 to R33), and the temporary `c` of 43_decoder.md
R214, which lives from a colour record to its terminal entry (10_state.md R42). -/
structure Cursors where
  /-- run detector, outer and inner (R31) -/
  i : Nat
  j : Nat
  /-- filter pass, column and row (R32) -/
  x : Nat
  y : Nat
  /-- the PixelBuffer's size as read when a filter started (R32, 40_filters.md R131) -/
  fw : Nat
  fh : Nat
  /-- encoder, group and entry (R33) -/
  g : Nat
  e : Nat
  /-- decoder: sequencer state, number and colour of the group being appended to (R33, R214) -/
  dstate : DState
  curg : Nat
  curc : Color
  deriving DecidableEq, Repr, Inhabited

end Sys2Proof
end

