-- ==== Sys2Proof/Config.lean ====
section
/-! DEFINITION. What an implementation fixes (the OPEN parameters of 00_scope.md R8) and the free
values: constants without a body, which no proof can evaluate. -/

namespace Sys2Proof

/-- The OPEN parameters of 00_scope.md R8; `none` is "unbounded". The bit buffer is counted in bytes,
since `MAXBITS` is a multiple of 8. They are model arguments: State carries them in a field that no
step changes (DESIGN CHOICE, log 5). -/
structure Caps where
  maxCol : Option Nat
  maxEnt : Option Nat
  maxBytes : Option Nat
  blw : Option Nat
  deriving DecidableEq, Repr

/-- No capacity at all: the block then behaves as the source's software does (00_scope.md R8). -/
def Caps.unbounded : Caps := { maxCol := none, maxEnt := none, maxBytes := none, blw := none }

namespace Config

/-- Bit `k` of the bit buffer when nothing has written it since generation `gen` of its contents
began (70_reset_and_hazards.md R270: "unspecified"; log 2). -/
opaque freeBit (gen k : Nat) : Bool

/-- Cell `i` of the PixelBuffer when nobody has written it since generation `gen` of its contents
began (log 3). -/
opaque freeColor (gen i : Nat) : Color

/-- The internal cursors between commands (93_implementation_defined.md V2; log 4). -/
opaque freeCursors (n : Nat) : Cursors

/-- A register of `w` bits that holds no defined value after an error (60_exceptions.md R249; log 6);
`which` is the register's number. -/
opaque freeWord (w n which : Nat) : BitVec w

/-- A bit count that holds no defined value after an error (60_exceptions.md R249; log 6). -/
opaque freeNat (n which : Nat) : Nat

/-- What was appended to a group store that holds no defined value (60_exceptions.md R249; log 6). -/
opaque freeEntries (n : Nat) : List (Color × Entry)

end Config
end Sys2Proof
end

