-- ==== Sys2Proof/Syntax.lean ====
section
/-! DEFINITION. The instructions: one constructor per row of spec/opcode_table.json. -/

namespace Sys2Proof

/-- The 16 command codes of 30_encoding.md R91, R92 and the six stream records of R94, R95.
A record's operands are its fields as unsigned integers (R99). -/
inductive Instr where
  | nop
  | gray
  | dither
  | convert
  | encode
  | decode
  | rsvd6
  | rsvd7
  | rsvd8
  | rsvd9
  | rsvd10
  | rsvd11
  | rsvd12
  | rsvd13
  | rsvd14
  | sreset
  | hdr (bg : Color) (ib : BitVec 7) (w h : Nat)
  | color (c : Color)
  | sc (a : Nat)
  | rc (a b : Nat)
  | st (a : Nat)
  | rt (a b : Nat)
  deriving DecidableEq, Repr

end Sys2Proof
end

