-- ==== Sys2Proof/WellFormed.lean ====
section
/-! DEFINITION. Which instructions exist as words: every field value fits its width
(30_encoding.md R96, 00_scope.md R14). -/

namespace Sys2Proof

/-- `fits(v, n)`: `v` can be written in `n` bits (00_scope.md R14). -/
abbrev fits (v n : Nat) : Prop := v < 2 ^ n

/-- The instruction can be written: the header's `w`, `h` fit its own `ib` bits, an entry's `a`, `b`
fit the stream's `ib` bits, and `ib` is a value of the 7-bit field (30_encoding.md R96). -/
def Instr.wf (ib : Nat) : Instr → Bool
  | .nop | .gray | .dither | .convert | .encode | .decode => true
  | .rsvd6 | .rsvd7 | .rsvd8 | .rsvd9 | .rsvd10 | .rsvd11 | .rsvd12 | .rsvd13 | .rsvd14 => true
  | .sreset => true
  | .hdr _ hib w h => decide (fits w hib.toNat) && decide (fits h hib.toNat)
  | .color _ => true
  | .sc a => decide (ib ≤ 127) && decide (fits a ib)
  | .rc a b => decide (ib ≤ 127) && decide (fits a ib) && decide (fits b ib)
  | .st a => decide (ib ≤ 127) && decide (fits a ib)
  | .rt a b => decide (ib ≤ 127) && decide (fits a ib) && decide (fits b ib)

end Sys2Proof
end

