-- ==== Sys2Proof/Decode.lean ====
section
/-! DEFINITION. Reading an instruction from bits, and writing one: fields, the decoder, the encoder,
and the opcode table's numbering of a word. -/

namespace Sys2Proof

/-- A colour as 24 bits, `R ++ G ++ B` (00_scope.md R11). -/
def Color.word (c : Color) : BitVec 24 := c.r ++ c.g ++ c.b

/-- The colour whose 24 bits are `v` (00_scope.md R11). -/
def Color.ofWord (v : BitVec 24) : Color :=
  { r := v.extractLsb' 16 8, g := v.extractLsb' 8 8, b := v.extractLsb' 0 8 }

/-- The field of `n` bits that holds `v`, most significant bit first (20_memory.md R66). -/
def fieldBits : Nat → Nat → List Bool
  | 0, _ => []
  | n + 1, v => v.testBit n :: fieldBits n v

/-- The unsigned value of bits read most significant first: the loop of 43_decoder.md R210. -/
def bitsVal (bits : List Bool) : Nat := bits.foldl (fun v b => 2 * v + b.toNat) 0

/-- Where an instruction is read from, which decides its format (30_encoding.md R90, R97): the `CMD`
port, or the stream at a header, at a colour record, or at an entry of a stream with `ib` index bits. -/
inductive Slot where
  | command
  | header
  | colour
  | entry (ib : Nat)
  deriving DecidableEq, Repr

/-- Why the decoder rejects. There are no reserved bit patterns in a stream (30_encoding.md R100) and
every command code is a row of the table, so the one reason is that the bits end. -/
inductive Reject where
  /-- the bits end inside the field that starts at `offset` of the record (43_decoder.md R210) -/
  | endsInField (offset : Nat)
  deriving DecidableEq, Repr

/-- Read one field of `n` bits, which starts at `offset` of its record, and go on with its value and
the bits after it; reject before reading when fewer than `n` bits are left (43_decoder.md R210). -/
def readField {β : Type} (n offset : Nat) (bits : List Bool)
    (k : Nat → List Bool → Except Reject β) : Except Reject β :=
  if bits.length < n then .error (.endsInField offset)
  else k (bitsVal (bits.take n)) (bits.drop n)

/-- The command of a code (30_encoding.md R91, R92); a code has 4 bits, so 15 is the last. -/
def commandOf (code : BitVec 4) : Instr :=
  match code.toNat with
  | 0 => .nop
  | 1 => .gray
  | 2 => .dither
  | 3 => .convert
  | 4 => .encode
  | 5 => .decode
  | 6 => .rsvd6
  | 7 => .rsvd7
  | 8 => .rsvd8
  | 9 => .rsvd9
  | 10 => .rsvd10
  | 11 => .rsvd11
  | 12 => .rsvd12
  | 13 => .rsvd13
  | 14 => .rsvd14
  | _ => .sreset

/-- Format `CMD` (30_encoding.md R90). -/
def decodeCommand (bits : List Bool) : Except Reject (Instr × List Bool) :=
  readField 4 0 bits fun v bits => .ok (commandOf (BitVec.ofNat 4 v), bits)

/-- Format `C` (30_encoding.md R94, 43_decoder.md R214). -/
def decodeColour (bits : List Bool) : Except Reject (Instr × List Bool) :=
  readField 8 0 bits fun r bits =>
  readField 8 8 bits fun g bits =>
  readField 8 16 bits fun b bits =>
  .ok (.color { r := BitVec.ofNat 8 r, g := BitVec.ofNat 8 g, b := BitVec.ofNat 8 b }, bits)

/-- Format `H` (30_encoding.md R94, 43_decoder.md R213). -/
def decodeHeader (bits : List Bool) : Except Reject (Instr × List Bool) :=
  readField 8 0 bits fun r bits =>
  readField 8 8 bits fun g bits =>
  readField 8 16 bits fun b bits =>
  readField 7 24 bits fun ib bits =>
  readField ib 31 bits fun w bits =>
  readField ib (31 + ib) bits fun h bits =>
  .ok (.hdr { r := BitVec.ofNat 8 r, g := BitVec.ofNat 8 g, b := BitVec.ofNat 8 b }
    (BitVec.ofNat 7 ib) w h, bits)

/-- Formats `S` and `R`, told apart by the tag `T ++ K` (30_encoding.md R94, R95; 43_decoder.md R215
to R218): bit 1 of the tag is `T` (terminal), bit 0 is `K` (a Run). -/
def decodeEntry (ib : Nat) (bits : List Bool) : Except Reject (Instr × List Bool) :=
  readField 2 0 bits fun t bits =>
  readField ib 2 bits fun a bits =>
  if t.testBit 0 then
    readField ib (2 + ib) bits fun b bits =>
    .ok (if t.testBit 1 then .rt a b else .rc a b, bits)
  else .ok (if t.testBit 1 then .st a else .sc a, bits)

/-- The decoder: the instruction at the front of any bits, and the bits after it. -/
def decode : Slot → List Bool → Except Reject (Instr × List Bool)
  | .command, bits => decodeCommand bits
  | .header, bits => decodeHeader bits
  | .colour, bits => decodeColour bits
  | .entry ib, bits => decodeEntry ib bits

/-- One field of a word: a value and its width in bits. -/
structure BitField where
  value : Nat
  width : Nat
  deriving DecidableEq, Repr

/-- The three fields of a colour, R, G, B (20_memory.md R69). -/
def colourFields (c : Color) : List BitField := [⟨c.r.toNat, 8⟩, ⟨c.g.toNat, 8⟩, ⟨c.b.toNat, 8⟩]

/-- The fields of an instruction's word in stream order, in a stream with `ib` index bits: the
field-width table of 30_encoding.md R96, the formats of R94, the tags of R95, the codes of R91. -/
def Instr.fields (ib : Nat) : Instr → List BitField
  | .nop => [⟨0, 4⟩]
  | .gray => [⟨1, 4⟩]
  | .dither => [⟨2, 4⟩]
  | .convert => [⟨3, 4⟩]
  | .encode => [⟨4, 4⟩]
  | .decode => [⟨5, 4⟩]
  | .rsvd6 => [⟨6, 4⟩]
  | .rsvd7 => [⟨7, 4⟩]
  | .rsvd8 => [⟨8, 4⟩]
  | .rsvd9 => [⟨9, 4⟩]
  | .rsvd10 => [⟨10, 4⟩]
  | .rsvd11 => [⟨11, 4⟩]
  | .rsvd12 => [⟨12, 4⟩]
  | .rsvd13 => [⟨13, 4⟩]
  | .rsvd14 => [⟨14, 4⟩]
  | .sreset => [⟨15, 4⟩]
  | .hdr bg hib w h => colourFields bg ++ [⟨hib.toNat, 7⟩, ⟨w, hib.toNat⟩, ⟨h, hib.toNat⟩]
  | .color c => colourFields c
  | .sc a => [⟨0, 2⟩, ⟨a, ib⟩]
  | .rc a b => [⟨1, 2⟩, ⟨a, ib⟩, ⟨b, ib⟩]
  | .st a => [⟨2, 2⟩, ⟨a, ib⟩]
  | .rt a b => [⟨3, 2⟩, ⟨a, ib⟩, ⟨b, ib⟩]

/-- The encoder: the bits of an instruction in a stream with `ib` index bits (30_encoding.md R94). -/
def encode (ib : Nat) (i : Instr) : List Bool :=
  (i.fields ib).flatMap fun f => fieldBits f.width f.value

/-- The length of an instruction's word in bits (the `length_bits` of the opcode table). -/
def Instr.length (ib : Nat) : Instr → Nat
  | .hdr _ hib _ _ => 31 + 2 * hib.toNat
  | .color _ => 24
  | .sc _ => 2 + ib
  | .rc _ _ => 2 + 2 * ib
  | .st _ => 2 + ib
  | .rt _ _ => 2 + 2 * ib
  | .nop | .gray | .dither | .convert | .encode | .decode | .sreset => 4
  | .rsvd6 | .rsvd7 | .rsvd8 | .rsvd9 | .rsvd10 | .rsvd11 | .rsvd12 | .rsvd13 | .rsvd14 => 4

/-- The place an instruction is read from (30_encoding.md R90, R97). -/
def Instr.slot (ib : Nat) : Instr → Slot
  | .hdr _ _ _ _ => .header
  | .color _ => .colour
  | .sc _ | .rc _ _ | .st _ | .rt _ _ => .entry ib
  | .nop | .gray | .dither | .convert | .encode | .decode | .sreset => .command
  | .rsvd6 | .rsvd7 | .rsvd8 | .rsvd9 | .rsvd10 | .rsvd11 | .rsvd12 | .rsvd13 | .rsvd14 => .command

/-- The longest record: a header with `ib` = 127 (30_encoding.md R94). -/
def maxRecordBits : Nat := 285

/-- The place a word of the opcode table is read from, and how many of its bits the table numbers
(DESIGN CHOICE, log 11): the table gives a command 4 bits, an entry's tag 2, a colour record 24, a
header 31 before its `ib`-wide fields. A byte is a command. -/
def tableSlot (nbits : Nat) : Option (Slot × Nat) :=
  if nbits = 0 then none
  else if nbits ≤ 2 then some (.entry 0, 2)
  else if nbits ≤ 8 then some (.command, 4)
  else if nbits = 16 then some (.entry 0, 2)
  else if nbits = 24 then some (.colour, 24)
  else if nbits = 31 ∨ nbits = 32 then some (.header, 31)
  else none

/-- The bits of a table word in the order the hardware takes them, the bits above it 0. -/
def tableBits (numbered w : Nat) : List Bool :=
  fieldBits numbered w ++ List.replicate (maxRecordBits - numbered) false

/-- What the decoder reads from a word numbered as spec/opcode_table.json numbers it. -/
def decodeTableWord (nbits w : Nat) : Option Instr :=
  match tableSlot nbits with
  | none => none
  | some (slot, numbered) =>
    match decode slot (tableBits numbered w) with
    | .ok (i, _) => some i
    | .error _ => none

end Sys2Proof
end

