-- ==== Sys2Proof/Machine/Arith.lean ====
section
/-! DEFINITION. The block's arithmetic: exact integers, one rounding where the spec writes `rnd`. -/

namespace Sys2Proof.Machine

/-- `clog2(n)` for `n >= 1`: the least `k` with `2^k >= n` (00_scope.md R12). No rule evaluates
`clog2(0)`. -/
def clog2 (n : Nat) : Nat := if n ≤ 1 then 0 else Nat.log2 (n - 1) + 1

/-- `rnd(p, q)` for `q > 0`: the integer nearest to `p/q`, an exact half to the even one
(00_scope.md R13, `TIE = half_even`; log 10). Lean's `/` is the floor for a positive divisor. -/
def rnd (p q : Int) : Int :=
  let f := p / q
  let r := p - f * q
  if 2 * r < q then f
  else if q < 2 * r then f + 1
  else if f % 2 = 0 then f
  else f + 1

/-- An integer as a channel; every use has it in 0 to 255 (40_filters.md R136, R143, R145). -/
def toByte (v : Int) : Byte := BitVec.ofNat 8 v.toNat

/-- `Luma(r, g, b)` (40_filters.md R136). -/
def luma (c : Color) : Byte :=
  toByte (rnd (299 * c.r.toNat + 587 * c.g.toNat + 114 * c.b.toNat) 1000)

/-- The quantisation index `k_c` of a channel value (40_filters.md R141). -/
def quantIndex (levels p : Nat) : Int := rnd (p * (levels - 1)) 255

/-- The error numerator `en_c`; the error is `en_c / (L-1)` (40_filters.md R142). -/
def quantError (levels p : Nat) : Int := p * (levels - 1) - 255 * quantIndex levels p

/-- The written value `w_c` (40_filters.md R143). -/
def quantValue (levels p : Nat) : Int := rnd (255 * quantIndex levels p) (levels - 1)

/-- The diffused amount `d_c` of weight `wt/16` (40_filters.md R144, R145). -/
def diffusion (levels : Nat) (wt : Int) (p : Nat) : Int :=
  rnd (wt * quantError levels p) (16 * (levels - 1))

/-- `clamp(v, lo, hi)` (00_scope.md R9). -/
def clamp (v lo hi : Int) : Int := min (max v lo) hi

/-- Apply a function to each lane of a pixel (40_filters.md R134). -/
def mapLanes (f : Nat → Int) (c : Color) : Color :=
  { r := toByte (f c.r.toNat), g := toByte (f c.g.toNat), b := toByte (f c.b.toNat) }

/-- `GRAY`'s new value of a pixel (40_filters.md R135). -/
def grayPixel (c : Color) : Color := { r := luma c, g := luma c, b := luma c }

/-- `DITHER`'s written value of the visited pixel `p` (40_filters.md R143). -/
def ditherPixel (levels : Nat) (p : Color) : Color := mapLanes (quantValue levels) p

/-- `DITHER`'s new value of a neighbour that holds `o`, when `p` is visited (40_filters.md R145). -/
def diffusePixel (levels : Nat) (wt : Int) (p o : Color) : Color :=
  let lane (pc oc : Byte) : Byte := toByte (clamp (oc.toNat + diffusion levels wt pc.toNat) 0 255)
  { r := lane p.r o.r, g := lane p.g o.g, b := lane p.b o.b }

end Sys2Proof.Machine
end

