-- ==== Sys2Proof/Machine/State.lean ====
section
/-! DEFINITION. The state of the block, its host port and the PixelBuffer; reset; why a step can stop. -/

namespace Sys2Proof.Machine

/-- A memory: (address, contents) pairs in one canonical form, addresses strictly rising
(`Memory.wf`). An address that is not listed holds nothing anybody has written; what it reads as is
said once, in `bitRead` and `pixGet`. The unit is the spec's smallest addressable one: a bit of `BIT`,
a cell of `PIX` (20_memory.md R60; DESIGN CHOICE, log 1). -/
abbrev Memory (α : Type) := List (Nat × α)

/-- The four flags of `STATUS` (10_state.md R35); the 4-bit view is `Status.word`. -/
structure Status where
  busy : Bool
  done : Bool
  errf : Bool
  imgv : Bool
  deriving DecidableEq, Repr

/-- The bit buffer `BIT` (20_memory.md R64): the bits written since its contents were last
unspecified, and the number of that generation (log 2). -/
structure BitBuffer where
  bits : Memory Bool
  gen : Nat
  deriving DecidableEq, Repr

/-- The external PixelBuffer (10_state.md R43): `PW`, `PH`, the cells written since its contents were
last unspecified, by LinearIndex, and the number of that generation (log 3). -/
structure PixelBuffer where
  w : Size
  h : Size
  cells : Memory Color
  gen : Nat
  deriving DecidableEq, Repr

/-- One move of the host (70_reset_and_hazards.md R279). A command is a write to register 0. -/
inductive HostMove where
  | readReg (n : Nat)
  | writeReg (n v : Nat)
  | readByte (m : Nat)
  | writeByte (m : Nat) (v : Byte)
  | resizePix (w h : Size)
  | readPix (x y : Nat)
  | writePix (x y : Nat) (c : Color)
  | hardReset
  | wait
  deriving DecidableEq, Repr

/-- The state (10_state.md R20). The registers 9 and 12 to 16 follow `grp` and are not stored
(10_state.md R28); `CMD` stores nothing (R34). -/
structure State where
  /-- register 1 (R35) -/
  status : Status
  /-- register 2 (R36) -/
  err : BitVec 3
  /-- register 3 (R37) -/
  errinfo : Nat
  /-- register 4 (R22) -/
  levels : BitVec 16
  /-- registers 5 and 6 (R23) -/
  imgW : Size
  imgH : Size
  /-- register 7 (R25) -/
  imgBg : Color
  /-- register 8 (R26) -/
  indexbits : BitVec 7
  /-- registers 10 and 11 (R28) -/
  gsel : Nat
  esel : Nat
  /-- register 17 (R27) -/
  bitlen : Nat
  /-- register 18 (R30) -/
  bitcur : Nat
  /-- the group store `GRP` (R38) -/
  grp : List ColorGroup
  /-- the bit buffer `BIT` (20_memory.md R64) -/
  bit : BitBuffer
  /-- the PixelBuffer, outside the block (R43) -/
  pix : PixelBuffer
  /-- internal cursors (R31 to R33) -/
  cur : Cursors
  /-- the OPEN parameters of 00_scope.md R8, constant (log 5) -/
  cap : Caps
  /-- the host's moves still to come, the next one first (log 8) -/
  host : List HostMove
  /-- what the host's reads have returned, oldest first (log 8) -/
  reads : List Nat
  /-- the number of the next free value (log 6) -/
  free : Nat
  deriving DecidableEq, Repr

/-- A step can stop with a fault only when the HOST accesses an address that does not exist. Raised by
`hostMove`; safe: the model stops where the spec gives no meaning (log 13). -/
inductive Fault where
  /-- a register number above 18 (10_state.md R21 has 19 registers); safe -/
  | noSuchRegister
  /-- a byte at or past `MAXBITS / 8` (20_memory.md R67); safe -/
  | noSuchByte
  /-- a pixel with `x >= PW` or `y >= PH` (20_memory.md R61); safe -/
  | noSuchPixel
  deriving DecidableEq, Repr

/-- Moves that the model does not offer. -/
inductive Refusal where
  /-- an instruction without a meaning, by its mnemonic; raised by `exec`'s arms only; safe -/
  | notModelled (mnemonic : String)
  /-- a host access while `BUSY` = 1 other than a `STATUS` read, a `CMD` write and the hardware reset:
  "the spec gives it no meaning, and a model gives the host no such move" (70_reset_and_hazards.md
  R280); raised by `hostMove`; safe (log 14) -/
  | hostAccessWhileBusy
  deriving DecidableEq, Repr

/-- The machine right after the hardware reset (70_reset_and_hazards.md R270). The PixelBuffer is
outside the block and starts 0 by 0 (DESIGN CHOICE, log 3), the cursors start at 0 (DESIGN CHOICE,
log 4), the capacities unbounded (DESIGN CHOICE, log 5), the host with no move (log 8). -/
def State.reset : State :=
  { status := { busy := false, done := false, errf := false, imgv := false }
    err := 0
    errinfo := 0
    levels := 0
    imgW := 0
    imgH := 0
    imgBg := { r := 0, g := 0, b := 0 }
    indexbits := 0
    gsel := 0
    esel := 0
    bitlen := 0
    bitcur := 0
    grp := []
    bit := { bits := [], gen := 0 }
    pix := { w := 0, h := 0, cells := [], gen := 0 }
    cur := { i := 0, j := 0, x := 0, y := 0, fw := 0, fh := 0, g := 0, e := 0, dstate := .hdr,
             curg := 0, curc := { r := 0, g := 0, b := 0 } }
    cap := Caps.unbounded
    host := []
    reads := []
    free := 1 }

end Sys2Proof.Machine
end

