-- ==== Sys2Proof/Machine/Flags.lean ====
section
/-! DEFINITION. `STATUS` and `ERR`: the flags as a word, the error codes, and what accepting,
completing and failing a command do to the flags. -/

namespace Sys2Proof.Machine

/-- `STATUS` as its 4 bits: bit 0 `BUSY`, 1 `DONE`, 2 `ERRF`, 3 `IMGV` (10_state.md R35). -/
def Status.word (f : Status) : BitVec 4 :=
  BitVec.ofBool f.imgv ++ BitVec.ofBool f.errf ++ BitVec.ofBool f.done ++ BitVec.ofBool f.busy

/-- The six error kinds (60_exceptions.md R240). -/
inductive ErrorKind where
  | invalidInput
  | invalidParameter
  | formatLimitExceeded
  | malformedStream
  | fieldOverflow
  | capacityExceeded
  deriving DecidableEq, Repr

/-- The code of an error (60_exceptions.md R247). -/
def ErrorKind.code : ErrorKind → BitVec 3
  | .invalidInput => 1
  | .invalidParameter => 2
  | .formatLimitExceeded => 3
  | .malformedStream => 4
  | .fieldOverflow => 5
  | .capacityExceeded => 6

/-- The flags when the engine accepts a command (44_system.md R230). -/
def Status.accepted (f : Status) : Status := { f with busy := true, done := false }

/-- The flags when a command ends without an error (44_system.md R230). -/
def Status.completed (f : Status) : Status := { f with busy := false, done := true }

/-- The flags when a command ends by `raise` (60_exceptions.md R248). -/
def Status.failed (f : Status) : Status := { f with busy := false, errf := true }

end Sys2Proof.Machine
end

