-- ==== Sys2Proof/Machine/Ops.lean ====
section
/-! DEFINITION. The named operations over memory, the group store, the stream and the flags; taking an
error, and reset, the only way back from one. -/

namespace Sys2Proof.Machine

/-! ### Memory -/

/-- The canonical form: addresses strictly rising. -/
abbrev Memory.wf {α : Type} (m : Memory α) : Prop := m.Pairwise fun a b => a.1 < b.1

/-- What has been written at address `k`, if anything has. -/
def Memory.read? {α : Type} : Memory α → Nat → Option α
  | [], _ => none
  | (k', v) :: m, k => if k = k' then some v else Memory.read? m k

/-- Write `v` at address `k`, keeping the canonical form. -/
def Memory.write {α : Type} : Memory α → Nat → α → Memory α
  | [], k, v => [(k, v)]
  | (k', v') :: m, k, v =>
    if k < k' then (k, v) :: (k', v') :: m
    else if k = k' then (k, v) :: m
    else (k', v') :: Memory.write m k v

/-- Write consecutive contents from address `k` on. -/
def Memory.writeList {α : Type} (m : Memory α) (k : Nat) : List α → Memory α
  | [] => m
  | v :: vs => Memory.writeList (m.write k v) (k + 1) vs

/-! ### The bit buffer -/

/-- `BitRead(k)` (20_memory.md R65); a bit nothing has written since a reset is free (log 2). -/
def bitRead (s : State) (k : Nat) : Bool :=
  match s.bit.bits.read? k with
  | some v => v
  | none => Config.freeBit s.bit.gen k

/-- Write bits from position `k` on: `BitWrite` in a row (20_memory.md R65). -/
def bitWriteList (s : State) (k : Nat) (bits : List Bool) : State :=
  { s with bit := { s.bit with bits := s.bit.bits.writeList k bits } }

/-- The bits from position `k` on, `n` of them. -/
def bitsAt (s : State) (k n : Nat) : List Bool := (List.range n).map fun j => bitRead s (k + j)

/-- Byte `m` of the byte view: `bit[8m]` is its most significant bit (20_memory.md R67). -/
def byteRead (s : State) (m : Nat) : Byte := BitVec.ofNat 8 (bitsVal (bitsAt s (8 * m) 8))

/-- A host write of byte `m` sets `bit[8m .. 8m+7]` (20_memory.md R67). -/
def byteWrite (s : State) (m : Nat) (v : Byte) : State :=
  bitWriteList s (8 * m) (fieldBits 8 v.toNat)

/-- The stream does not pass the end of the bit buffer: `n <= MAXBITS` (00_scope.md R8). -/
abbrev fitsBits (cap : Caps) (n : Nat) : Prop := ∀ m ∈ cap.maxBytes, n ≤ 8 * m

/-- Byte `m` exists: `m < MAXBITS / 8` (20_memory.md R67). -/
abbrev hasByte (cap : Caps) (m : Nat) : Prop := ∀ n ∈ cap.maxBytes, m < n

/-! ### The PixelBuffer -/

/-- `(x, y)` is a pixel of the buffer (20_memory.md R61). -/
abbrev PixelBuffer.has (p : PixelBuffer) (x y : Nat) : Prop := x < p.w.toNat ∧ y < p.h.toNat

/-- The number of pixels, `PW * PH` (10_state.md R43). -/
def PixelBuffer.size (p : PixelBuffer) : Nat := p.w.toNat * p.h.toNat

/-- The contents of cell `i`; a cell nobody has written is free (log 3). -/
def PixelBuffer.cell (p : PixelBuffer) (i : Nat) : Color :=
  match p.cells.read? i with
  | some c => c
  | none => Config.freeColor p.gen i

/-- `PixGet(x, y)`; `none` where it is out of range (20_memory.md R61). -/
def pixGet (s : State) (x y : Nat) : Option Color :=
  if s.pix.has x y then some (s.pix.cell (y * s.pix.w.toNat + x)) else none

/-- `PixSet(x, y, c)`; `none` where it is out of range (20_memory.md R61). -/
def pixSet (s : State) (x y : Nat) (c : Color) : Option State :=
  if s.pix.has x y then
    some { s with pix := { s.pix with cells := s.pix.cells.write (y * s.pix.w.toNat + x) c } }
  else none

/-- `PixAt(i)` (20_memory.md R62). -/
def pixAt (s : State) (i : Nat) : Option Color :=
  pixGet s (i % s.pix.w.toNat) (i / s.pix.w.toNat)

/-! ### The group store -/

/-- The total number of entries of a group store. -/
def totalEntries (grp : List ColorGroup) : Nat := (grp.map fun g => g.entries.length).sum

/-- The number of the group of colour `c`, or `len(GRP)` if there is none (10_state.md R41). -/
def groupNumber (grp : List ColorGroup) (c : Color) : Nat := grp.findIdx fun g => g.color = c

/-- Append an entry to the first group of colour `c`, or a new group at the end (10_state.md R41). -/
def appendEntry : List ColorGroup → Color → Entry → List ColorGroup
  | [], c, e => [{ color := c, entries := [e] }]
  | g :: gs, c, e =>
    if g.color = c then { g with entries := g.entries ++ [e] } :: gs
    else g :: appendEntry gs c e

/-- A capacity is used up. -/
abbrev full (limit : Option Nat) (n : Nat) : Prop := ∃ m ∈ limit, m ≤ n

/-- `Append(c, e)` (10_state.md R41): the colour capacity is checked first, and only for a new group,
then the entry capacity; an error is the `info` of `CapacityExceeded`. -/
def append (cap : Caps) (grp : List ColorGroup) (c : Color) (e : Entry) : Except Nat (List ColorGroup) :=
  if groupNumber grp c = grp.length ∧ full cap.maxCol grp.length then .error 1
  else if full cap.maxEnt (totalEntries grp) then .error 2
  else .ok (appendEntry grp c e)

/-! ### Values that are not defined

60_exceptions.md R249 ("a model must not let a proof depend on it"), 93_implementation_defined.md V1
to V3: each takes a free value, with the limits the spec sets kept. -/

/-- A value written to a register of the given width, `none` for unbounded, is truncated
(70_reset_and_hazards.md R279). -/
def truncTo (width : Option Nat) (v : Nat) : Nat :=
  match width with
  | none => v
  | some n => v % 2 ^ n

/-- An entry with its indices in the `IW` = 127 bits of 10_state.md R38. -/
def truncEntry : Entry → Entry
  | .single a => .single (a % 2 ^ 127)
  | .run a b => .run (a % 2 ^ 127) (b % 2 ^ 127)

/-- A group store `Append` can build: what is appended is free, an `Append` that would raise is
skipped. So the invariants of 10_state.md R39 and the capacities hold of it (log 6). -/
def buildGroups (cap : Caps) (items : List (Color × Entry)) : List ColorGroup :=
  items.foldl (fun grp ce =>
    match append cap grp ce.1 (truncEntry ce.2) with
    | .ok grp' => grp'
    | .error _ => grp) []

/-- The internal cursors between commands (93_implementation_defined.md V2). -/
def forgetCursors (s : State) : State :=
  { s with cur := Config.freeCursors s.free, free := s.free + 1 }

/-- `GRP` after a failed `CONVERT` (60_exceptions.md R249). -/
def forgetGroups (s : State) : State :=
  { s with grp := buildGroups s.cap (Config.freeEntries s.free), free := s.free + 1 }

/-- The image registers, `INDEXBITS` and `GRP` after a failed `DECODE` (60_exceptions.md R249). -/
def forgetImage (s : State) : State :=
  { s with
    imgW := Config.freeWord 127 s.free 5
    imgH := Config.freeWord 127 s.free 6
    imgBg := Color.ofWord (Config.freeWord 24 s.free 7)
    indexbits := Config.freeWord 7 s.free 8
    grp := buildGroups s.cap (Config.freeEntries s.free)
    free := s.free + 1 }

/-- `BITCUR` after a `DECODE` that failed otherwise than by `MalformedStream` (60_exceptions.md R249). -/
def forgetBitcur (s : State) : State :=
  { s with bitcur := truncTo s.cap.blw (Config.freeNat s.free 18), free := s.free + 1 }

/-- The bit buffer, `BITLEN`, `BITCUR` and `INDEXBITS` after an `ENCODE` that failed at a field
(60_exceptions.md R249). -/
def forgetStream (s : State) : State :=
  { s with
    bit := { bits := [], gen := s.free }
    bitlen := truncTo s.cap.blw (Config.freeNat s.free 17)
    bitcur := truncTo s.cap.blw (Config.freeNat s.free 18)
    indexbits := Config.freeWord 7 s.free 8
    free := s.free + 1 }

/-- The PixelBuffer's cells after a filter that failed (60_exceptions.md R249). -/
def forgetPixels (s : State) : State :=
  { s with pix := { s.pix with cells := [], gen := s.free }, free := s.free + 1 }

/-! ### Commands: acceptance, completion, errors, reset -/

/-- The engine accepts a command (44_system.md R230). -/
def accept (s : State) : State := { s with status := s.status.accepted }

/-- A command ends without an error (44_system.md R230). -/
def complete (s : State) : State := { s with status := s.status.completed }

/-- `raise E(info)`, the one way an error is taken (60_exceptions.md R248): `ERR` and `ERRINFO` say
which, `ERRF` is set, `BUSY` cleared. Nothing else is saved, there is no handler and no mode. -/
def takeError (e : ErrorKind) (info : Nat) (s : State) : State :=
  { s with status := s.status.failed, err := e.code, errinfo := info }

/-- Reset, by either event, and the only way out of an error (70_reset_and_hazards.md R270, R271;
60_exceptions.md R251). The PixelBuffer is kept (R272), as are the parameters and the host's side. -/
def resetBlock (s : State) : State :=
  { State.reset with
    bit := { bits := [], gen := s.free }
    pix := s.pix
    cur := Config.freeCursors s.free
    cap := s.cap
    host := s.host
    reads := s.reads
    free := s.free + 1 }

/-- How a piece of a command's pseudocode ends: it goes on, or it raises (60_exceptions.md R248). -/
inductive Run where
  | ok (s : State)
  | raised (e : ErrorKind) (info : Nat) (s : State)
  deriving DecidableEq, Repr

/-- Go on with the next piece, unless an error was raised. -/
def Run.bind : Run → (State → Run) → Run
  | .ok s, f => f s
  | .raised e info s, _ => .raised e info s

/-- The end of a command: completion, or the error with what it leaves undefined; the cursors are
undefined either way. -/
def Run.finish (forget : State → State) : Run → State
  | .ok s => complete (forgetCursors s)
  | .raised e info s => takeError e info (forgetCursors (forget s))

end Sys2Proof.Machine
end

