-- ==== Sys2Proof/Machine/Converter.lean ====
section
/-! DEFINITION. `CONVERT`: the run detector, the colour histogram, the background removal. -/

namespace Sys2Proof.Machine

/-- Move the run detector's outer cursor `I` (10_state.md R31). -/
def setI (s : State) (i : Nat) : State := { s with cur := { s.cur with i := i } }

/-- Move the run detector's inner cursor `J` (10_state.md R31). -/
def setJ (s : State) (j : Nat) : State := { s with cur := { s.cur with j := j } }

/-- `PixAt` in the scan: an out-of-range access raises (20_memory.md R61, R62). -/
def atOrRaise (s : State) (i : Nat) (k : Color → Run) : Run :=
  match pixAt s i with
  | some c => k c
  | none => .raised .invalidInput 2 s

/-- `Append(c, e)` in a command's pseudocode (10_state.md R41). -/
def appendOrRaise (s : State) (c : Color) (e : Entry) : Run :=
  match append s.cap s.grp c e with
  | .ok grp => .ok { s with grp := grp }
  | .error info => .raised .capacityExceeded info s

/-- `while J < N and PixAt(J) = c: J <- J + 1`, at most `fuel` times (41_converter.md R164). -/
def runEnd (n : Nat) (c : Color) : Nat → State → Run
  | 0, s => .ok s
  | fuel + 1, s =>
    if s.cur.j < n then
      atOrRaise s s.cur.j fun c' =>
        if c' = c then runEnd n c fuel (setJ s (s.cur.j + 1)) else .ok s
    else .ok s

/-- A singleton at `I` (41_converter.md R163). -/
def singletonStep (c : Color) (s : State) : Run :=
  (appendOrRaise s c (.single s.cur.i)).bind fun s => .ok (setI s (s.cur.i + 1))

/-- A Run that begins at `I` (41_converter.md R164). -/
def runStep (n : Nat) (c : Color) (s : State) : Run :=
  (runEnd n c (n - s.cur.i) (setJ s (s.cur.i + 1))).bind fun s =>
    (appendOrRaise s c (.run s.cur.i s.cur.j)).bind fun s => .ok (setI s s.cur.j)

/-- One step of the scan, at `I < N` (41_converter.md R162). -/
def scanStep (n : Nat) (s : State) : Run :=
  atOrRaise s s.cur.i fun c =>
    if s.cur.i + 1 < n then
      atOrRaise s (s.cur.i + 1) fun c' => if c' = c then runStep n c s else singletonStep c s
    else singletonStep c s

/-- The scan: steps until `I = N`, at most `fuel` (41_converter.md R162). -/
def scan (n : Nat) : Nat → State → Run
  | 0, s => .ok s
  | fuel + 1, s => if s.cur.i < n then (scanStep n s).bind (scan n fuel) else .ok s

/-- The walk of the background removal over the groups from number `g` on: the number of the first
group with the most entries, `best` with `count` entries being the first so far (41_converter.md R166,
R167). -/
def bestGroup : List ColorGroup → Nat → Nat → Nat → Nat
  | [], _, best, _ => best
  | grp :: gs, g, best, count =>
    if count < grp.entries.length then bestGroup gs (g + 1) g grp.entries.length
    else bestGroup gs (g + 1) best count

/-- The number of the background's group (41_converter.md R166). -/
def backgroundNumber : List ColorGroup → Nat
  | [] => 0
  | g :: gs => bestGroup gs 1 0 g.entries.length

/-- Write the background and delete its group (41_converter.md R166). An empty group store, which a
scan of at least one pixel never leaves, is kept as it is (log 16). -/
def removeBackground (s : State) : State :=
  match s.grp[backgroundNumber s.grp]? with
  | some g => { s with imgBg := g.color, grp := s.grp.eraseIdx (backgroundNumber s.grp) }
  | none => s

/-- The successful end: the image registers and `IMGV` (41_converter.md R160). -/
def finishConvert (s : State) : State :=
  { s with imgW := s.pix.w, imgH := s.pix.h, status := { s.status with imgv := true } }

/-- `CONVERT` (41_converter.md R160): discard the old image, reject an empty buffer, scan, remove the
background. -/
def execConvert (s : State) : Host.Outcome State Fault Refusal :=
  let s := accept s
  let s := { s with status := { s.status with imgv := false }, grp := [] }
  let n := s.pix.size
  if n = 0 then .next (takeError .invalidInput 0 s)
  else
    .next (((scan n n (setI s 0)).bind fun s => .ok (finishConvert (removeBackground s))).finish
      forgetGroups)

end Sys2Proof.Machine
end

