-- ==== Sys2Proof/Machine/Decoder.lean ====
section
/-! DEFINITION. The serial reader, the record sequencer, the parse side of the six records, `DECODE`.

The sequencer is a machine inside the machine: `BITCUR` is its program counter, `DSTATE` says which
record comes next, a record is fetched, decoded and executed (10_state.md R30, 43_decoder.md R212). -/

namespace Sys2Proof.Machine

/-- The bits the sequencer reads at `BITCUR`: up to the longest record, never a bit at or after
`BITLEN` (43_decoder.md R210). -/
def window (s : State) : List Bool :=
  bitsAt s s.bitcur (min (s.bitlen - s.bitcur) maxRecordBits)

/-- The place in the stream the sequencer reads from in a state; none in `END` (43_decoder.md R212). -/
def recordSlot (s : State) : Option Slot :=
  match s.cur.dstate with
  | .hdr => some .header
  | .color => some .colour
  | .entry => some (.entry s.indexbits.toNat)
  | .stop => none

/-- The record at `BITCUR`; none in `END` (43_decoder.md R212). -/
def fetchRecord (s : State) : Option (Except Reject Instr) :=
  (recordSlot s).map fun slot =>
    match decode slot (window s) with
    | .ok (i, _) => .ok i
    | .error e => .error e

/-- Enter a state of the sequencer. -/
def enter (d : DState) (s : State) : State := { s with cur := { s.cur with dstate := d } }

/-- After a header or a terminal entry: another colour record if bits remain, else the end
(43_decoder.md R212). -/
def nextGroup (s : State) : State :=
  enter (if s.bitcur < s.bitlen then .color else .stop) s

/-- Move `BITCUR` past a record (43_decoder.md R210). -/
def advance (n : Nat) (s : State) : State := { s with bitcur := s.bitcur + n }

/-- `DECODE` ends by an error: the image state holds no defined value (60_exceptions.md R249). -/
def decodeError (e : ErrorKind) (info : Nat) (s : State) : State :=
  takeError e info (forgetCursors (forgetImage s))

/-- `MalformedStream(pos)`, `pos` where the field that could not be read starts; `BITCUR` is `pos` too
(43_decoder.md R210, 60_exceptions.md R244, R249). -/
def malformed (offset : Nat) (s : State) : State :=
  decodeError .malformedStream (s.bitcur + offset) (advance offset s)

/-- `DECODE` ends in state `END` (43_decoder.md R211, R212). -/
def completeDecode (s : State) : State :=
  complete (forgetCursors { s with status := { s.status with imgv := true } })

/-- `HDR` (43_decoder.md R213). -/
def parseHdr (bg : Color) (ib : BitVec 7) (w h : Nat) (s : State) : State :=
  nextGroup (advance (31 + 2 * ib.toNat)
    { s with imgBg := bg, indexbits := ib, imgW := BitVec.ofNat 127 w, imgH := BitVec.ofNat 127 h })

/-- `COLOR` (43_decoder.md R214): `CURG` is the colour's group, or the one its first `Append` makes
(log 15). -/
def parseColor (c : Color) (s : State) : State :=
  enter .entry (advance 24
    { s with cur := { s.cur with curc := c, curg := groupNumber s.grp c } })

/-- An entry record of `n` bits (43_decoder.md R215 to R218): append to the group of the current
colour; a terminal entry ends the group record. -/
def parseEntry (n : Nat) (e : Entry) (terminal : Bool) (s : State) : State :=
  let s := advance n s
  match append s.cap s.grp s.cur.curc e with
  | .error info => decodeError .capacityExceeded info (forgetBitcur s)
  | .ok grp =>
    let s := { s with grp := grp }
    if terminal then nextGroup s else enter .entry s

/-- `SC` (43_decoder.md R215). -/
def parseSc (a : Nat) (s : State) : State := parseEntry (2 + s.indexbits.toNat) (.single a) false s

/-- `RC` (43_decoder.md R216). -/
def parseRc (a b : Nat) (s : State) : State :=
  parseEntry (2 + 2 * s.indexbits.toNat) (.run a b) false s

/-- `ST` (43_decoder.md R217). -/
def parseSt (a : Nat) (s : State) : State := parseEntry (2 + s.indexbits.toNat) (.single a) true s

/-- `RT` (43_decoder.md R218). -/
def parseRt (a b : Nat) (s : State) : State :=
  parseEntry (2 + 2 * s.indexbits.toNat) (.run a b) true s

/-- `HDR` as an instruction (43_decoder.md R213). -/
def execHdr (bg : Color) (ib : BitVec 7) (w h : Nat) (s : State) :
    Host.Outcome State Fault Refusal := .next (parseHdr bg ib w h s)

/-- `COLOR` as an instruction (43_decoder.md R214). -/
def execColor (c : Color) (s : State) : Host.Outcome State Fault Refusal := .next (parseColor c s)

/-- `SC` as an instruction (43_decoder.md R215). -/
def execSc (a : Nat) (s : State) : Host.Outcome State Fault Refusal := .next (parseSc a s)

/-- `RC` as an instruction (43_decoder.md R216). -/
def execRc (a b : Nat) (s : State) : Host.Outcome State Fault Refusal := .next (parseRc a b s)

/-- `ST` as an instruction (43_decoder.md R217). -/
def execSt (a : Nat) (s : State) : Host.Outcome State Fault Refusal := .next (parseSt a s)

/-- `RT` as an instruction (43_decoder.md R218). -/
def execRt (a b : Nat) (s : State) : Host.Outcome State Fault Refusal := .next (parseRt a b s)

/-- What a fetched record does. The decoder yields no command from a stream slot; one would do
nothing here. -/
def recordEffect : Instr → State → State
  | .hdr bg ib w h, s => parseHdr bg ib w h s
  | .color c, s => parseColor c s
  | .sc a, s => parseSc a s
  | .rc a b, s => parseRc a b s
  | .st a, s => parseSt a s
  | .rt a b, s => parseRt a b s
  | .nop, s | .gray, s | .dither, s | .convert, s | .encode, s | .decode, s | .sreset, s => s
  | .rsvd6, s | .rsvd7, s | .rsvd8, s | .rsvd9, s | .rsvd10, s | .rsvd11, s | .rsvd12, s
  | .rsvd13, s | .rsvd14, s => s

/-- One step of the sequencer: fetch, decode and execute the record at `BITCUR`, or end
(43_decoder.md R212). -/
def decodeTick (s : State) : State :=
  match fetchRecord s with
  | none => completeDecode s
  | some (.ok i) => recordEffect i s
  | some (.error (.endsInField offset)) => malformed offset s

/-- The sequencer until the command ends, at most `fuel` steps (43_decoder.md R221). -/
def runDecode : Nat → State → State
  | 0, s => s
  | fuel + 1, s => if s.status.busy then runDecode fuel (decodeTick s) else s

/-- The start of `DECODE`: discard the old image, cursor to 0 (43_decoder.md R211). -/
def startDecode (s : State) : State :=
  let s := accept s
  enter .hdr { s with status := { s.status with imgv := false }, grp := [], bitcur := 0 }

/-- Enough steps for every stream: a record has at least 2 bits (43_decoder.md R221), then `END`. -/
def decodeFuel (s : State) : Nat := s.bitlen + 2

/-- `DECODE` (43_decoder.md R211). -/
def execDecode (s : State) : Host.Outcome State Fault Refusal :=
  let s := startDecode s
  if ¬ fitsBits s.cap s.bitlen then .next (decodeError .capacityExceeded 3 (forgetBitcur s))
  else .next (runDecode (decodeFuel s) s)

end Sys2Proof.Machine
end

