-- ==== Sys2Proof/Machine/Encoder.lean ====
section
/-! DEFINITION. The serial writer and `ENCODE`, with the emit side of the six records. -/

namespace Sys2Proof.Machine

/-- `PutBits(v, n)`: the value check first, then the space check, then the whole field
(42_encoder.md R180 to R182). -/
def putBits (f : BitField) (s : State) : Run :=
  if ¬ fits f.value f.width then .raised .fieldOverflow s.bitlen s
  else if ¬ fitsBits s.cap (s.bitlen + f.width) then .raised .capacityExceeded 3 s
  else
    let s := bitWriteList s s.bitlen (fieldBits f.width f.value)
    .ok { s with bitlen := s.bitlen + f.width, bitcur := s.bitlen + f.width }

/-- Fields one after the other, with no gap (20_memory.md R66). -/
def putFields : List BitField → State → Run
  | [], s => .ok s
  | f :: fs, s => (putBits f s).bind (putFields fs)

/-- Emit one record (42_encoder.md R191 to R196). -/
def emit (ib : Nat) (i : Instr) (s : State) : Run := putFields (i.fields ib) s

/-- The record of an entry; `terminal` is `T` (30_encoding.md R95; 42_encoder.md R193 to R196). -/
def entryRecord (terminal : Bool) : Entry → Instr
  | .single a => if terminal then .st a else .sc a
  | .run a b => if terminal then .rt a b else .rc a b

/-- Move the entry cursor `E` (10_state.md R33). -/
def setE (s : State) (e : Nat) : State := { s with cur := { s.cur with e := e } }

/-- Move the group cursor `G` (10_state.md R33). -/
def setG (s : State) (g : Nat) : State := { s with cur := { s.cur with g := g } }

/-- The entries of a group from number `E` on; the last one is terminal (42_encoder.md R187). -/
def emitEntries (ib : Nat) : List Entry → State → Run
  | [], s => .ok s
  | e :: es, s =>
    (emit ib (entryRecord es.isEmpty e) s).bind fun s => emitEntries ib es (setE s (s.cur.e + 1))

/-- The groups from number `G` on, in the order of the group store: a colour record, then the entries
(42_encoder.md R187). -/
def emitGroups (ib : Nat) : List ColorGroup → State → Run
  | [], s => .ok s
  | g :: gs, s =>
    (emit ib (.color g.color) s).bind fun s =>
    (emitEntries ib g.entries (setE s 0)).bind fun s =>
    emitGroups ib gs (setG s (s.cur.g + 1))

/-- The pad bits of the last byte take `PADBIT` = 0; `BITLEN` does not change (42_encoder.md R188). -/
def padLastByte (s : State) : State :=
  bitWriteList s s.bitlen (List.replicate ((8 - s.bitlen % 8) % 8) false)

/-- The header, every group record, the padding (42_encoder.md R185). -/
def emitImage (ib : Nat) (s : State) : Run :=
  (emit ib (.hdr s.imgBg s.indexbits s.imgW.toNat s.imgH.toNat) s).bind fun s =>
  (emitGroups ib s.grp (setG s 0)).bind fun s => .ok (padLastByte s)

/-- `N = IMG_W * IMG_H`, exact (42_encoder.md R186). -/
def imageSize (s : State) : Nat := s.imgW.toNat * s.imgH.toNat

/-- `ENCODE` (42_encoder.md R185, R186): the tests in their order, then the stream. -/
def execEncode (s : State) : Host.Outcome State Fault Refusal :=
  let s := accept s
  if s.status.imgv = false then .next (takeError .invalidInput 1 s)
  else if imageSize s = 0 then .next (takeError .invalidInput 0 s)
  else
    let ib := clog2 (imageSize s)
    if 127 < ib then .next (takeError .formatLimitExceeded ib s)
    else
      .next ((emitImage ib { s with indexbits := BitVec.ofNat 7 ib, bitlen := 0, bitcur := 0 }).finish
        forgetStream)

end Sys2Proof.Machine
end

