-- ==== Sys2Proof/Machine/Filters.lean ====
section
/-! DEFINITION. The pixel filters `GRAY` and `DITHER`: the pass they share and their visits. -/

namespace Sys2Proof.Machine

/-- Move the column cursor `X` (10_state.md R32). -/
def setX (s : State) (x : Nat) : State := { s with cur := { s.cur with x := x } }

/-- Move the row cursor `Y` (10_state.md R32). -/
def setY (s : State) (y : Nat) : State := { s with cur := { s.cur with y := y } }

/-- Read the buffer's size once (40_filters.md R131). -/
def latchSize (s : State) : State :=
  { s with cur := { s.cur with fw := s.pix.w.toNat, fh := s.pix.h.toNat } }

/-- Visit `n` pixels of row `Y`, from column `X` on, left to right (40_filters.md R132). -/
def forCols (visit : State → Run) : Nat → State → Run
  | 0, s => .ok s
  | n + 1, s => (visit s).bind fun s => forCols visit n (setX s (s.cur.x + 1))

/-- Visit the columns 1 on of `n` rows, from row `Y` on, top to bottom (40_filters.md R132). -/
def forRows (visit : State → Run) (cols : Nat) : Nat → State → Run
  | 0, s => .ok s
  | n + 1, s =>
    (forCols visit cols (setX s 1)).bind fun s => forRows visit cols n (setY s (s.cur.y + 1))

/-- A filter pass: the rows 0 to `FH-2` and in each the columns 1 to `FW-2`, in row-major order; no
pixel at all when `FH <= 1` or `FW <= 2` (40_filters.md R131 to R133). -/
def filterPass (visit : State → Run) (s : State) : Run :=
  let s := latchSize s
  forRows visit (s.cur.fw - 2) (s.cur.fh - 1) (setY s 0)

/-- `PixGet` in a filter's pseudocode: an out-of-range access raises (20_memory.md R61). -/
def getOrRaise (s : State) (x y : Nat) (k : Color → Run) : Run :=
  match pixGet s x y with
  | some c => k c
  | none => .raised .invalidInput 2 s

/-- `PixSet` in a filter's pseudocode: an out-of-range access raises (20_memory.md R61). -/
def setOrRaise (s : State) (x y : Nat) (c : Color) : Run :=
  match pixSet s x y c with
  | some s' => .ok s'
  | none => .raised .invalidInput 2 s

/-- One visit of `GRAY` (40_filters.md R135). -/
def grayVisit (s : State) : Run :=
  getOrRaise s s.cur.x s.cur.y fun p => setOrRaise s s.cur.x s.cur.y (grayPixel p)

/-- `GRAY` (40_filters.md R135). -/
def execGray (s : State) : Host.Outcome State Fault Refusal :=
  .next ((filterPass grayVisit (accept s)).finish forgetPixels)

/-- Push the error of the visited pixel `p` onto the neighbour `(nx, ny)` with weight `wt/16`; a
neighbour outside the buffer is skipped (40_filters.md R140, R145, R146). -/
def diffuse (levels : Nat) (p : Color) (nx ny : Nat) (wt : Int) (s : State) : Run :=
  if nx < s.cur.fw ∧ ny < s.cur.fh then
    getOrRaise s nx ny fun o => setOrRaise s nx ny (diffusePixel levels wt p o)
  else .ok s

/-- One visit of `DITHER`: quantise the pixel, then right, below-left, below, below-right
(40_filters.md R140, R144). -/
def ditherVisit (levels : Nat) (s : State) : Run :=
  let x := s.cur.x
  let y := s.cur.y
  getOrRaise s x y fun p =>
    (setOrRaise s x y (ditherPixel levels p)).bind fun s =>
    (diffuse levels p (x + 1) y 7 s).bind fun s =>
    (diffuse levels p (x - 1) (y + 1) 3 s).bind fun s =>
    (diffuse levels p x (y + 1) 5 s).bind fun s =>
    diffuse levels p (x + 1) (y + 1) 1 s

/-- `LEVELS` is a legal number of levels (40_filters.md R140). -/
abbrev legalLevels (levels : Nat) : Prop := 2 ≤ levels ∧ levels ≤ 256

/-- `DITHER` (40_filters.md R140): the check comes before any access to the PixelBuffer. -/
def execDither (s : State) : Host.Outcome State Fault Refusal :=
  let s := accept s
  if legalLevels s.levels.toNat then
    .next ((filterPass (ditherVisit s.levels.toNat) s).finish forgetPixels)
  else .next (takeError .invalidParameter s.levels.toNat s)

end Sys2Proof.Machine
end

