-- ==== Sys2Proof/Machine/System.lean ====
section
/-! DEFINITION. `NOP`, `SRESET` and the reserved command codes. -/

namespace Sys2Proof.Machine

/-- `NOP` (44_system.md R231). -/
def execNop (s : State) : Host.Outcome State Fault Refusal := .next (complete (accept s))

/-- `SRESET` (44_system.md R232): the reset of 70_reset_and_hazards.md R270; `DONE` is not set. -/
def execSreset (s : State) : Host.Outcome State Fault Refusal := .next (resetBlock (accept s))

/-- A reserved command code starts no operation and raises `InvalidParameter(code)` (30_encoding.md
R92). -/
def reserved (code : Nat) (s : State) : State := takeError .invalidParameter code (accept s)

/-- Code 6 (30_encoding.md R92). -/
def execRsvd6 (s : State) : Host.Outcome State Fault Refusal := .next (reserved 6 s)

/-- Code 7 (30_encoding.md R92). -/
def execRsvd7 (s : State) : Host.Outcome State Fault Refusal := .next (reserved 7 s)

/-- Code 8 (30_encoding.md R92). -/
def execRsvd8 (s : State) : Host.Outcome State Fault Refusal := .next (reserved 8 s)

/-- Code 9 (30_encoding.md R92). -/
def execRsvd9 (s : State) : Host.Outcome State Fault Refusal := .next (reserved 9 s)

/-- Code 10 (30_encoding.md R92). -/
def execRsvd10 (s : State) : Host.Outcome State Fault Refusal := .next (reserved 10 s)

/-- Code 11 (30_encoding.md R92). -/
def execRsvd11 (s : State) : Host.Outcome State Fault Refusal := .next (reserved 11 s)

/-- Code 12 (30_encoding.md R92). -/
def execRsvd12 (s : State) : Host.Outcome State Fault Refusal := .next (reserved 12 s)

/-- Code 13 (30_encoding.md R92). -/
def execRsvd13 (s : State) : Host.Outcome State Fault Refusal := .next (reserved 13 s)

/-- Code 14 (30_encoding.md R92). -/
def execRsvd14 (s : State) : Host.Outcome State Fault Refusal := .next (reserved 14 s)

end Sys2Proof.Machine
end

