-- ==== Sys2Proof/Machine/Dispatch.lean ====
section
/-! DEFINITION. One arm per instruction. For a command, `exec` is the accepted command run to its end
as one atomic transition (44_system.md R230, R234); for a record, one step of the sequencer of a
`DECODE` in progress (43_decoder.md R212). -/

namespace Sys2Proof.Machine

def exec (i : Instr) (s : State) : Host.Outcome State Fault Refusal :=
  match i with
  | .nop => Sys2Proof.Machine.execNop s
  | .gray => Sys2Proof.Machine.execGray s
  | .dither => Sys2Proof.Machine.execDither s
  | .convert => Sys2Proof.Machine.execConvert s
  | .encode => Sys2Proof.Machine.execEncode s
  | .decode => Sys2Proof.Machine.execDecode s
  | .rsvd6 => Sys2Proof.Machine.execRsvd6 s
  | .rsvd7 => Sys2Proof.Machine.execRsvd7 s
  | .rsvd8 => Sys2Proof.Machine.execRsvd8 s
  | .rsvd9 => Sys2Proof.Machine.execRsvd9 s
  | .rsvd10 => Sys2Proof.Machine.execRsvd10 s
  | .rsvd11 => Sys2Proof.Machine.execRsvd11 s
  | .rsvd12 => Sys2Proof.Machine.execRsvd12 s
  | .rsvd13 => Sys2Proof.Machine.execRsvd13 s
  | .rsvd14 => Sys2Proof.Machine.execRsvd14 s
  | .sreset => Sys2Proof.Machine.execSreset s
  | .hdr bg ib w h => Sys2Proof.Machine.execHdr bg ib w h s
  | .color c => Sys2Proof.Machine.execColor c s
  | .sc a => Sys2Proof.Machine.execSc a s
  | .rc a b => Sys2Proof.Machine.execRc a b s
  | .st a => Sys2Proof.Machine.execSt a s
  | .rt a b => Sys2Proof.Machine.execRt a b s

end Sys2Proof.Machine
end

