-- ==== Sys2Proof/Machine/Operands.lean ====
section
/-! DEFINITION. The register file by number: reads, host writes, widths, the readout window. -/

namespace Sys2Proof.Machine

/-- The 19 registers (10_state.md R21). -/
inductive Reg where
  | cmd | status | err | errinfo | levels | imgW | imgH | imgBg | indexbits | ngroups
  | gsel | esel | gcolor | gcount | ekind | ea | eb | bitlen | bitcur
  deriving DecidableEq, Repr

/-- The number of a register (10_state.md R21). -/
def Reg.number : Reg → Nat
  | .cmd => 0
  | .status => 1
  | .err => 2
  | .errinfo => 3
  | .levels => 4
  | .imgW => 5
  | .imgH => 6
  | .imgBg => 7
  | .indexbits => 8
  | .ngroups => 9
  | .gsel => 10
  | .esel => 11
  | .gcolor => 12
  | .gcount => 13
  | .ekind => 14
  | .ea => 15
  | .eb => 16
  | .bitlen => 17
  | .bitcur => 18

/-- The register of a number, if there is one (10_state.md R21). -/
def Reg.ofNumber? : Nat → Option Reg
  | 0 => some .cmd
  | 1 => some .status
  | 2 => some .err
  | 3 => some .errinfo
  | 4 => some .levels
  | 5 => some .imgW
  | 6 => some .imgH
  | 7 => some .imgBg
  | 8 => some .indexbits
  | 9 => some .ngroups
  | 10 => some .gsel
  | 11 => some .esel
  | 12 => some .gcolor
  | 13 => some .gcount
  | 14 => some .ekind
  | 15 => some .ea
  | 16 => some .eb
  | 17 => some .bitlen
  | 18 => some .bitcur
  | _ => none

/-- The width of a register in bits, `none` for unbounded (10_state.md R21, 00_scope.md R8). -/
def Reg.width (cap : Caps) : Reg → Option Nat
  | .cmd => some 4
  | .status => some 4
  | .err => some 3
  | .errinfo => cap.blw.map fun n => max 254 n
  | .levels => some 16
  | .imgW | .imgH => some 127
  | .imgBg => some 24
  | .indexbits => some 7
  | .ngroups | .gsel => cap.maxCol.map fun n => clog2 (n + 1)
  | .esel | .gcount => cap.maxEnt.map fun n => clog2 (n + 1)
  | .gcolor => some 24
  | .ekind => some 1
  | .ea | .eb => some 127
  | .bitlen | .bitcur => cap.blw

/-- The group the readout window shows (10_state.md R28). -/
def shownGroup (s : State) : Option ColorGroup := s.grp[s.gsel]?

/-- The entry the readout window shows (10_state.md R28). -/
def shownEntry (s : State) : Option Entry :=
  match shownGroup s with
  | some g => g.entries[s.esel]?
  | none => none

/-- `EKIND` of an entry (10_state.md R28). -/
def entryKind : Entry → Nat
  | .single _ => 0
  | .run _ _ => 1

/-- `EA` of an entry (10_state.md R28). -/
def entryFirst : Entry → Nat
  | .single a => a
  | .run a _ => a

/-- `EB` of an entry, 0 for a singleton (10_state.md R28). -/
def entryPast : Entry → Nat
  | .single _ => 0
  | .run _ b => b

/-- What a read of a register returns (10_state.md R21, R28); a read has no side effect. Outside the
group store the readout window reads 0. -/
def readReg (s : State) : Reg → Nat
  | .cmd => 0
  | .status => s.status.word.toNat
  | .err => s.err.toNat
  | .errinfo => s.errinfo
  | .levels => s.levels.toNat
  | .imgW => s.imgW.toNat
  | .imgH => s.imgH.toNat
  | .imgBg => s.imgBg.word.toNat
  | .indexbits => s.indexbits.toNat
  | .ngroups => s.grp.length
  | .gsel => s.gsel
  | .esel => s.esel
  | .gcolor => match shownGroup s with
    | some g => g.color.word.toNat
    | none => 0
  | .gcount => match shownGroup s with
    | some g => g.entries.length
    | none => 0
  | .ekind => match shownEntry s with
    | some e => entryKind e
    | none => 0
  | .ea => match shownEntry s with
    | some e => entryFirst e
    | none => 0
  | .eb => match shownEntry s with
    | some e => entryPast e
    | none => 0
  | .bitlen => s.bitlen
  | .bitcur => s.bitcur

/-- A host write to a register other than `CMD`: four registers take the value, truncated to their
width, the others ignore it (10_state.md R21, 70_reset_and_hazards.md R279). -/
def writeReg (s : State) (r : Reg) (v : Nat) : State :=
  match r with
  | .levels => { s with levels := BitVec.ofNat 16 v }
  | .gsel => { s with gsel := truncTo (Reg.gsel.width s.cap) v }
  | .esel => { s with esel := truncTo (Reg.esel.width s.cap) v }
  | .bitlen => { s with bitlen := truncTo (Reg.bitlen.width s.cap) v }
  | .cmd | .status | .err | .errinfo | .imgW | .imgH | .imgBg | .indexbits | .ngroups | .gcolor
  | .gcount | .ekind | .ea | .eb | .bitcur => s

end Sys2Proof.Machine
end

