-- ==== Sys2Proof/Machine/HostPort.lean ====
section
/-! DEFINITION. The host's moves: what each does to the block (70_reset_and_hazards.md R279, R280). -/

namespace Sys2Proof.Machine

/-- A read returns a value to the host and changes nothing else (20_memory.md R69). -/
def returnToHost (v : Nat) (s : State) : State := { s with reads := s.reads ++ [v] }

/-- A move the host has only while the engine is idle (70_reset_and_hazards.md R280). -/
def whenIdle (s : State) (move : Host.Outcome State Fault Refusal) :
    Host.Outcome State Fault Refusal :=
  if s.status.busy then .refused .hostAccessWhileBusy else move

/-- A write to `CMD` (44_system.md R230): ignored while `BUSY` = 1, and while `ERRF` = 1 unless it is
`SRESET`; else the engine executes the command. A value is truncated to the register's 4 bits (log
12). -/
def writeCmd (v : Nat) (s : State) : Host.Outcome State Fault Refusal :=
  if s.status.busy then .next s
  else if s.status.errf ∧ BitVec.ofNat 4 v ≠ 15 then .next s
  else exec (commandOf (BitVec.ofNat 4 v)) s

/-- A write to a register by number. -/
def hostWrite (n v : Nat) (s : State) : Host.Outcome State Fault Refusal :=
  match Reg.ofNumber? n with
  | none => .fault .noSuchRegister
  | some .cmd => writeCmd v s
  | some r => whenIdle s (.next (writeReg s r v))

/-- A read of a register by number; `STATUS` may be read at any time. -/
def hostRead (n : Nat) (s : State) : Host.Outcome State Fault Refusal :=
  match Reg.ofNumber? n with
  | none => .fault .noSuchRegister
  | some .status => .next (returnToHost (readReg s .status) s)
  | some r => whenIdle s (.next (returnToHost (readReg s r) s))

/-- A read of byte `m` of the bit buffer (20_memory.md R67). -/
def hostReadByte (m : Nat) (s : State) : Host.Outcome State Fault Refusal :=
  whenIdle s (if hasByte s.cap m then .next (returnToHost (byteRead s m).toNat s)
    else .fault .noSuchByte)

/-- A write of byte `m` of the bit buffer; `BITLEN` does not change (20_memory.md R67). -/
def hostWriteByte (m : Nat) (v : Byte) (s : State) : Host.Outcome State Fault Refusal :=
  whenIdle s (if hasByte s.cap m then .next (byteWrite s m v) else .fault .noSuchByte)

/-- A resize of the PixelBuffer; the new cells hold nothing yet (log 3). -/
def hostResize (w h : Size) (s : State) : Host.Outcome State Fault Refusal :=
  whenIdle s (.next { s with pix := { w := w, h := h, cells := [], gen := s.free }, free := s.free + 1 })

/-- A read of a pixel. -/
def hostReadPix (x y : Nat) (s : State) : Host.Outcome State Fault Refusal :=
  whenIdle s (match pixGet s x y with
    | some c => .next (returnToHost c.word.toNat s)
    | none => .fault .noSuchPixel)

/-- A write of a pixel. -/
def hostWritePix (x y : Nat) (c : Color) (s : State) : Host.Outcome State Fault Refusal :=
  whenIdle s (match pixSet s x y c with
    | some s' => .next s'
    | none => .fault .noSuchPixel)

/-- The block left alone: idle, it does nothing (70_reset_and_hazards.md R279); while `BUSY` = 1 the
engine goes on by one record of the stream it is decoding (43_decoder.md R212; log 7). -/
def runEngine (s : State) : Host.Outcome State Fault Refusal :=
  if s.status.busy then
    match fetchRecord s with
    | none => .next (completeDecode s)
    | some (.ok i) => exec i s
    | some (.error (.endsInField offset)) => .next (malformed offset s)
  else .next s

/-- One move of the host. -/
def hostMove (m : HostMove) (s : State) : Host.Outcome State Fault Refusal :=
  match m with
  | .readReg n => hostRead n s
  | .writeReg n v => hostWrite n v s
  | .readByte m => hostReadByte m s
  | .writeByte m v => hostWriteByte m v s
  | .resizePix w h => hostResize w h s
  | .readPix x y => hostReadPix x y s
  | .writePix x y c => hostWritePix x y c s
  | .hardReset => .next (resetBlock s)
  | .wait => runEngine s

/-- The next move: the host's, or none left and the block runs on its own. -/
def takeMove (s : State) : Host.Outcome State Fault Refusal :=
  match s.host with
  | [] => runEngine s
  | m :: ms => hostMove m { s with host := ms }

/-- `LOADPIX w h : c0 c1 ...` of 30_encoding.md R102, from cell `i` on. -/
def loadPixCells (w : Nat) : Nat → List Color → List HostMove
  | _, [] => []
  | i, c :: cs => .writePix (i % w) (i / w) c :: loadPixCells w (i + 1) cs

/-- `LOADPIX w h : c0 c1 ...` (30_encoding.md R102). -/
def loadPix (w h : Size) (cells : List Color) : List HostMove :=
  .resizePix w h :: loadPixCells w.toNat 0 cells

/-- The byte writes of `LOADBITS`, from byte `m` on. -/
def loadBytes : Nat → List Byte → List HostMove
  | _, [] => []
  | m, b :: bs => .writeByte m b :: loadBytes (m + 1) bs

/-- `LOADBITS len : byte byte ...` (30_encoding.md R102). -/
def loadBits (len : Nat) (bytes : List Byte) : List HostMove :=
  loadBytes 0 bytes ++ [.writeReg 17 len]

/-- A word of the opcode table stored where the next instruction is taken from, `numbered` of its bits
(log 11): a command as the host's next move to an idle block, a record in the stream at `BITCUR`. The
engine takes neither while an error stands, so none does. -/
def placeWord (s : State) (slot : Slot) (numbered w : Nat) : State :=
  let bits := tableBits numbered w
  let s := { s with status := { s.status with busy := false, errf := false }, err := 0 }
  match slot with
  | .command => { s with host := .writeReg 0 w :: s.host }
  | .header => placeRecord .hdr bits s
  | .colour => placeRecord .color bits s
  | .entry ib => placeRecord .entry bits { s with indexbits := BitVec.ofNat 7 ib }
where
  /-- a `DECODE` in progress at `BITCUR`, in state `d`, with the record's bits next -/
  placeRecord (d : DState) (bits : List Bool) (s : State) : State :=
    enter d { bitWriteList s s.bitcur bits with
      status := s.status.accepted, bitlen := s.bitcur + bits.length, host := .wait :: s.host }

/-- `placeWord` where the table's numbering says. -/
def placeTableWord (s : State) (nbits w : Nat) : State :=
  match tableSlot nbits with
  | none => s
  | some (slot, numbered) => placeWord s slot numbered w

end Sys2Proof.Machine
end

