-- ==== Sys2Proof/Machine/Step.lean ====
section
/-! DEFINITION. One step of the system: the host's next move, with everything the block does for it
(44_system.md R234), and where a word of the opcode table is placed so that the next step runs it. -/

namespace Sys2Proof.Machine

/-- One step: the host's next move; with none left the block is left alone. -/
def step (s : State) : Host.Outcome State Fault Refusal := takeMove s

/-- `s` with the word where `step` takes its next instruction from (log 8, log 11). -/
def State.withFetchWord (s : State) (nbits w : Nat) : State := placeTableWord s nbits w

end Sys2Proof.Machine
end

