-- ==== Sys2Proof/Machine/Image.lean ====
section
/-! DEFINITION. What an image means: `WF` and `Recon` (10_state.md R44, R45), and the stream that holds
it (30_encoding.md R93). These are the spec's predicates; the block computes none of them. -/

namespace Sys2Proof.Machine

/-- Index `i` lies in the index set of an entry (10_state.md R44). -/
def covers : Entry → Nat → Bool
  | .single a, i => i == a
  | .run a b, i => decide (a ≤ i) && decide (i < b)

/-- An entry lies in an image of `n` pixels (10_state.md R44 (b), (c)). -/
def inImage (n : Nat) : Entry → Bool
  | .single a => decide (a < n)
  | .run a b => decide (a < b) && decide (b ≤ n)

/-- The first index of an entry. -/
def startOf : Entry → Nat
  | .single a => a
  | .run a _ => a

/-- All entries of all groups. -/
def allEntries (groups : List ColorGroup) : List Entry := groups.flatMap fun g => g.entries

/-- `WF(W, H, bg, groups)`: the image is well-formed (10_state.md R44). -/
structure WF (w h : Nat) (bg : Color) (groups : List ColorGroup) : Prop where
  /-- (a) -/
  nonempty : 1 ≤ w * h
  /-- (b), (c) -/
  inside : ∀ e ∈ allEntries groups, inImage (w * h) e
  /-- (d) -/
  disjoint : (allEntries groups).Pairwise fun e f => ∀ i, ¬ (covers e i ∧ covers f i)
  /-- (e) -/
  rising : ∀ g ∈ groups, g.entries.Pairwise fun e f => startOf e < startOf f
  /-- (f) -/
  noBackground : ∀ g ∈ groups, g.color ≠ bg
  /-- (g) -/
  distinct : (groups.map fun g => g.color).Nodup
  noEmptyGroup : ∀ g ∈ groups, g.entries ≠ []

/-- `P` is `Recon(W, H, bg, groups)`; there is none where `WF` fails (10_state.md R45). -/
structure IsRecon (w h : Nat) (bg : Color) (groups : List ColorGroup) (P : Nat → Color) : Prop where
  wf : WF w h bg groups
  inGroup : ∀ i < w * h, ∀ g ∈ groups, ∀ e ∈ g.entries, covers e i → P i = g.color
  elsewhere : ∀ i < w * h, (∀ e ∈ allEntries groups, ¬ covers e i) → P i = bg

/-- The entry records of a group: the last one, and only it, is terminal (30_encoding.md R93). -/
def entryRecords : List Entry → List Instr
  | [] => []
  | e :: es => entryRecord es.isEmpty e :: entryRecords es

/-- A group record: a colour record, then the entry records (30_encoding.md R93). -/
def groupRecords (g : ColorGroup) : List Instr := .color g.color :: entryRecords g.entries

/-- The records of an image's stream: the header, then the groups in order (30_encoding.md R93,
42_encoder.md R187). -/
def imageRecords (ib : Nat) (w h : Size) (bg : Color) (groups : List ColorGroup) : List Instr :=
  .hdr bg (BitVec.ofNat 7 ib) w.toNat h.toNat :: groups.flatMap groupRecords

/-- The length of an entry's record. -/
def entryLength (ib : Nat) : Entry → Nat
  | .single _ => 2 + ib
  | .run _ _ => 2 + 2 * ib

/-- The length of the stream (30_encoding.md R98). -/
def streamLength (ib : Nat) (groups : List ColorGroup) : Nat :=
  31 + 2 * ib + (groups.map fun g => 24 + (g.entries.map (entryLength ib)).sum).sum

end Sys2Proof.Machine
end

