-- ==== Sys2Proof/Safety.lean ====
section
/-! DEFINITION. What a claim may call a safe run, and the invariant every step keeps. -/

namespace Sys2Proof.Machine

/-- A state with `ERRF` = 1 is never a successful end (44_system.md R235, 60_exceptions.md R255). -/
abbrev Safe (s : State) : Prop := s.status.errf = false

/-- The parameters are ones an implementation can have (00_scope.md R8; the list of open parameters of
92_eei_decisions.md): the colour and entry capacities are at least 1, and `BLW` bits hold `MAXBITS`. -/
structure Caps.ok (cap : Caps) : Prop where
  col : ∀ m ∈ cap.maxCol, 1 ≤ m
  ent : ∀ m ∈ cap.maxEnt, 1 ≤ m
  blw : ∀ w ∈ cap.blw, ∃ m ∈ cap.maxBytes, 8 * m < 2 ^ w

/-- The invariant of the machine. -/
structure MachineInv (s : State) : Prop where
  cap : Caps.ok s.cap
  /-- the memories keep their canonical form and lie in their spaces -/
  bitsWf : s.bit.bits.wf
  bitsIn : ∀ b ∈ s.bit.bits, fitsBits s.cap (b.1 + 1)
  cellsWf : s.pix.cells.wf
  cellsIn : ∀ c ∈ s.pix.cells, c.1 < s.pix.size
  /-- 10_state.md R39 -/
  colours : (s.grp.map fun g => g.color).Nodup
  entries : ∀ g ∈ s.grp, g.entries ≠ []
  /-- the group store is within its capacities (10_state.md R41) -/
  colourCap : ∀ m ∈ s.cap.maxCol, s.grp.length ≤ m
  entryCap : ∀ m ∈ s.cap.maxEnt, totalEntries s.grp ≤ m
  /-- `BUSY`, `DONE`, `ERRF` are never 1 two at a time (10_state.md R35) -/
  flags : (s.status.busy && s.status.done) = false ∧ (s.status.busy && s.status.errf) = false ∧
    (s.status.done && s.status.errf) = false
  /-- `ERRF` = 1 exactly when `ERR` != 0; `ERR` is never 7 (10_state.md R35, R36) -/
  errCode : s.status.errf = true ↔ s.err ≠ 0
  errLegal : s.err ≠ 7
  /-- every register holds a value of its width (10_state.md R21); `EA` and `EB` are left out, since
  the model's indices are naturals (log 9) -/
  widths : ∀ r : Reg, r ≠ .ea → r ≠ .eb → ∀ n ∈ r.width s.cap, readReg s r < 2 ^ n

end Sys2Proof.Machine
end

