-- ==== Sys2Proof/Certificates/Slice0/Obligations.lean ====
section
/-! DEFINITION. The statements for the provers, and the vocabulary they are written in. -/

namespace Sys2Proof.Claims

open Sys2Proof Sys2Proof.Machine

/-! ### Frames: what stays as it was -/

/-- `LEVELS`, `GSEL`, `ESEL`. -/
abbrev SameSelect (s t : State) : Prop := t.levels = s.levels ∧ t.gsel = s.gsel ∧ t.esel = s.esel

/-- The image state (10_state.md R24). -/
abbrev SameImage (s t : State) : Prop :=
  t.imgW = s.imgW ∧ t.imgH = s.imgH ∧ t.imgBg = s.imgBg ∧ t.grp = s.grp ∧
  t.status.imgv = s.status.imgv

/-- Every bit of the bit buffer. -/
abbrev SameBits (s t : State) : Prop := ∀ k, bitRead t k = bitRead s k

/-- `INDEXBITS`, `BITLEN`, `BITCUR` and the bit buffer. -/
abbrev SameStream (s t : State) : Prop :=
  t.indexbits = s.indexbits ∧ t.bitlen = s.bitlen ∧ t.bitcur = s.bitcur ∧ SameBits s t

/-- The size and every cell of the PixelBuffer. -/
abbrev SamePixels (s t : State) : Prop :=
  t.pix.w = s.pix.w ∧ t.pix.h = s.pix.h ∧ ∀ i, t.pix.cell i = s.pix.cell i

/-- `ERR`, `ERRINFO` and `ERRF`. -/
abbrev SameError (s t : State) : Prop :=
  t.err = s.err ∧ t.errinfo = s.errinfo ∧ t.status.errf = s.status.errf

/-- The parameters and the host's side. -/
abbrev SameHost (s t : State) : Prop := t.cap = s.cap ∧ t.host = s.host ∧ t.reads = s.reads

/-- A command ended by completion (44_system.md R230). -/
abbrev Completed (s t : State) : Prop :=
  t.status.busy = false ∧ t.status.done = true ∧ SameError s t

/-- A command ended by `raise e(info)` (60_exceptions.md R248). -/
abbrev Failed (t : State) (e : ErrorKind) (info : Nat) : Prop :=
  t.status.busy = false ∧ t.status.done = false ∧ t.status.errf = true ∧ t.err = e.code ∧
  t.errinfo = info

/-- The state with only `STATUS`, `ERR`, `ERRINFO` changed, as an error leaves them. -/
def onlyError (s : State) (e : ErrorKind) (info : Nat) : State :=
  { s with
    status := { busy := false, done := false, errf := true, imgv := s.status.imgv }
    err := e.code
    errinfo := info }

/-! ### The filters over a grid of pixels -/

/-- The pixels a filter pass visits (40_filters.md R132). -/
abbrev visited (s : State) (x y : Nat) : Prop :=
  y + 2 ≤ s.pix.h.toNat ∧ 1 ≤ x ∧ x + 2 ≤ s.pix.w.toNat

/-- The visits of a `w` by `h` buffer in their order (40_filters.md R132). -/
def visits (w h : Nat) : List (Nat × Nat) :=
  (List.range (h - 1)).flatMap fun y => (List.range (w - 2)).map fun x => (x + 1, y)

/-- A grid with one cell replaced. -/
def setCell (f : Nat → Nat → Color) (x y : Nat) (c : Color) : Nat → Nat → Color :=
  fun x' y' => if x' = x ∧ y' = y then c else f x' y'

/-- One neighbour receives its share of the error of the pixel `p` (40_filters.md R145). -/
def diffuseCell (levels : Nat) (p : Color) (f : Nat → Nat → Color) (x y : Nat) (wt : Int) :
    Nat → Nat → Color :=
  setCell f x y (diffusePixel levels wt p (f x y))

/-- One visit of `DITHER` (40_filters.md R140). -/
def ditherCell (levels : Nat) (f : Nat → Nat → Color) (v : Nat × Nat) : Nat → Nat → Color :=
  let p := f v.1 v.2
  let f := setCell f v.1 v.2 (ditherPixel levels p)
  let f := diffuseCell levels p f (v.1 + 1) v.2 7
  let f := diffuseCell levels p f (v.1 - 1) (v.2 + 1) 3
  let f := diffuseCell levels p f v.1 (v.2 + 1) 5
  diffuseCell levels p f (v.1 + 1) (v.2 + 1) 1

/-- The pixels of a state's PixelBuffer as a grid. -/
def gridOf (s : State) : Nat → Nat → Color := fun x y => s.pix.cell (y * s.pix.w.toNat + x)

/-! ### A buffer's pixels in LinearIndex order -/

/-- A maximal stretch of one colour starts at index `i`. -/
abbrev startsAt (P : Nat → Color) (i : Nat) : Prop := i = 0 ∨ P (i - 1) ≠ P i

/-- How many entries a colour has: its maximal stretches (41_converter.md R163 to R165). -/
def entriesOf (P : Nat → Color) (n : Nat) (c : Color) : Nat :=
  (List.range n).countP fun i => P i = c ∧ startsAt P i

/-- How many entries there are in all. -/
def entriesIn (P : Nat → Color) (n : Nat) : Nat :=
  (List.range n).countP fun i => startsAt P i

/-- How many different colours there are. -/
def coloursIn (P : Nat → Color) (n : Nat) : Nat :=
  (List.range n).countP fun i => ∀ j < i, P j ≠ P i

/-- The capacities suffice for every buffer of `n` pixels. -/
abbrev roomFor (cap : Caps) (n : Nat) : Prop :=
  (∀ m ∈ cap.maxCol, n ≤ m) ∧ ∀ m ∈ cap.maxEnt, n ≤ m

/-- What `CONVERT` says of one entry of a group of colour `c` (41_converter.md R168 (c), (e)). -/
def maximalEntry (P : Nat → Color) (n : Nat) (c : Color) : Entry → Prop
  | .single a => (a = 0 ∨ P (a - 1) ≠ c) ∧ (a + 1 < n → P (a + 1) ≠ c)
  | .run a b => a + 2 ≤ b ∧ (a = 0 ∨ P (a - 1) ≠ c) ∧ (b < n → P b ≠ c)

/-- One past the last index of an entry. -/
def endOf : Entry → Nat
  | .single a => a + 1
  | .run _ b => b

/-! ### Streams -/

/-- The widths of the fields of the record at the front of some bits, in order: the formats of
30_encoding.md R94, with `ib` of a header at offsets 24 to 30 and `K` of an entry at offset 1. -/
def fieldWidths : Slot → List Bool → List Nat
  | .command, _ => [4]
  | .colour, _ => [8, 8, 8]
  | .header, bits =>
    let ib := bitsVal ((bits.drop 24).take 7)
    [8, 8, 8, 7, ib, ib]
  | .entry ib, bits => if bits[1]? = some true then [2, ib, ib] else [2, ib]

/-- The bits of a list of records. -/
def bitsOf (ib : Nat) (records : List Instr) : List Bool := records.flatMap (encode ib)

/-- The records of a state's image. -/
def recordsOf (s : State) : List Instr :=
  imageRecords (clog2 (imageSize s)) s.imgW s.imgH s.imgBg s.grp

/-- The fields of a state's stream, in order. -/
def fieldsOf (s : State) : List BitField :=
  (recordsOf s).flatMap fun i => i.fields (clog2 (imageSize s))

/-- The total width of some fields. -/
def widthOf (fields : List BitField) : Nat := (fields.map fun f => f.width).sum

/-- The engine may start `ENCODE` on the image: the checks of 42_encoder.md R186. -/
abbrev encodable (s : State) : Prop :=
  s.status.imgv = true ∧ imageSize s ≠ 0 ∧ clog2 (imageSize s) ≤ 127

/-- The group store after appending the entries of some group records (43_decoder.md R214). -/
def rebuilt (groups : List ColorGroup) : List ColorGroup :=
  groups.foldl (fun grp g => g.entries.foldl (fun grp e => appendEntry grp g.color e) grp) []

/-- The capacities suffice for some group records. -/
abbrev roomForGroups (cap : Caps) (groups : List ColorGroup) : Prop :=
  (∀ m ∈ cap.maxCol, groups.length ≤ m) ∧ ∀ m ∈ cap.maxEnt, totalEntries groups ≤ m

/-! ### Entry records -/

/-- The entry an entry record appends, whether it is terminal, and how many `ib`-wide fields it has
(30_encoding.md R94, R95). -/
def entryOf? : Instr → Option (Entry × Bool × Nat)
  | .sc a => some (.single a, false, 1)
  | .rc a b => some (.run a b, false, 2)
  | .st a => some (.single a, true, 1)
  | .rt a b => some (.run a b, true, 2)
  | _ => none

/-- `Append` has room for an entry of colour `c` (10_state.md R41). -/
abbrev canAppend (s : State) (c : Color) : Prop :=
  (∀ m ∈ s.cap.maxCol, (∀ g ∈ s.grp, g.color ≠ c) → s.grp.length < m) ∧
  ∀ m ∈ s.cap.maxEnt, totalEntries s.grp < m

/-- The registers outside `grp` and its window. -/
abbrev outsideWindow (r : Reg) : Prop :=
  r ≠ .gcolor ∧ r ≠ .gcount ∧ r ≠ .ekind ∧ r ≠ .ea ∧ r ≠ .eb

end Sys2Proof.Claims

open Sys2Proof Sys2Proof.Machine Sys2Proof.Claims

/-! ### Encoding -/

/-- For every instruction with every operand its encoding admits: decoding its word gives it back
(30_encoding.md R94 to R99). -/
def Obligations.DecodingAnEncodedInstructionGivesItBack : Prop :=
  ∀ (ib : Nat) (i : Instr) (rest : List Bool), i.wf ib = true →
    decode (i.slot ib) (encode ib i ++ rest) = .ok (i, rest)

/-- The other direction: whatever the decoder reads is a well-formed instruction of that place, and the
bits it took are that instruction's word (30_encoding.md R94 to R100). -/
def Obligations.DecodedBitsAreTheInstructionsWord : Prop :=
  ∀ (ib : Nat) (slot : Slot) (bits rest : List Bool) (i : Instr),
    (∀ n, slot = .entry n → n = ib ∧ ib ≤ 127) → decode slot bits = .ok (i, rest) →
    i.slot ib = slot ∧ i.wf ib = true ∧ encode ib i ++ rest = bits

/-- There are no reserved bit patterns: the decoder reads an instruction exactly when the record's fields
are all there, 4 bits for a command, 24 for a colour record, `2 + ib*(1+K)` for an entry, `31 + 2*ib` for
a header, never more than the longest record; and when it rejects, the bits end inside the field whose
start it names (30_encoding.md R94, R95, R97, R100; 43_decoder.md R210). -/
def Obligations.DecoderRejectsOnlyWhereTheBitsEnd : Prop :=
  ∀ (slot : Slot) (bits : List Bool),
    ((∃ r, decode slot bits = .ok r) ↔ (fieldWidths slot bits).sum ≤ bits.length) ∧
    ((∀ n, slot = .entry n → n ≤ 127) → (fieldWidths slot bits).sum ≤ maxRecordBits) ∧
    ∀ offset, decode slot bits = .error (.endsInField offset) →
      ∃ before width after, fieldWidths slot bits = before ++ width :: after ∧
        offset = before.sum ∧ offset ≤ bits.length ∧ bits.length < offset + width

/-- A few words written out from the spec: the records of 30_encoding.md R103 and 42_encoder.md R191,
R194, and two command codes (R91). -/
def Obligations.WordsWrittenOutInTheSpecDecode : Prop :=
  let o := false
  let i := true
  decode .header
      [i,i,i,i,i,i,i,i, o,o,o,o,o,o,o,o, o,o,o,o,o,o,o,o, o,o,o,o,o,i,i, i,o,i, o,o,i] =
    .ok (.hdr { r := 255, g := 0, b := 0 } 3 5 1, []) ∧
  decode .colour [o,o,o,o,o,o,o,o, i,i,i,i,i,i,i,i, o,o,o,o,o,o,o,o] =
    .ok (.color { r := 0, g := 255, b := 0 }, []) ∧
  decode (.entry 4) [o,o, o,o,i,i] = .ok (.sc 3, []) ∧
  decode (.entry 4) [o,i, o,o,o,o, o,o,i,i] = .ok (.rc 0 3, []) ∧
  decode (.entry 4) [i,o, o,i,i,i] = .ok (.st 7, []) ∧
  decode (.entry 4) [i,i, o,i,o,o, o,i,i,i] = .ok (.rt 4 7, []) ∧
  decode .command [o,o,i,i] = .ok (.convert, []) ∧
  decode .command [i,i,i,i] = .ok (.sreset, [])

/-- `PutBits(v, n)`: a value that does not fit raises `FieldOverflow(BITLEN)`, else a lack of space
raises `CapacityExceeded(3)`, both before any bit is written; else bit `n-1-j` of `v` goes to stream
position `BITLEN + j`, no other bit changes, and `BITLEN` and `BITCUR` move past the field
(42_encoder.md R180, R182; 20_memory.md R66). -/
def Obligations.PutBitsWritesTheFieldMostSignificantBitFirst : Prop :=
  ∀ (s : State) (v n : Nat),
    (¬ fits v n → putBits ⟨v, n⟩ s = .raised .fieldOverflow s.bitlen s) ∧
    (fits v n → ¬ fitsBits s.cap (s.bitlen + n) →
      putBits ⟨v, n⟩ s = .raised .capacityExceeded 3 s) ∧
    (fits v n → fitsBits s.cap (s.bitlen + n) →
      ∃ t, putBits ⟨v, n⟩ s = .ok t ∧ t.bitlen = s.bitlen + n ∧ t.bitcur = s.bitlen + n ∧
        (∀ j < n, bitRead t (s.bitlen + j) = v.testBit (n - 1 - j)) ∧
        (∀ k, k < s.bitlen ∨ s.bitlen + n ≤ k → bitRead t k = bitRead s k) ∧
        { t with bit := s.bit, bitlen := s.bitlen, bitcur := s.bitcur } = s)

/-! ### Arithmetic -/

/-- `clog2(n)` is the least `k` with `2^k >= n` (00_scope.md R12). -/
def Obligations.ClogIsTheLeastExponent : Prop :=
  (∀ n, 1 ≤ n → n ≤ 2 ^ clog2 n ∧ ∀ k, n ≤ 2 ^ k → clog2 n ≤ k) ∧
  ∀ k, clog2 (2 ^ k) = k ∧ clog2 (2 ^ k + 1) = k + 1

/-- `rnd(p, q)` is the integer nearest to `p/q`, and of two equally near ones the even one
(00_scope.md R13). -/
def Obligations.RoundingIsToTheNearestAndTiesToEven : Prop :=
  ∀ p q : Int, 0 < q →
    2 * |p - q * rnd p q| ≤ q ∧ (2 * |p - q * rnd p q| = q → rnd p q % 2 = 0) ∧ rnd (p * q) q = p

/-- `Luma` needs no clamp: it lies between the least and the greatest channel, is the rounded weighted
sum, and maps a grey to itself (40_filters.md R136). -/
def Obligations.LumaLiesBetweenTheChannels : Prop :=
  ∀ c : Color,
    ((luma c).toNat : Int) = rnd (299 * c.r.toNat + 587 * c.g.toNat + 114 * c.b.toNat) 1000 ∧
    min c.r.toNat (min c.g.toNat c.b.toNat) ≤ (luma c).toNat ∧
    (luma c).toNat ≤ max c.r.toNat (max c.g.toNat c.b.toNat) ∧
    ∀ v, luma { r := v, g := v, b := v } = v

/-- The ranges of `DITHER`'s quantities for every legal number of levels and every channel value, and
that `k_c` has no exact half (40_filters.md R141 to R143, R145, R148). -/
def Obligations.DitherQuantitiesStayInRange : Prop :=
  ∀ levels p : Nat, legalLevels levels → p ≤ 255 →
    (0 ≤ quantIndex levels p ∧ quantIndex levels p ≤ levels - 1) ∧
    2 * |quantError levels p| < 255 ∧
    (0 ≤ quantValue levels p ∧ quantValue levels p ≤ 255) ∧
    ∀ wt : Int, 1 ≤ wt → wt ≤ 7 → |diffusion levels wt p| ≤ 56

/-! ### GRAY -/

/-- `GRAY` completes from every state; every visited pixel becomes its luma in all three channels, every
other pixel and everything else stays (40_filters.md R135, R132). -/
def Obligations.GrayReplacesExactlyTheVisitedPixels : Prop :=
  ∀ s, ∃ t, exec .gray s = .next t ∧ Completed s t ∧
    (∀ x y, pixGet t x y =
      if visited s x y then (pixGet s x y).map grayPixel else pixGet s x y) ∧
    t.pix.w = s.pix.w ∧ t.pix.h = s.pix.h ∧
    SameSelect s t ∧ SameImage s t ∧ SameStream s t ∧ SameHost s t

/-- `GRAY` applied twice gives the same pixels as applied once (40_filters.md R136). -/
def Obligations.GrayTwiceIsGrayOnce : Prop :=
  ∀ s t u, exec .gray s = .next t → exec .gray t = .next u → ∀ x y, pixGet u x y = pixGet t x y

/-! ### DITHER -/

/-- `DITHER` with `LEVELS` outside 2 to 256 changes nothing but `STATUS`, `ERR`, `ERRINFO`
(40_filters.md R140, 60_exceptions.md R242, R249). -/
def Obligations.DitherRefusesIllegalLevels : Prop :=
  ∀ s, ¬ legalLevels s.levels.toNat →
    exec .dither s = .next (onlyError s .invalidParameter s.levels.toNat)

/-- `DITHER` with legal `LEVELS` completes, and the buffer it leaves is the fold of the visits in their
order over the whole grid; everything else stays (40_filters.md R140, R149). -/
def Obligations.DitherIsTheFoldOfItsVisits : Prop :=
  ∀ s, legalLevels s.levels.toNat → ∃ t, exec .dither s = .next t ∧ Completed s t ∧
    t.pix.w = s.pix.w ∧ t.pix.h = s.pix.h ∧
    (∀ x < s.pix.w.toNat, ∀ y < s.pix.h.toNat, pixGet t x y = some
      ((visits s.pix.w.toNat s.pix.h.toNat).foldl (ditherCell s.levels.toNat) (gridOf s) x y)) ∧
    SameSelect s t ∧ SameImage s t ∧ SameStream s t ∧ SameHost s t

/-- After `DITHER` every channel of a visited pixel holds one of the `L` values `rnd(255*k, L-1)`: error
never flows back (40_filters.md R147 (f), R143). -/
def Obligations.DitheredPixelsHoldQuantisedValues : Prop :=
  ∀ s t, legalLevels s.levels.toNat → exec .dither s = .next t → ∀ x y, visited s x y →
    ∃ c, pixGet t x y = some c ∧ ∀ v ∈ [c.r, c.g, c.b], ∃ k : Nat, k + 1 ≤ s.levels.toNat ∧
      (v.toNat : Int) = rnd (255 * k) (s.levels.toNat - 1)

/-- `DITHER` with 256 levels leaves every pixel as it was (40_filters.md R147 (a)). -/
def Obligations.DitherWithAllLevelsIsTheIdentity : Prop :=
  ∀ s t, s.levels = 256 → exec .dither s = .next t → ∀ x y, pixGet t x y = pixGet s x y

/-- On a buffer without interior pixels neither filter touches the PixelBuffer (40_filters.md R133). -/
def Obligations.FiltersLeaveDegenerateBuffersAlone : Prop :=
  ∀ s i, (i = .gray ∨ i = .dither ∧ legalLevels s.levels.toNat) →
    (s.pix.h.toNat ≤ 1 ∨ s.pix.w.toNat ≤ 2) →
    ∃ t, exec i s = .next t ∧ Completed s t ∧ t.pix = s.pix

/-! ### CONVERT -/

/-- An empty buffer is an `InvalidInput(0)`: `IMGV` = 0, `GRP` empty, everything else as it was
(41_converter.md R161, 60_exceptions.md R249). -/
def Obligations.ConvertRejectsAnEmptyBuffer : Prop :=
  ∀ s, s.pix.size = 0 →
    exec .convert s = .next { onlyError s .invalidInput 0 with
      status := { busy := false, done := false, errf := true, imgv := false }, grp := [] }

/-- `CONVERT` of a buffer with at least one pixel, the capacities large enough, completes: the image
registers hold the buffer's size, `IMGV` is set, the PixelBuffer and everything else stays
(41_converter.md R160, 60_exceptions.md R255). -/
def Obligations.ConvertCompletes : Prop :=
  ∀ s, s.pix.size ≠ 0 → roomFor s.cap s.pix.size → ∃ t, exec .convert s = .next t ∧
    Completed s t ∧ t.status.imgv = true ∧ t.imgW = s.pix.w ∧ t.imgH = s.pix.h ∧
    SamePixels s t ∧ SameSelect s t ∧ SameStream s t ∧ SameHost s t

/-- `CONVERT` ends with `CapacityExceeded` exactly when the buffer has more than `MAXCOL` colours or
yields more than `MAXENT` entries (41_converter.md R165, 60_exceptions.md R246). -/
def Obligations.ConvertFailsExactlyWhenACapacityIsPassed : Prop :=
  ∀ s, s.pix.size ≠ 0 → s.status.errf = false → ∃ t, exec .convert s = .next t ∧
    t.status.busy = false ∧
    (t.status.done = true ↔
      (∀ m ∈ s.cap.maxCol, coloursIn s.pix.cell s.pix.size ≤ m) ∧
      ∀ m ∈ s.cap.maxEnt, entriesIn s.pix.cell s.pix.size ≤ m) ∧
    (t.status.done = false → t.status.imgv = false ∧
      (Failed t .capacityExceeded 1 ∨ Failed t .capacityExceeded 2)) ∧
    SamePixels s t ∧ SameSelect s t ∧ SameStream s t ∧ SameHost s t

/-- What a successful `CONVERT` guarantees of its result (41_converter.md R168 (a) to (g)). -/
def Obligations.ConvertResultIsWellFormedAndLossless : Prop :=
  ∀ s t, exec .convert s = .next t → t.status.done = true →
    let P := s.pix.cell
    let n := s.pix.size
    WF t.imgW.toNat t.imgH.toNat t.imgBg t.grp ∧
    (t.imgW.toNat * t.imgH.toNat = n ∧
      IsRecon t.imgW.toNat t.imgH.toNat t.imgBg t.grp P ∧
      ∀ i < n, P i ≠ t.imgBg → ∃ g ∈ t.grp, g.color = P i ∧ ∃ e ∈ g.entries, covers e i) ∧
    (∀ g ∈ t.grp, ∀ e ∈ g.entries, maximalEntry P n g.color e) ∧
    (∀ g ∈ t.grp, g.entries.Pairwise fun e f => endOf e < startOf f) ∧
    (∀ g ∈ t.grp, ∃ a, (g.entries.map startOf).head? = some a ∧ P a = g.color ∧
      ∀ j < a, P j ≠ g.color) ∧
    (t.grp.map fun g => (g.entries.map startOf).head?.getD 0).Pairwise (· < ·) ∧
    t.grp.length + 1 = coloursIn P n

/-- The background is a colour of the buffer with the most entries, of several such colours the one
whose first pixel has the smallest index, and every other colour's group holds as many entries as the
colour has (41_converter.md R165 to R167, 10_state.md R40). -/
def Obligations.BackgroundHasTheMostEntriesFirstOfATie : Prop :=
  ∀ s t, exec .convert s = .next t → t.status.done = true →
    let P := s.pix.cell
    let n := s.pix.size
    (∃ j < n, P j = t.imgBg ∧ ∀ i < n, entriesOf P n (P i) ≤ entriesOf P n t.imgBg ∧
      (entriesOf P n (P i) = entriesOf P n t.imgBg → j ≤ i)) ∧
    ∀ g ∈ t.grp, g.entries.length = entriesOf P n g.color

/-! ### ENCODE -/

/-- The tests of `ENCODE` in their order, each changing nothing but `STATUS`, `ERR`, `ERRINFO`
(42_encoder.md R186, 60_exceptions.md R249). -/
def Obligations.EncodeRefusesImagesItCannotSize : Prop :=
  ∀ s, (s.status.imgv = false → exec .encode s = .next (onlyError s .invalidInput 1)) ∧
    (s.status.imgv = true → imageSize s = 0 →
      exec .encode s = .next (onlyError s .invalidInput 0)) ∧
    (s.status.imgv = true → 127 < clog2 (imageSize s) →
      exec .encode s = .next (onlyError s .formatLimitExceeded (clog2 (imageSize s))))

/-- `ENCODE` of an image whose values all fit, with room in the bit buffer, completes: the bit buffer
holds the image's records in order, `BITLEN` is the length of 30_encoding.md R98, the pad bits are 0,
everything else stays (42_encoder.md R185 to R188). That the bits past the padded last byte keep what
they held is the model's reading of R188 where 93_implementation_defined.md V1 says any value (log 20,
DEDUCED, unsafe). -/
def Obligations.EncodeWritesTheImagesStream : Prop :=
  ∀ s, encodable s → (∀ i ∈ recordsOf s, i.wf (clog2 (imageSize s)) = true) →
    fitsBits s.cap (streamLength (clog2 (imageSize s)) s.grp) →
    ∃ t, exec .encode s = .next t ∧ Completed s t ∧
      t.indexbits.toNat = clog2 (imageSize s) ∧
      t.bitlen = streamLength (clog2 (imageSize s)) s.grp ∧ t.bitcur = t.bitlen ∧
      bitsAt t 0 t.bitlen = bitsOf (clog2 (imageSize s)) (recordsOf s) ∧
      (∀ k, t.bitlen ≤ k → k < 8 * ((t.bitlen + 7) / 8) → bitRead t k = false) ∧
      (∀ k, 8 * ((t.bitlen + 7) / 8) ≤ k → bitRead t k = bitRead s k) ∧
      SameImage s t ∧ SamePixels s t ∧ SameSelect s t ∧ SameHost s t

/-- `ENCODE` reports the first field, in stream order, that cannot be written: `FieldOverflow` at its
position when the value does not fit, `CapacityExceeded(3)` when only the space is missing; the image
state and everything but the stream stay (42_encoder.md R180 to R182, R190; 60_exceptions.md R249,
R250). -/
def Obligations.EncodeReportsTheFirstFieldThatCannotBeWritten : Prop :=
  ∀ s before f after, encodable s → fieldsOf s = before ++ f :: after →
    (∀ g ∈ before, fits g.value g.width) → fitsBits s.cap (widthOf before) →
    (¬ fits f.value f.width ∨ ¬ fitsBits s.cap (widthOf before + f.width)) →
    ∃ t, exec .encode s = .next t ∧
      (¬ fits f.value f.width → Failed t .fieldOverflow (widthOf before)) ∧
      (fits f.value f.width → Failed t .capacityExceeded 3) ∧
      SameImage s t ∧ SamePixels s t ∧ SameSelect s t ∧ SameHost s t

/-- No image of one pixel encodes: the width 1 does not fit 0 bits (42_encoder.md R190 (d)). -/
def Obligations.OnePixelImagesDoNotEncode : Prop :=
  ∀ s, s.status.imgv = true → imageSize s = 1 → fitsBits s.cap 31 →
    ∃ t, exec .encode s = .next t ∧ Failed t .fieldOverflow 31

/-- After `CONVERT`, an image whose pixel count is not a power of two always encodes, the bit buffer
being large enough for the stream (42_encoder.md R190, 30_encoding.md R98). -/
def Obligations.ConvertedImagesEncodeUnlessAPowerOfTwo : Prop :=
  ∀ s c, exec .convert s = .next c → c.status.done = true →
    (∀ k, s.pix.size ≠ 2 ^ k) → s.pix.size ≤ 2 ^ 127 →
    fitsBits c.cap (streamLength (clog2 (imageSize c)) c.grp) →
    ∃ e, exec .encode c = .next e ∧ Completed c e

/-! ### DECODE -/

/-- `DECODE` ends from every state, by completion or by `MalformedStream` or `CapacityExceeded`. On
completion `IMGV` is set and `BITCUR` = `BITLEN`; on an error `IMGV` = 0, and `BITCUR` = `ERRINFO` for
`MalformedStream`. It writes neither the bit buffer nor `BITLEN`, and nothing outside the image state
(43_decoder.md R211, R221; 10_state.md R30; 60_exceptions.md R249). -/
def Obligations.DecodeAlwaysEnds : Prop :=
  ∀ s, s.status.errf = false → ∃ t, exec .decode s = .next t ∧ t.status.busy = false ∧
    (t.status.done = true ∧ SameError s t ∧ t.status.imgv = true ∧ t.bitcur = t.bitlen ∨
      t.status.imgv = false ∧
      (∃ pos ≤ s.bitlen, Failed t .malformedStream pos ∧ t.bitcur = pos) ∨
      t.status.imgv = false ∧ ∃ info, 1 ≤ info ∧ info ≤ 3 ∧ Failed t .capacityExceeded info) ∧
    t.bitlen = s.bitlen ∧ SameBits s t ∧ SamePixels s t ∧ SameSelect s t ∧ SameHost s t

/-- A stream shorter than the fixed part of a header is malformed at the first field that is cut
(43_decoder.md R213, R223). -/
def Obligations.ShortHeadersAreMalformed : Prop :=
  ∀ s, s.bitlen < 31 → fitsBits s.cap s.bitlen → ∃ t, exec .decode s = .next t ∧
    Failed t .malformedStream (if s.bitlen < 8 then 0 else if s.bitlen < 16 then 8
      else if s.bitlen < 24 then 16 else 24)

/-- A `BITLEN` beyond the bit buffer is a `CapacityExceeded(3)` before anything is read
(43_decoder.md R211, 60_exceptions.md R246). -/
def Obligations.DecodeRefusesALengthBeyondTheBuffer : Prop :=
  ∀ s, ¬ fitsBits s.cap s.bitlen → ∃ t, exec .decode s = .next t ∧
    Failed t .capacityExceeded 3 ∧ t.status.imgv = false

/-- `DECODE` of a stream made of a header and group records completes with the image the records say:
the header's registers, and the entries appended one after the other to the groups of their colours.
The group records may repeat a colour, and there may be none (43_decoder.md R211 to R218, R223 (c)). -/
def Obligations.DecodeRebuildsTheImageOfItsStream : Prop :=
  ∀ s ib (w h : Size) bg (groups : List ColorGroup), ib ≤ 127 →
    (∀ i ∈ imageRecords ib w h bg groups, i.wf ib = true) → (∀ g ∈ groups, g.entries ≠ []) →
    s.bitlen = streamLength ib groups → fitsBits s.cap s.bitlen →
    bitsAt s 0 s.bitlen = bitsOf ib (imageRecords ib w h bg groups) →
    roomForGroups s.cap groups →
    ∃ t, exec .decode s = .next t ∧ Completed s t ∧ t.status.imgv = true ∧ t.imgBg = bg ∧
      t.indexbits.toNat = ib ∧ t.imgW = w ∧ t.imgH = h ∧ t.grp = rebuilt groups ∧
      t.bitcur = s.bitlen ∧ t.bitlen = s.bitlen ∧ SameBits s t ∧ SamePixels s t ∧
      SameSelect s t ∧ SameHost s t

/-- Decoding what `ENCODE` wrote gives the image back (42_encoder.md R198). -/
def Obligations.DecodeOfAnEncodedImageGivesItBack : Prop :=
  ∀ s t, MachineInv s → s.status.busy = false → exec .encode s = .next t → t.status.done = true →
    ∃ u, exec .decode t = .next u ∧ Completed t u ∧ SameImage s u ∧
      u.indexbits = t.indexbits ∧ u.bitcur = t.bitlen ∧ u.bitlen = t.bitlen ∧ SameBits t u ∧
      SamePixels s u ∧ SameSelect s u ∧ SameHost s u

/-- The round trip of the source: when `CONVERT` and then `ENCODE` end without an error, `DECODE` of the
resulting stream leaves the image as `CONVERT` left it, and it reconstructs the buffer (42_encoder.md
R198). -/
def Obligations.RoundTripReconstructsThePixelBuffer : Prop :=
  ∀ s c e, exec .convert s = .next c → c.status.done = true → exec .encode c = .next e →
    e.status.done = true →
    ∃ d, exec .decode e = .next d ∧ Completed e d ∧ SameImage c d ∧
      IsRecon d.imgW.toNat d.imgH.toNat d.imgBg d.grp s.pix.cell

/-- A stream `ENCODE` wrote, with its last byte dropped, fails with `MalformedStream` (43_decoder.md
R222). -/
def Obligations.ATruncatedStreamIsMalformed : Prop :=
  ∀ s t, MachineInv s → s.status.busy = false → exec .encode s = .next t → t.status.done = true →
    ∃ u, exec .decode { t with bitlen := 8 * ((t.bitlen + 7) / 8 - 1) } = .next u ∧
      (∃ pos, Failed u .malformedStream pos) ∧ u.status.imgv = false

/-- Stepping the record sequencer from the start of `DECODE`, record by record, ends in the state the
atomic command answers (44_system.md R234, 43_decoder.md R212). That `step` goes on by one record while
`BUSY` = 1 is the model's choice (log 7). -/
def Obligations.DecodeIsItsRecordsOneStepAtATime : Prop :=
  ∀ s, s.host = [] → fitsBits s.cap s.bitlen →
    ∃ k, Host.Core.run core k (startDecode s) = exec .decode s

/-! ### The records -/

/-- `HDR` writes the image registers and `INDEXBITS`, moves `BITCUR` past its `31 + 2*ib` bits, and
leads to a colour record or the end (43_decoder.md R213, R212). That it does so in every state of the
sequencer is the model's choice (log 18). -/
def Obligations.HdrWritesTheImageRegisters : Prop :=
  ∀ s bg (ib : BitVec 7) w h, fits w ib.toNat → fits h ib.toNat →
    ∃ t, exec (.hdr bg ib w h) s = .next t ∧ t.imgBg = bg ∧ t.indexbits = ib ∧
      t.imgW.toNat = w ∧ t.imgH.toNat = h ∧ t.bitcur = s.bitcur + (31 + 2 * ib.toNat) ∧
      t.cur.dstate = (if s.bitcur + (31 + 2 * ib.toNat) < s.bitlen then .color else .stop) ∧
      t.grp = s.grp ∧ t.status = s.status ∧ t.err = s.err ∧ t.errinfo = s.errinfo ∧
      t.bitlen = s.bitlen ∧ SameBits s t ∧ SamePixels s t ∧ SameSelect s t ∧ SameHost s t

/-- `COLOR` sets the colour of the group to which the following entries are appended (43_decoder.md
R214). That it does so in every state of the sequencer is the model's choice (log 18). -/
def Obligations.ColorSetsTheCurrentColour : Prop :=
  ∀ s c, ∃ t, exec (.color c) s = .next t ∧ t.cur.curc = c ∧ t.cur.dstate = .entry ∧
    t.bitcur = s.bitcur + 24 ∧ SameImage s t ∧ t.status = s.status ∧ SameError s t ∧
    t.indexbits = s.indexbits ∧ t.bitlen = s.bitlen ∧ SameBits s t ∧ SamePixels s t ∧
    SameSelect s t ∧ SameHost s t

/-- `SC`, `RC`, `ST`, `RT` append their entry to the group of the current colour, when `Append` has
room, move `BITCUR` past the record, and a terminal one leads on from the group (43_decoder.md R215 to
R218). That they do so in every state of the sequencer is the model's choice (log 18). -/
def Obligations.EntryRecordsAppendToTheCurrentGroup : Prop :=
  ∀ s i e terminal n, entryOf? i = some (e, terminal, n) → canAppend s s.cur.curc →
    ∃ t, exec i s = .next t ∧ t.grp = appendEntry s.grp s.cur.curc e ∧
      t.bitcur = s.bitcur + (2 + n * s.indexbits.toNat) ∧
      t.cur.dstate = (if terminal = false then .entry
        else if s.bitcur + (2 + n * s.indexbits.toNat) < s.bitlen then .color else .stop) ∧
      t.cur.curc = s.cur.curc ∧ t.status = s.status ∧ SameError s t ∧ t.imgW = s.imgW ∧
      t.imgH = s.imgH ∧ t.imgBg = s.imgBg ∧ t.indexbits = s.indexbits ∧ t.bitlen = s.bitlen ∧
      SameBits s t ∧ SamePixels s t ∧ SameSelect s t ∧ SameHost s t

/-- An entry record for which `Append` has no room ends the `DECODE` with `CapacityExceeded`, 1 when a
new colour is one too many, else 2 (10_state.md R41, 60_exceptions.md R246, R250). States past a capacity, and
every state of the sequencer, are the model's choice (log 17, log 18). -/
def Obligations.EntryRecordsRaiseWhenTheStoreIsFull : Prop :=
  ∀ s i p, entryOf? i = some p → ¬ canAppend s s.cur.curc →
    ∃ t, exec i s = .next t ∧ t.status.errf = true ∧ t.status.busy = false ∧
      t.err = ErrorKind.capacityExceeded.code ∧
      t.errinfo = (if (∀ g ∈ s.grp, g.color ≠ s.cur.curc) ∧
        ∃ m ∈ s.cap.maxCol, m ≤ s.grp.length then 1 else 2) ∧
      t.bitlen = s.bitlen ∧ SameBits s t ∧ SamePixels s t ∧ SameSelect s t ∧ SameHost s t

/-- `Append(c, e)`: a new colour beyond `MAXCOL` raises `CapacityExceeded(1)`, then an entry beyond
`MAXENT` raises `CapacityExceeded(2)`; else the entry goes to the end of the first group of colour `c`,
or into a new group at the end, and every other group stays in its place (10_state.md R41). That a store
past its capacity raises like a full one is the model's choice (log 17). -/
def Obligations.AppendAddsOneEntryToOneGroup : Prop :=
  ∀ (cap : Caps) (grp : List ColorGroup) (c : Color) (e : Entry),
    let newColour := ∀ g ∈ grp, g.color ≠ c
    let noColour := ∃ m ∈ cap.maxCol, m ≤ grp.length
    let noEntry := ∃ m ∈ cap.maxEnt, m ≤ totalEntries grp
    (newColour → noColour → append cap grp c e = .error 1) ∧
    (¬ (newColour ∧ noColour) → noEntry → append cap grp c e = .error 2) ∧
    (¬ (newColour ∧ noColour) → ¬ noEntry → ∃ grp', append cap grp c e = .ok grp' ∧
      (newColour → grp' = grp ++ [{ color := c, entries := [e] }]) ∧
      (∀ before g after, grp = before ++ g :: after → g.color = c →
        (∀ h ∈ before, h.color ≠ c) →
        grp' = before ++ { g with entries := g.entries ++ [e] } :: after) ∧
      totalEntries grp' = totalEntries grp + 1)

/-! ### NOP, SRESET, reserved codes -/

/-- `NOP` sets `DONE` and changes nothing else (44_system.md R231). -/
def Obligations.NopSetsDoneOnly : Prop :=
  ∀ s, exec .nop s = .next { s with
    status := { busy := false, done := true, errf := s.status.errf, imgv := s.status.imgv } }

/-- The codes 6 to 14 are reserved: each raises `InvalidParameter(code)` and changes nothing else
(30_encoding.md R92). -/
def Obligations.ReservedCodesRaiseInvalidParameter : Prop :=
  ∀ s, ∀ p ∈ [(Instr.rsvd6, 6), (.rsvd7, 7), (.rsvd8, 8), (.rsvd9, 9), (.rsvd10, 10),
      (.rsvd11, 11), (.rsvd12, 12), (.rsvd13, 13), (.rsvd14, 14)],
    commandOf (BitVec.ofNat 4 p.2) = p.1 ∧ exec p.1 s = .next (onlyError s .invalidParameter p.2)

/-- `SRESET` brings every register to 0, empties `GRP`, sets no `DONE`, keeps the PixelBuffer
(44_system.md R232, 70_reset_and_hazards.md R270 to R272). What it keeps of the model's own fields is
log 21. -/
def Obligations.SresetClearsEveryRegister : Prop :=
  ∀ s, ∃ t, exec .sreset s = .next t ∧ (∀ r, readReg t r = 0) ∧ t.grp = [] ∧
    t.pix = s.pix ∧ SameHost s t

/-- The hardware reset has the effect of `SRESET` at any time, `BUSY` = 1 included
(70_reset_and_hazards.md R270 to R272). That the PixelBuffer is kept at `BUSY` = 1 too is the model's
choice: the one command it shows in progress is `DECODE`, which does not write it, while R270 leaves the
buffer of an abandoned filter without a defined value (log 7, log 19, DESIGN CHOICE, unsafe). What a
reset keeps of the model's own fields is log 21. -/
def Obligations.HardwareResetIsAcceptedAtAnyTime : Prop :=
  ∀ s ms, s.host = .hardReset :: ms → ∃ t, step s = .next t ∧ (∀ r, readReg t r = 0) ∧
    t.grp = [] ∧ t.pix = s.pix ∧ t.cap = s.cap ∧ t.host = ms ∧ t.reads = s.reads

/-- After reset every register reads 0 and the group store is empty (70_reset_and_hazards.md R270). -/
def Obligations.ResetStateReadsZero : Prop :=
  (∀ r, readReg State.reset r = 0) ∧ State.reset.grp = [] ∧ Safe State.reset

/-! ### The machine -/

/-- The next step runs the command the host writes to `CMD`: the idle block accepts it unless an error
stands, and then only `SRESET` (44_system.md R230, 60_exceptions.md R251). That the host's moves stand
in a list, and that a value is truncated to 4 bits, is the model's choice (log 8, log 12). -/
def Obligations.StepRunsTheCommandTheHostWrites : Prop :=
  ∀ s v ms, s.host = .writeReg 0 v :: ms → s.status.busy = false →
    (s.status.errf = false ∨ v % 16 = 15) →
    step s = exec (commandOf (BitVec.ofNat 4 v)) { s with host := ms }

/-- While a `DECODE` is in progress and the host waits, the next step runs the record that the bits at
`BITCUR` decode to (43_decoder.md R212, 10_state.md R30; that a step runs one record is the model's
choice, log 7). -/
def Obligations.StepRunsTheRecordAtBitcur : Prop :=
  ∀ s slot i rest, s.status.busy = true → recordSlot s = some slot →
    decode slot (window s) = .ok (i, rest) →
    (s.host = [] → step s = exec i s) ∧
    ∀ ms, s.host = .wait :: ms → step s = exec i { s with host := ms }

/-- A write to `CMD` while `BUSY` = 1, or while an error stands and the code is not 15, changes nothing
(44_system.md R230, 60_exceptions.md R252 (e)). That a value wider than 4 bits is truncated is the
model's choice (log 12, DESIGN CHOICE, unsafe for such values). -/
def Obligations.IgnoredCommandWritesChangeNothing : Prop :=
  ∀ s v ms, s.host = .writeReg 0 v :: ms →
    (s.status.busy = true ∨ s.status.errf = true ∧ v % 16 ≠ 15) →
    step s = .next { s with host := ms }

/-- While `BUSY` = 1 the host may read `STATUS`; an access to another register of the file or to the
data spaces is not offered (70_reset_and_hazards.md R280, 20_memory.md R72). That the step then answers
a refusal is the model's form of it (log 14). -/
def Obligations.HostAccessesWhileBusyAreRefused : Prop :=
  ∀ s m ms, s.host = m :: ms → s.status.busy = true →
    (m = .readReg 1 → ∃ t, step s = .next t ∧ t = { s with
      host := ms, reads := s.reads ++ [s.status.word.toNat] }) ∧
    ((∃ r : Reg, r ≠ .status ∧ m = .readReg r.number) ∨
      (∃ (r : Reg) (v : Nat), r ≠ .cmd ∧ m = .writeReg r.number v) ∨ (∃ b, m = .readByte b) ∨
      (∃ b v, m = .writeByte b v) ∨ (∃ w h, m = .resizePix w h) ∨ (∃ x y, m = .readPix x y) ∨
      (∃ x y c, m = .writePix x y c) → step s = .refused .hostAccessWhileBusy)

/-- Errors are sticky: no step but a reset changes `ERRF`, `ERR`, `ERRINFO` or the image state while an
error stands (60_exceptions.md R251). That a written value wider than 4 bits is truncated, which says
whether it is `SRESET`, is the model's choice (log 12, DESIGN CHOICE, unsafe for such values). -/
def Obligations.ErrorsStandUntilAReset : Prop :=
  ∀ s t, s.status.busy = false → s.status.errf = true → step s = .next t →
    s.host.head? ≠ some .hardReset →
    (∀ v, s.host.head? = some (.writeReg 0 v) → v % 16 ≠ 15) →
    SameError s t ∧ t.status = s.status ∧ SameImage s t ∧ t.indexbits = s.indexbits ∧
      t.bitcur = s.bitcur

/-- A read returns the register's value and changes nothing (70_reset_and_hazards.md R279). -/
def Obligations.ReadingARegisterChangesNothing : Prop :=
  ∀ s (r : Reg) ms, s.host = .readReg r.number :: ms → s.status.busy = false →
    step s = .next { s with host := ms, reads := s.reads ++ [readReg s r] }

/-- A host write to a register other than `CMD`: `LEVELS`, `GSEL`, `ESEL`, `BITLEN` take the value
truncated to their width and no other register outside the readout window changes; a write to any other
register is ignored (70_reset_and_hazards.md R279, 10_state.md R21). -/
def Obligations.HostWritesReachFourRegistersOnly : Prop :=
  ∀ s (r : Reg) v ms, s.host = .writeReg r.number v :: ms → s.status.busy = false → r ≠ .cmd →
    ∃ t, step s = .next t ∧
      (r ∈ [Reg.levels, .gsel, .esel, .bitlen] →
        readReg t r = (match r.width s.cap with
          | some n => v % 2 ^ n
          | none => v)) ∧
      (r ∉ [Reg.levels, .gsel, .esel, .bitlen] → t = { s with host := ms }) ∧
      (∀ r' : Reg, r' ≠ r → outsideWindow r' → readReg t r' = readReg s r') ∧
      SameBits s t ∧ SamePixels s t ∧ t.grp = s.grp ∧ t.host = ms ∧ t.reads = s.reads

/-- Byte `m` of the byte view: a write sets the stream bits `8m` to `8m+7`, the first one the most
significant, and no other bit; a read then returns the byte (20_memory.md R67). -/
def Obligations.HostBytesAreEightStreamBits : Prop :=
  ∀ s m (v : Byte) ms, s.host = .writeByte m v :: .readByte m :: ms → s.status.busy = false →
    hasByte s.cap m → ∃ t u, step s = .next t ∧ step t = .next u ∧
      (∀ j < 8, bitRead t (8 * m + j) = v.getLsbD (7 - j)) ∧
      (∀ k, k < 8 * m ∨ 8 * m + 8 ≤ k → bitRead t k = bitRead s k) ∧ t.bitlen = s.bitlen ∧
      u = { t with host := ms, reads := s.reads ++ [v.toNat] }

/-- What the readout window shows (10_state.md R28). -/
def Obligations.ReadoutWindowShowsTheSelectedEntry : Prop :=
  ∀ s, readReg s .ngroups = s.grp.length ∧
    (∀ g, s.grp[s.gsel]? = some g →
      readReg s .gcolor = 65536 * g.color.r.toNat + 256 * g.color.g.toNat + g.color.b.toNat ∧
      readReg s .gcount = g.entries.length ∧
      (∀ a, g.entries[s.esel]? = some (.single a) →
        readReg s .ekind = 0 ∧ readReg s .ea = a ∧ readReg s .eb = 0) ∧
      (∀ a b, g.entries[s.esel]? = some (.run a b) →
        readReg s .ekind = 1 ∧ readReg s .ea = a ∧ readReg s .eb = b) ∧
      (g.entries.length ≤ s.esel →
        readReg s .ekind = 0 ∧ readReg s .ea = 0 ∧ readReg s .eb = 0)) ∧
    (s.grp.length ≤ s.gsel → ∀ r ∈ [Reg.gcolor, .gcount, .ekind, .ea, .eb], readReg s r = 0)

/-- The bits of `STATUS` (10_state.md R35). -/
def Obligations.StatusBitsStandWhereTheTableSays : Prop :=
  ∀ s, readReg s .status = s.status.busy.toNat + 2 * s.status.done.toNat +
    4 * s.status.errf.toNat + 8 * s.status.imgv.toNat

/-- An idle block left alone does nothing (70_reset_and_hazards.md R279, R290). -/
def Obligations.AnIdleBlockDoesNothing : Prop :=
  ∀ s, s.status.busy = false → (s.host = [] → step s = .next s) ∧
    ∀ ms, s.host = .wait :: ms → step s = .next { s with host := ms }

/-- Which instruction writes what, over all of them: every one answers a next state; a command leaves
`BUSY` = 0; `LEVELS`, `GSEL`, `ESEL` are written by none but `SRESET`, the PixelBuffer by none but the
filters, the bit buffer and `BITLEN` by none but `ENCODE` and `SRESET` (10_state.md R21, 20_memory.md
R60, 70_reset_and_hazards.md R281). -/
def Obligations.EachInstructionWritesOnlyItsOwnState : Prop :=
  ∀ (i : Instr) (s : State), ∃ t, exec i s = .next t ∧ SameHost s t ∧
    (∀ ib, i.slot ib = .command → t.status.busy = false) ∧
    (i ≠ .sreset → SameSelect s t) ∧
    (i ≠ .gray → i ≠ .dither → t.pix = s.pix) ∧
    (i ≠ .encode → i ≠ .sreset → t.bitlen = s.bitlen ∧ SameBits s t)

/-- The image state is written by `CONVERT`, `DECODE` and the resets only: no other move of the host
changes it (10_state.md R24, 70_reset_and_hazards.md R279). That a code wider than 4 bits is truncated
is the model's choice (log 12, DESIGN CHOICE, unsafe for such values). -/
def Obligations.OnlyConvertDecodeAndResetsChangeTheImage : Prop :=
  ∀ s t, s.status.busy = false → step s = .next t → s.host.head? ≠ some .hardReset →
    (∀ v, s.host.head? = some (.writeReg 0 v) → v % 16 ≠ 3 ∧ v % 16 ≠ 5 ∧ v % 16 ≠ 15) →
    SameImage s t

/-- Every step keeps the invariant, from every state that meets it (10_state.md R21, R35, R36, R39,
R41). -/
def Obligations.EveryStepKeepsTheMachineInvariant : Prop :=
  ∀ s t, MachineInv s → step s = .next t → MachineInv t

/-- The reset state meets the invariant (70_reset_and_hazards.md R270; its capacities, PixelBuffer and
host are the model's choice, log 3, log 5, log 8). -/
def Obligations.ResetMeetsTheMachineInvariant : Prop := MachineInv State.reset
end

