-- ==== Sys2Proof/Laws/Fields.lean ====
section
/-! SUPPORT. The laws of bit fields and of reading one. -/

namespace Sys2Proof

@[simp] theorem fieldBits_length (n v : Nat) : (fieldBits n v).length = n := by
  induction n with
  | zero => rfl
  | succ n ih => simp [fieldBits, ih]

/-- Bit `j` of a field in stream order is bit `n-1-j` of its value (20_memory.md R66). -/
theorem fieldBits_getElem (n v j : Nat) (h : j < (fieldBits n v).length) :
    (fieldBits n v)[j] = v.testBit (n - 1 - j) := by
  induction n generalizing j with
  | zero => simp [fieldBits] at h
  | succ n ih =>
    cases j with
    | zero => simp [fieldBits]
    | succ j =>
      simp only [fieldBits, List.getElem_cons_succ]
      rw [ih j (by simpa [fieldBits] using h)]
      congr 1
      omega

/-- The value of bits after a prefix whose value is `v`. -/
theorem foldl_bits (bits : List Bool) (v : Nat) :
    bits.foldl (fun v b => 2 * v + b.toNat) v = v * 2 ^ bits.length + bitsVal bits := by
  induction bits generalizing v with
  | nil => simp [bitsVal]
  | cons b bits ih =>
    have hb : bitsVal (b :: bits) = (2 * 0 + b.toNat) * 2 ^ bits.length + bitsVal bits := ih _
    rw [List.foldl_cons, ih, hb, List.length_cons, pow_succ]
    ring

theorem bitsVal_cons (b : Bool) (bits : List Bool) :
    bitsVal (b :: bits) = b.toNat * 2 ^ bits.length + bitsVal bits := by
  rw [bitsVal, List.foldl_cons, foldl_bits]
  simp

/-- The value of `n` bits is below `2^n`. -/
theorem bitsVal_lt (bits : List Bool) : bitsVal bits < 2 ^ bits.length := by
  induction bits with
  | nil => simp [bitsVal]
  | cons b bits ih =>
    rw [bitsVal_cons, List.length_cons, pow_succ]
    cases b <;> simp <;> omega

/-- Reading the field that holds `v` gives `v`, when `v` fits. -/
theorem bitsVal_fieldBits {n v : Nat} (h : fits v n) : bitsVal (fieldBits n v) = v := by
  have key : ∀ n, bitsVal (fieldBits n v) = v % 2 ^ n := by
    intro n
    induction n with
    | zero => simp [fieldBits, bitsVal, Nat.mod_one]
    | succ n ih =>
      rw [fieldBits, bitsVal_cons, fieldBits_length, ih, Nat.mod_pow_succ, Nat.testBit_eq_decide_div_mod_eq]
      rcases Nat.mod_two_eq_zero_or_one (v / 2 ^ n) with h | h <;> simp [h]
      omega
  rw [key, Nat.mod_eq_of_lt h]

/-- Writing the value that was read gives the bits back. -/
theorem fieldBits_bitsVal (bits : List Bool) : fieldBits bits.length (bitsVal bits) = bits := by
  induction bits with
  | nil => rfl
  | cons b bits ih =>
    have hlt := bitsVal_lt bits
    have high : ∀ (n v : Nat) (b : Bool), fieldBits n (b.toNat * 2 ^ n + v) = fieldBits n v := by
      intro n v b
      have aux : ∀ m ≤ n, fieldBits m (b.toNat * 2 ^ n + v) = fieldBits m v := by
        intro m
        induction m with
        | zero => intro _; rfl
        | succ m ihm =>
          intro hm
          simp only [fieldBits, ihm (by omega), List.cons.injEq, and_true]
          cases b
          · simp
          · rw [Bool.toNat_true, one_mul, Nat.testBit_two_pow_add_gt (by omega)]
      exact aux n le_rfl
    rw [List.length_cons, fieldBits, bitsVal_cons, high, ih]
    congr 1
    cases b
    · simpa using Nat.testBit_lt_two_pow hlt
    · simp [Nat.testBit_two_pow_add_eq, Nat.testBit_lt_two_pow hlt]

variable {β : Type}

/-- Reading a field off the word that starts with it. -/
theorem readField_fieldBits {n v offset : Nat} (rest : List Bool)
    (k : Nat → List Bool → Except Reject β) (h : fits v n) :
    readField n offset (fieldBits n v ++ rest) k = k v rest := by
  simp [readField, bitsVal_fieldBits h]

/-- All that reading a field can do: reject where it starts, or go on with `n` bits and their value. -/
theorem readField_cases {n offset : Nat} {bits : List Bool} {k : Nat → List Bool → Except Reject β}
    {r : Except Reject β} (h : readField n offset bits k = r) :
    (bits.length < n ∧ r = .error (.endsInField offset)) ∨
    ∃ front rest, front.length = n ∧ bits = front ++ rest ∧ r = k (bitsVal front) rest := by
  unfold readField at h
  split at h
  · next hlt => exact .inl ⟨hlt, h.symm⟩
  · next hge =>
    exact .inr ⟨bits.take n, bits.drop n, by simp; omega, (List.take_append_drop n bits).symm, h.symm⟩

/-- The command of a code is the one whose word is that code (30_encoding.md R91, R92). -/
theorem fields_commandOf (ib : Nat) (code : BitVec 4) :
    (commandOf code).fields ib = [⟨code.toNat, 4⟩] := by
  have h : ∀ code : BitVec 4, (commandOf code).fields 0 = [⟨code.toNat, 4⟩] := by decide
  have hib : (commandOf code).fields ib = (commandOf code).fields 0 := by
    unfold commandOf
    split <;> rfl
  rw [hib, h]

end Sys2Proof
end

