-- ==== Sys2Proof/Laws/Memory.lean ====
section
/-! SUPPORT. The laws of memory: read after write, and that every operation keeps the canonical form. -/

namespace Sys2Proof.Machine

variable {α : Type}

/-- A read after a write to the same address gives the value written. -/
@[simp] theorem read_write_same (m : Memory α) (k : Nat) (v : α) :
    (m.write k v).read? k = some v := by
  induction m with
  | nil => simp [Memory.write, Memory.read?]
  | cons c m ih =>
    obtain ⟨k', v'⟩ := c
    by_cases hlt : k < k'
    · simp [Memory.write, Memory.read?, hlt]
    · by_cases heq : k = k'
      · simp [Memory.write, Memory.read?, heq]
      · simp [Memory.write, Memory.read?, hlt, heq, ih]

/-- A write leaves every other address alone. -/
theorem read_write_other (m : Memory α) {k j : Nat} (v : α) (h : j ≠ k) :
    (m.write k v).read? j = m.read? j := by
  induction m with
  | nil => simp [Memory.write, Memory.read?, h]
  | cons c m ih =>
    obtain ⟨k', v'⟩ := c
    by_cases hlt : k < k'
    · simp [Memory.write, Memory.read?, hlt, h]
    · by_cases heq : k = k'
      · subst heq; simp [Memory.write, Memory.read?, h]
      · by_cases hj : j = k' <;> simp [Memory.write, Memory.read?, hlt, heq, hj, ih]

/-- What a memory lists after a write: the new pair, or what it listed. -/
theorem mem_write {m : Memory α} {k : Nat} {v : α} {c : Nat × α} (h : c ∈ m.write k v) :
    c = (k, v) ∨ c ∈ m := by
  induction m with
  | nil => simpa [Memory.write] using h
  | cons d m ih =>
    obtain ⟨k', v'⟩ := d
    by_cases hlt : k < k'
    · simpa [Memory.write, hlt] using h
    · by_cases heq : k = k'
      · simp only [Memory.write, heq, lt_irrefl, if_false, if_true, List.mem_cons] at h ⊢
        exact h.imp_right .inr
      · simp only [Memory.write, hlt, heq, if_false, List.mem_cons] at h ⊢
        rcases h with h | h
        · exact .inr (.inl h)
        · exact (ih h).imp_right .inr

/-- A write keeps the canonical form. -/
theorem write_wf {m : Memory α} (k : Nat) (v : α) (h : m.wf) : (m.write k v).wf := by
  induction m with
  | nil => simp [Memory.write, Memory.wf]
  | cons d m ih =>
    obtain ⟨k', v'⟩ := d
    have hd : ∀ c ∈ m, k' < c.1 := (List.pairwise_cons.mp h).1
    have hm : Memory.wf m := (List.pairwise_cons.mp h).2
    by_cases hlt : k < k'
    · simp only [Memory.write, hlt, if_true]
      refine List.pairwise_cons.mpr ⟨fun c hc => ?_, h⟩
      rcases List.mem_cons.mp hc with rfl | hc
      · exact hlt
      · exact hlt.trans (hd c hc)
    · by_cases heq : k = k'
      · subst heq
        simp only [Memory.write, lt_irrefl, if_false, if_true]
        exact List.pairwise_cons.mpr ⟨hd, hm⟩
      · simp only [Memory.write, hlt, heq, if_false]
        refine List.pairwise_cons.mpr ⟨fun c hc => ?_, ih hm⟩
        rcases mem_write hc with rfl | hc
        · show k' < k
          omega
        · exact hd c hc

/-- A list of writes keeps the canonical form. -/
theorem writeList_wf {m : Memory α} (k : Nat) (vs : List α) (h : m.wf) : (m.writeList k vs).wf := by
  induction vs generalizing m k with
  | nil => exact h
  | cons v vs ih => exact ih (k + 1) (write_wf k v h)

/-- What a memory lists after a list of writes. -/
theorem mem_writeList {m : Memory α} {k : Nat} {vs : List α} {c : Nat × α}
    (h : c ∈ m.writeList k vs) : k ≤ c.1 ∧ c.1 < k + vs.length ∨ c ∈ m := by
  induction vs generalizing m k with
  | nil => exact .inr h
  | cons v vs ih =>
    rcases ih (m := m.write k v) h with ⟨h1, h2⟩ | h
    · exact .inl ⟨by omega, by simpa using by omega⟩
    · rcases mem_write h with rfl | h
      · exact .inl ⟨le_rfl, by simp⟩
      · exact .inr h

/-- A list of writes leaves the addresses outside it alone. -/
theorem read_writeList_outside {m : Memory α} {k j : Nat} (vs : List α)
    (h : j < k ∨ k + vs.length ≤ j) : (m.writeList k vs).read? j = m.read? j := by
  induction vs generalizing m k with
  | nil => rfl
  | cons v vs ih =>
    simp only [List.length_cons] at h
    rw [Memory.writeList, ih (by omega), read_write_other m v (by omega)]

/-- A read after a list of writes gives the value written there. -/
theorem read_writeList_inside {m : Memory α} {k i : Nat} (vs : List α) (h : i < vs.length) :
    (m.writeList k vs).read? (k + i) = some vs[i] := by
  induction vs generalizing m k i with
  | nil => simp at h
  | cons v vs ih =>
    cases i with
    | zero =>
      rw [Memory.writeList, Nat.add_zero, read_writeList_outside vs (by omega)]
      simp
    | succ i =>
      have := ih (m := m.write k v) (k := k + 1) (i := i) (by simpa using h)
      rw [Memory.writeList, show k + (i + 1) = k + 1 + i by omega, this]
      simp

/-! ### The bit buffer -/

/-- A list of bits written is what is read there. -/
theorem bitRead_bitWriteList_inside (s : State) {k i : Nat} (bits : List Bool)
    (h : i < bits.length) : bitRead (bitWriteList s k bits) (k + i) = bits[i] := by
  simp [bitRead, bitWriteList, read_writeList_inside bits h]

/-- A list of bits written leaves every other bit alone. -/
theorem bitRead_bitWriteList_outside (s : State) {k j : Nat} (bits : List Bool)
    (h : j < k ∨ k + bits.length ≤ j) : bitRead (bitWriteList s k bits) j = bitRead s j := by
  simp [bitRead, bitWriteList, read_writeList_outside bits h]

/-- What is read depends on the bit buffer alone. -/
theorem bitRead_congr {s t : State} (h : t.bit = s.bit) (k : Nat) : bitRead t k = bitRead s k := by
  simp [bitRead, h]

@[simp] theorem bitsAt_length (s : State) (k n : Nat) : (bitsAt s k n).length = n := by
  simp [bitsAt]

/-- The bits read back where a list of bits was written are that list. -/
theorem bitsAt_bitWriteList (s : State) (k : Nat) (bits : List Bool) :
    bitsAt (bitWriteList s k bits) k bits.length = bits := by
  refine List.ext_getElem (by simp) fun i h1 h2 => ?_
  simp [bitsAt, bitRead_bitWriteList_inside s bits h2]

/-! ### The PixelBuffer -/

/-- `PixSet` answers exactly for a pixel of the buffer, and changes its cell only. -/
theorem pixSet_eq_some {s t : State} {x y : Nat} {c : Color} (h : pixSet s x y c = some t) :
    s.pix.has x y ∧ t = { s with pix := { s.pix with
      cells := s.pix.cells.write (y * s.pix.w.toNat + x) c } } := by
  unfold pixSet at h
  split at h
  · next hxy => exact ⟨hxy, by simpa using h.symm⟩
  · simp at h

/-- `PixGet` and `PixSet` answer for every pixel of the buffer (20_memory.md R61). -/
theorem pixGet_of_has {s : State} {x y : Nat} (h : s.pix.has x y) :
    pixGet s x y = some (s.pix.cell (y * s.pix.w.toNat + x)) := by simp [pixGet, h]

theorem pixSet_of_has {s : State} {x y : Nat} (c : Color) (h : s.pix.has x y) :
    pixSet s x y c = some { s with pix := { s.pix with
      cells := s.pix.cells.write (y * s.pix.w.toNat + x) c } } := by simp [pixSet, h]

/-- Two pixels of a buffer share a cell only if they are the same pixel. -/
theorem cell_index_inj {w x y x' y' : Nat} (hx : x < w) (hx' : x' < w)
    (h : y * w + x = y' * w + x') : x = x' ∧ y = y' := by
  have hxx : x = x' := by
    have := congrArg (· % w) h
    simpa [Nat.add_comm _ x, Nat.add_comm _ x', Nat.mul_comm _ w, Nat.add_mul_mod_self_left,
      Nat.mod_eq_of_lt hx, Nat.mod_eq_of_lt hx'] using this
  subst hxx
  have hw : 0 < w := by omega
  exact ⟨rfl, Nat.eq_of_mul_eq_mul_right hw (by omega)⟩

/-- A pixel of the buffer has its cell below `PW * PH`. -/
theorem cell_index_lt {p : PixelBuffer} {x y : Nat} (h : p.has x y) :
    y * p.w.toNat + x < p.size := by
  obtain ⟨hx, hy⟩ := h
  calc y * p.w.toNat + x < y * p.w.toNat + p.w.toNat := by omega
    _ = (y + 1) * p.w.toNat := by ring
    _ ≤ p.h.toNat * p.w.toNat := Nat.mul_le_mul_right _ hy
    _ = p.size := by simp [PixelBuffer.size, Nat.mul_comm]

/-- `PixAt(i)` is cell `i` for every index of the buffer (20_memory.md R62). -/
theorem pixAt_of_lt {s : State} {i : Nat} (h : i < s.pix.size) :
    pixAt s i = some (s.pix.cell i) := by
  have hw : 0 < s.pix.w.toNat := by
    rcases Nat.eq_zero_or_pos s.pix.w.toNat with h0 | h0
    · simp [PixelBuffer.size, h0] at h
    · exact h0
  have hx : i % s.pix.w.toNat < s.pix.w.toNat := Nat.mod_lt _ hw
  have hy : i / s.pix.w.toNat < s.pix.h.toNat := Nat.div_lt_of_lt_mul h
  have hi : i / s.pix.w.toNat * s.pix.w.toNat + i % s.pix.w.toNat = i := Nat.div_add_mod' _ _
  simp [pixAt, pixGet, hx, hy, hi]

end Sys2Proof.Machine
end

