-- ==== Sys2Proof/Laws/Groups.lean ====
section
/-! SUPPORT. The laws of the group store. -/

namespace Sys2Proof.Machine

/-- There is no group of colour `c` exactly when its number is the number of groups. -/
theorem groupNumber_eq_length {grp : List ColorGroup} {c : Color} :
    groupNumber grp c = grp.length ↔ ∀ g ∈ grp, g.color ≠ c := by
  simp [groupNumber, List.findIdx_eq_length]

/-- All that `Append` can do (10_state.md R41). -/
theorem append_cases {cap : Caps} {grp : List ColorGroup} {c : Color} {e : Entry}
    {r : Except Nat (List ColorGroup)} (h : append cap grp c e = r) :
    (r = .error 1 ∧ (∀ g ∈ grp, g.color ≠ c) ∧ full cap.maxCol grp.length) ∨
    (r = .error 2 ∧ full cap.maxEnt (totalEntries grp)) ∨
    (r = .ok (appendEntry grp c e) ∧ ¬ full cap.maxEnt (totalEntries grp) ∧
      ((∀ g ∈ grp, g.color ≠ c) → ¬ full cap.maxCol grp.length)) := by
  unfold append at h
  split at h
  · next hc => exact .inl ⟨h.symm, groupNumber_eq_length.mp hc.1, hc.2⟩
  · next hc =>
    split at h
    · next he => exact .inr (.inl ⟨h.symm, he⟩)
    · next he =>
      exact .inr (.inr ⟨h.symm, he, fun hn hf => hc ⟨groupNumber_eq_length.mpr hn, hf⟩⟩)

/-- Appending keeps the colours, and adds a new one at the end. -/
theorem appendEntry_colours (grp : List ColorGroup) (c : Color) (e : Entry) :
    (appendEntry grp c e).map (fun g => g.color) =
      if ∀ g ∈ grp, g.color ≠ c then grp.map (fun g => g.color) ++ [c]
      else grp.map fun g => g.color := by
  induction grp with
  | nil => simp [appendEntry]
  | cons g gs ih =>
    by_cases hg : g.color = c
    · simp [appendEntry, hg]
    · simp only [appendEntry, hg, if_false, List.map_cons, ih, List.forall_mem_cons, ne_eq,
        not_false_eq_true, true_and]
      split <;> simp

/-- Appending keeps the colours pairwise different (10_state.md R39). -/
theorem appendEntry_nodup {grp : List ColorGroup} (c : Color) (e : Entry)
    (h : (grp.map fun g => g.color).Nodup) : ((appendEntry grp c e).map fun g => g.color).Nodup := by
  rw [appendEntry_colours]
  split
  · next hn =>
    rw [List.nodup_append]
    refine ⟨h, List.nodup_singleton c, fun a ha b hb => ?_⟩
    obtain ⟨g, hg, rfl⟩ := List.mem_map.mp ha
    rw [List.mem_singleton.mp hb]
    exact hn g hg
  · exact h

/-- Appending leaves no group without an entry (10_state.md R39). -/
theorem appendEntry_nonempty {grp : List ColorGroup} (c : Color) (e : Entry)
    (h : ∀ g ∈ grp, g.entries ≠ []) : ∀ g ∈ appendEntry grp c e, g.entries ≠ [] := by
  induction grp with
  | nil => simp [appendEntry]
  | cons g gs ih =>
    intro g' hg'
    by_cases hc : g.color = c
    · simp only [appendEntry, hc, if_true, List.mem_cons] at hg'
      rcases hg' with rfl | hg'
      · simp
      · exact h g' (by simp [hg'])
    · simp only [appendEntry, hc, if_false, List.mem_cons] at hg'
      rcases hg' with rfl | hg'
      · exact h _ (by simp)
      · exact ih (fun x hx => h x (by simp [hx])) g' hg'

/-- The number of groups grows by one exactly for a new colour. -/
theorem appendEntry_length (grp : List ColorGroup) (c : Color) (e : Entry) :
    (appendEntry grp c e).length =
      if ∀ g ∈ grp, g.color ≠ c then grp.length + 1 else grp.length := by
  have h := congrArg List.length (appendEntry_colours grp c e)
  rw [List.length_map] at h
  rw [h]
  split <;> simp

/-- One entry more in all. -/
theorem appendEntry_total (grp : List ColorGroup) (c : Color) (e : Entry) :
    totalEntries (appendEntry grp c e) = totalEntries grp + 1 := by
  induction grp with
  | nil => simp [appendEntry, totalEntries]
  | cons g gs ih =>
    by_cases hc : g.color = c
    · simp [appendEntry, hc, totalEntries]
      omega
    · simp only [totalEntries, List.map_cons, List.sum_cons, appendEntry, hc, if_false] at ih ⊢
      omega

/-- What the group store keeps: 10_state.md R39, and the capacities of R41. -/
structure StoreOk (cap : Caps) (grp : List ColorGroup) : Prop where
  colours : (grp.map fun g => g.color).Nodup
  entries : ∀ g ∈ grp, g.entries ≠ []
  colourCap : ∀ m ∈ cap.maxCol, grp.length ≤ m
  entryCap : ∀ m ∈ cap.maxEnt, totalEntries grp ≤ m

theorem storeOk_nil (cap : Caps) : StoreOk cap [] :=
  ⟨by simp, by simp, by simp, by simp [totalEntries]⟩

/-- `Append` keeps it. -/
theorem append_storeOk {cap : Caps} {grp grp' : List ColorGroup} {c : Color} {e : Entry}
    (h : StoreOk cap grp) (ha : append cap grp c e = .ok grp') : StoreOk cap grp' := by
  rcases append_cases ha with ⟨hr, -⟩ | ⟨hr, -⟩ | ⟨hr, he, hc⟩
  · cases hr
  · cases hr
  · injection hr with hr
    subst hr
    refine ⟨appendEntry_nodup c e h.colours, appendEntry_nonempty c e h.entries, fun m hm => ?_,
      fun m hm => ?_⟩
    · rw [appendEntry_length]
      split
      · next hn =>
        have : ¬ m ≤ grp.length := fun hle => hc hn ⟨m, hm, hle⟩
        omega
      · exact h.colourCap m hm
    · rw [appendEntry_total]
      have : ¬ m ≤ totalEntries grp := fun hle => he ⟨m, hm, hle⟩
      omega

/-- A group store that holds no defined value still keeps it. -/
theorem buildGroups_storeOk (cap : Caps) (items : List (Color × Entry)) :
    StoreOk cap (buildGroups cap items) := by
  have key : ∀ (items : List (Color × Entry)) (grp : List ColorGroup), StoreOk cap grp →
      StoreOk cap (items.foldl (fun grp ce =>
        match append cap grp ce.1 (truncEntry ce.2) with
        | .ok grp' => grp'
        | .error _ => grp) grp) := by
    intro items
    induction items with
    | nil => exact fun _ h => h
    | cons ce items ih =>
      intro grp h
      refine ih _ ?_
      show StoreOk cap (match append cap grp ce.1 (truncEntry ce.2) with
        | .ok grp' => grp'
        | .error _ => grp)
      split
      · next ha => exact append_storeOk h ha
      · exact h
  exact key items [] (storeOk_nil cap)

end Sys2Proof.Machine
end

