-- ==== Sys2Proof/Laws/State.lean ====
section
/-! SUPPORT. What each update of the state does to each field, one lemma per field, true by `rfl`. -/

namespace Sys2Proof.Machine

/-! ### `setX` -/

@[simp] theorem setX_status (s : State) (x : Nat) : (setX s x).status = s.status := rfl
@[simp] theorem setX_err (s : State) (x : Nat) : (setX s x).err = s.err := rfl
@[simp] theorem setX_errinfo (s : State) (x : Nat) : (setX s x).errinfo = s.errinfo := rfl
@[simp] theorem setX_levels (s : State) (x : Nat) : (setX s x).levels = s.levels := rfl
@[simp] theorem setX_imgW (s : State) (x : Nat) : (setX s x).imgW = s.imgW := rfl
@[simp] theorem setX_imgH (s : State) (x : Nat) : (setX s x).imgH = s.imgH := rfl
@[simp] theorem setX_imgBg (s : State) (x : Nat) : (setX s x).imgBg = s.imgBg := rfl
@[simp] theorem setX_indexbits (s : State) (x : Nat) : (setX s x).indexbits = s.indexbits := rfl
@[simp] theorem setX_gsel (s : State) (x : Nat) : (setX s x).gsel = s.gsel := rfl
@[simp] theorem setX_esel (s : State) (x : Nat) : (setX s x).esel = s.esel := rfl
@[simp] theorem setX_bitlen (s : State) (x : Nat) : (setX s x).bitlen = s.bitlen := rfl
@[simp] theorem setX_bitcur (s : State) (x : Nat) : (setX s x).bitcur = s.bitcur := rfl
@[simp] theorem setX_grp (s : State) (x : Nat) : (setX s x).grp = s.grp := rfl
@[simp] theorem setX_bit (s : State) (x : Nat) : (setX s x).bit = s.bit := rfl
@[simp] theorem setX_pix (s : State) (x : Nat) : (setX s x).pix = s.pix := rfl
@[simp] theorem setX_cur (s : State) (x : Nat) : (setX s x).cur = { s.cur with x := x } := rfl
@[simp] theorem setX_cap (s : State) (x : Nat) : (setX s x).cap = s.cap := rfl
@[simp] theorem setX_host (s : State) (x : Nat) : (setX s x).host = s.host := rfl
@[simp] theorem setX_reads (s : State) (x : Nat) : (setX s x).reads = s.reads := rfl
@[simp] theorem setX_free (s : State) (x : Nat) : (setX s x).free = s.free := rfl

/-! ### `setY` -/

@[simp] theorem setY_status (s : State) (y : Nat) : (setY s y).status = s.status := rfl
@[simp] theorem setY_err (s : State) (y : Nat) : (setY s y).err = s.err := rfl
@[simp] theorem setY_errinfo (s : State) (y : Nat) : (setY s y).errinfo = s.errinfo := rfl
@[simp] theorem setY_levels (s : State) (y : Nat) : (setY s y).levels = s.levels := rfl
@[simp] theorem setY_imgW (s : State) (y : Nat) : (setY s y).imgW = s.imgW := rfl
@[simp] theorem setY_imgH (s : State) (y : Nat) : (setY s y).imgH = s.imgH := rfl
@[simp] theorem setY_imgBg (s : State) (y : Nat) : (setY s y).imgBg = s.imgBg := rfl
@[simp] theorem setY_indexbits (s : State) (y : Nat) : (setY s y).indexbits = s.indexbits := rfl
@[simp] theorem setY_gsel (s : State) (y : Nat) : (setY s y).gsel = s.gsel := rfl
@[simp] theorem setY_esel (s : State) (y : Nat) : (setY s y).esel = s.esel := rfl
@[simp] theorem setY_bitlen (s : State) (y : Nat) : (setY s y).bitlen = s.bitlen := rfl
@[simp] theorem setY_bitcur (s : State) (y : Nat) : (setY s y).bitcur = s.bitcur := rfl
@[simp] theorem setY_grp (s : State) (y : Nat) : (setY s y).grp = s.grp := rfl
@[simp] theorem setY_bit (s : State) (y : Nat) : (setY s y).bit = s.bit := rfl
@[simp] theorem setY_pix (s : State) (y : Nat) : (setY s y).pix = s.pix := rfl
@[simp] theorem setY_cur (s : State) (y : Nat) : (setY s y).cur = { s.cur with y := y } := rfl
@[simp] theorem setY_cap (s : State) (y : Nat) : (setY s y).cap = s.cap := rfl
@[simp] theorem setY_host (s : State) (y : Nat) : (setY s y).host = s.host := rfl
@[simp] theorem setY_reads (s : State) (y : Nat) : (setY s y).reads = s.reads := rfl
@[simp] theorem setY_free (s : State) (y : Nat) : (setY s y).free = s.free := rfl

/-! ### `latchSize` -/

@[simp] theorem latchSize_status (s : State) : (latchSize s).status = s.status := rfl
@[simp] theorem latchSize_err (s : State) : (latchSize s).err = s.err := rfl
@[simp] theorem latchSize_errinfo (s : State) : (latchSize s).errinfo = s.errinfo := rfl
@[simp] theorem latchSize_levels (s : State) : (latchSize s).levels = s.levels := rfl
@[simp] theorem latchSize_imgW (s : State) : (latchSize s).imgW = s.imgW := rfl
@[simp] theorem latchSize_imgH (s : State) : (latchSize s).imgH = s.imgH := rfl
@[simp] theorem latchSize_imgBg (s : State) : (latchSize s).imgBg = s.imgBg := rfl
@[simp] theorem latchSize_indexbits (s : State) : (latchSize s).indexbits = s.indexbits := rfl
@[simp] theorem latchSize_gsel (s : State) : (latchSize s).gsel = s.gsel := rfl
@[simp] theorem latchSize_esel (s : State) : (latchSize s).esel = s.esel := rfl
@[simp] theorem latchSize_bitlen (s : State) : (latchSize s).bitlen = s.bitlen := rfl
@[simp] theorem latchSize_bitcur (s : State) : (latchSize s).bitcur = s.bitcur := rfl
@[simp] theorem latchSize_grp (s : State) : (latchSize s).grp = s.grp := rfl
@[simp] theorem latchSize_bit (s : State) : (latchSize s).bit = s.bit := rfl
@[simp] theorem latchSize_pix (s : State) : (latchSize s).pix = s.pix := rfl
@[simp] theorem latchSize_cur (s : State) :
    (latchSize s).cur = { s.cur with fw := s.pix.w.toNat, fh := s.pix.h.toNat } := rfl
@[simp] theorem latchSize_cap (s : State) : (latchSize s).cap = s.cap := rfl
@[simp] theorem latchSize_host (s : State) : (latchSize s).host = s.host := rfl
@[simp] theorem latchSize_reads (s : State) : (latchSize s).reads = s.reads := rfl
@[simp] theorem latchSize_free (s : State) : (latchSize s).free = s.free := rfl

/-! ### `setI` -/

@[simp] theorem setI_status (s : State) (i : Nat) : (setI s i).status = s.status := rfl
@[simp] theorem setI_err (s : State) (i : Nat) : (setI s i).err = s.err := rfl
@[simp] theorem setI_errinfo (s : State) (i : Nat) : (setI s i).errinfo = s.errinfo := rfl
@[simp] theorem setI_levels (s : State) (i : Nat) : (setI s i).levels = s.levels := rfl
@[simp] theorem setI_imgW (s : State) (i : Nat) : (setI s i).imgW = s.imgW := rfl
@[simp] theorem setI_imgH (s : State) (i : Nat) : (setI s i).imgH = s.imgH := rfl
@[simp] theorem setI_imgBg (s : State) (i : Nat) : (setI s i).imgBg = s.imgBg := rfl
@[simp] theorem setI_indexbits (s : State) (i : Nat) : (setI s i).indexbits = s.indexbits := rfl
@[simp] theorem setI_gsel (s : State) (i : Nat) : (setI s i).gsel = s.gsel := rfl
@[simp] theorem setI_esel (s : State) (i : Nat) : (setI s i).esel = s.esel := rfl
@[simp] theorem setI_bitlen (s : State) (i : Nat) : (setI s i).bitlen = s.bitlen := rfl
@[simp] theorem setI_bitcur (s : State) (i : Nat) : (setI s i).bitcur = s.bitcur := rfl
@[simp] theorem setI_grp (s : State) (i : Nat) : (setI s i).grp = s.grp := rfl
@[simp] theorem setI_bit (s : State) (i : Nat) : (setI s i).bit = s.bit := rfl
@[simp] theorem setI_pix (s : State) (i : Nat) : (setI s i).pix = s.pix := rfl
@[simp] theorem setI_cur (s : State) (i : Nat) : (setI s i).cur = { s.cur with i := i } := rfl
@[simp] theorem setI_cap (s : State) (i : Nat) : (setI s i).cap = s.cap := rfl
@[simp] theorem setI_host (s : State) (i : Nat) : (setI s i).host = s.host := rfl
@[simp] theorem setI_reads (s : State) (i : Nat) : (setI s i).reads = s.reads := rfl
@[simp] theorem setI_free (s : State) (i : Nat) : (setI s i).free = s.free := rfl

/-! ### `setJ` -/

@[simp] theorem setJ_status (s : State) (j : Nat) : (setJ s j).status = s.status := rfl
@[simp] theorem setJ_err (s : State) (j : Nat) : (setJ s j).err = s.err := rfl
@[simp] theorem setJ_errinfo (s : State) (j : Nat) : (setJ s j).errinfo = s.errinfo := rfl
@[simp] theorem setJ_levels (s : State) (j : Nat) : (setJ s j).levels = s.levels := rfl
@[simp] theorem setJ_imgW (s : State) (j : Nat) : (setJ s j).imgW = s.imgW := rfl
@[simp] theorem setJ_imgH (s : State) (j : Nat) : (setJ s j).imgH = s.imgH := rfl
@[simp] theorem setJ_imgBg (s : State) (j : Nat) : (setJ s j).imgBg = s.imgBg := rfl
@[simp] theorem setJ_indexbits (s : State) (j : Nat) : (setJ s j).indexbits = s.indexbits := rfl
@[simp] theorem setJ_gsel (s : State) (j : Nat) : (setJ s j).gsel = s.gsel := rfl
@[simp] theorem setJ_esel (s : State) (j : Nat) : (setJ s j).esel = s.esel := rfl
@[simp] theorem setJ_bitlen (s : State) (j : Nat) : (setJ s j).bitlen = s.bitlen := rfl
@[simp] theorem setJ_bitcur (s : State) (j : Nat) : (setJ s j).bitcur = s.bitcur := rfl
@[simp] theorem setJ_grp (s : State) (j : Nat) : (setJ s j).grp = s.grp := rfl
@[simp] theorem setJ_bit (s : State) (j : Nat) : (setJ s j).bit = s.bit := rfl
@[simp] theorem setJ_pix (s : State) (j : Nat) : (setJ s j).pix = s.pix := rfl
@[simp] theorem setJ_cur (s : State) (j : Nat) : (setJ s j).cur = { s.cur with j := j } := rfl
@[simp] theorem setJ_cap (s : State) (j : Nat) : (setJ s j).cap = s.cap := rfl
@[simp] theorem setJ_host (s : State) (j : Nat) : (setJ s j).host = s.host := rfl
@[simp] theorem setJ_reads (s : State) (j : Nat) : (setJ s j).reads = s.reads := rfl
@[simp] theorem setJ_free (s : State) (j : Nat) : (setJ s j).free = s.free := rfl

/-! ### `setG` -/

@[simp] theorem setG_status (s : State) (g : Nat) : (setG s g).status = s.status := rfl
@[simp] theorem setG_err (s : State) (g : Nat) : (setG s g).err = s.err := rfl
@[simp] theorem setG_errinfo (s : State) (g : Nat) : (setG s g).errinfo = s.errinfo := rfl
@[simp] theorem setG_levels (s : State) (g : Nat) : (setG s g).levels = s.levels := rfl
@[simp] theorem setG_imgW (s : State) (g : Nat) : (setG s g).imgW = s.imgW := rfl
@[simp] theorem setG_imgH (s : State) (g : Nat) : (setG s g).imgH = s.imgH := rfl
@[simp] theorem setG_imgBg (s : State) (g : Nat) : (setG s g).imgBg = s.imgBg := rfl
@[simp] theorem setG_indexbits (s : State) (g : Nat) : (setG s g).indexbits = s.indexbits := rfl
@[simp] theorem setG_gsel (s : State) (g : Nat) : (setG s g).gsel = s.gsel := rfl
@[simp] theorem setG_esel (s : State) (g : Nat) : (setG s g).esel = s.esel := rfl
@[simp] theorem setG_bitlen (s : State) (g : Nat) : (setG s g).bitlen = s.bitlen := rfl
@[simp] theorem setG_bitcur (s : State) (g : Nat) : (setG s g).bitcur = s.bitcur := rfl
@[simp] theorem setG_grp (s : State) (g : Nat) : (setG s g).grp = s.grp := rfl
@[simp] theorem setG_bit (s : State) (g : Nat) : (setG s g).bit = s.bit := rfl
@[simp] theorem setG_pix (s : State) (g : Nat) : (setG s g).pix = s.pix := rfl
@[simp] theorem setG_cur (s : State) (g : Nat) : (setG s g).cur = { s.cur with g := g } := rfl
@[simp] theorem setG_cap (s : State) (g : Nat) : (setG s g).cap = s.cap := rfl
@[simp] theorem setG_host (s : State) (g : Nat) : (setG s g).host = s.host := rfl
@[simp] theorem setG_reads (s : State) (g : Nat) : (setG s g).reads = s.reads := rfl
@[simp] theorem setG_free (s : State) (g : Nat) : (setG s g).free = s.free := rfl

/-! ### `setE` -/

@[simp] theorem setE_status (s : State) (e : Nat) : (setE s e).status = s.status := rfl
@[simp] theorem setE_err (s : State) (e : Nat) : (setE s e).err = s.err := rfl
@[simp] theorem setE_errinfo (s : State) (e : Nat) : (setE s e).errinfo = s.errinfo := rfl
@[simp] theorem setE_levels (s : State) (e : Nat) : (setE s e).levels = s.levels := rfl
@[simp] theorem setE_imgW (s : State) (e : Nat) : (setE s e).imgW = s.imgW := rfl
@[simp] theorem setE_imgH (s : State) (e : Nat) : (setE s e).imgH = s.imgH := rfl
@[simp] theorem setE_imgBg (s : State) (e : Nat) : (setE s e).imgBg = s.imgBg := rfl
@[simp] theorem setE_indexbits (s : State) (e : Nat) : (setE s e).indexbits = s.indexbits := rfl
@[simp] theorem setE_gsel (s : State) (e : Nat) : (setE s e).gsel = s.gsel := rfl
@[simp] theorem setE_esel (s : State) (e : Nat) : (setE s e).esel = s.esel := rfl
@[simp] theorem setE_bitlen (s : State) (e : Nat) : (setE s e).bitlen = s.bitlen := rfl
@[simp] theorem setE_bitcur (s : State) (e : Nat) : (setE s e).bitcur = s.bitcur := rfl
@[simp] theorem setE_grp (s : State) (e : Nat) : (setE s e).grp = s.grp := rfl
@[simp] theorem setE_bit (s : State) (e : Nat) : (setE s e).bit = s.bit := rfl
@[simp] theorem setE_pix (s : State) (e : Nat) : (setE s e).pix = s.pix := rfl
@[simp] theorem setE_cur (s : State) (e : Nat) : (setE s e).cur = { s.cur with e := e } := rfl
@[simp] theorem setE_cap (s : State) (e : Nat) : (setE s e).cap = s.cap := rfl
@[simp] theorem setE_host (s : State) (e : Nat) : (setE s e).host = s.host := rfl
@[simp] theorem setE_reads (s : State) (e : Nat) : (setE s e).reads = s.reads := rfl
@[simp] theorem setE_free (s : State) (e : Nat) : (setE s e).free = s.free := rfl

/-! ### `enter` -/

@[simp] theorem enter_status (d : DState) (s : State) : (enter d s).status = s.status := rfl
@[simp] theorem enter_err (d : DState) (s : State) : (enter d s).err = s.err := rfl
@[simp] theorem enter_errinfo (d : DState) (s : State) : (enter d s).errinfo = s.errinfo := rfl
@[simp] theorem enter_levels (d : DState) (s : State) : (enter d s).levels = s.levels := rfl
@[simp] theorem enter_imgW (d : DState) (s : State) : (enter d s).imgW = s.imgW := rfl
@[simp] theorem enter_imgH (d : DState) (s : State) : (enter d s).imgH = s.imgH := rfl
@[simp] theorem enter_imgBg (d : DState) (s : State) : (enter d s).imgBg = s.imgBg := rfl
@[simp] theorem enter_indexbits (d : DState) (s : State) :
    (enter d s).indexbits = s.indexbits := rfl
@[simp] theorem enter_gsel (d : DState) (s : State) : (enter d s).gsel = s.gsel := rfl
@[simp] theorem enter_esel (d : DState) (s : State) : (enter d s).esel = s.esel := rfl
@[simp] theorem enter_bitlen (d : DState) (s : State) : (enter d s).bitlen = s.bitlen := rfl
@[simp] theorem enter_bitcur (d : DState) (s : State) : (enter d s).bitcur = s.bitcur := rfl
@[simp] theorem enter_grp (d : DState) (s : State) : (enter d s).grp = s.grp := rfl
@[simp] theorem enter_bit (d : DState) (s : State) : (enter d s).bit = s.bit := rfl
@[simp] theorem enter_pix (d : DState) (s : State) : (enter d s).pix = s.pix := rfl
@[simp] theorem enter_cur (d : DState) (s : State) :
    (enter d s).cur = { s.cur with dstate := d } := rfl
@[simp] theorem enter_cap (d : DState) (s : State) : (enter d s).cap = s.cap := rfl
@[simp] theorem enter_host (d : DState) (s : State) : (enter d s).host = s.host := rfl
@[simp] theorem enter_reads (d : DState) (s : State) : (enter d s).reads = s.reads := rfl
@[simp] theorem enter_free (d : DState) (s : State) : (enter d s).free = s.free := rfl

/-! ### `advance` -/

@[simp] theorem advance_status (n : Nat) (s : State) : (advance n s).status = s.status := rfl
@[simp] theorem advance_err (n : Nat) (s : State) : (advance n s).err = s.err := rfl
@[simp] theorem advance_errinfo (n : Nat) (s : State) : (advance n s).errinfo = s.errinfo := rfl
@[simp] theorem advance_levels (n : Nat) (s : State) : (advance n s).levels = s.levels := rfl
@[simp] theorem advance_imgW (n : Nat) (s : State) : (advance n s).imgW = s.imgW := rfl
@[simp] theorem advance_imgH (n : Nat) (s : State) : (advance n s).imgH = s.imgH := rfl
@[simp] theorem advance_imgBg (n : Nat) (s : State) : (advance n s).imgBg = s.imgBg := rfl
@[simp] theorem advance_indexbits (n : Nat) (s : State) :
    (advance n s).indexbits = s.indexbits := rfl
@[simp] theorem advance_gsel (n : Nat) (s : State) : (advance n s).gsel = s.gsel := rfl
@[simp] theorem advance_esel (n : Nat) (s : State) : (advance n s).esel = s.esel := rfl
@[simp] theorem advance_bitlen (n : Nat) (s : State) : (advance n s).bitlen = s.bitlen := rfl
@[simp] theorem advance_bitcur (n : Nat) (s : State) : (advance n s).bitcur = s.bitcur + n := rfl
@[simp] theorem advance_grp (n : Nat) (s : State) : (advance n s).grp = s.grp := rfl
@[simp] theorem advance_bit (n : Nat) (s : State) : (advance n s).bit = s.bit := rfl
@[simp] theorem advance_pix (n : Nat) (s : State) : (advance n s).pix = s.pix := rfl
@[simp] theorem advance_cur (n : Nat) (s : State) : (advance n s).cur = s.cur := rfl
@[simp] theorem advance_cap (n : Nat) (s : State) : (advance n s).cap = s.cap := rfl
@[simp] theorem advance_host (n : Nat) (s : State) : (advance n s).host = s.host := rfl
@[simp] theorem advance_reads (n : Nat) (s : State) : (advance n s).reads = s.reads := rfl
@[simp] theorem advance_free (n : Nat) (s : State) : (advance n s).free = s.free := rfl

/-! ### `accept` -/

@[simp] theorem accept_status (s : State) : (accept s).status = s.status.accepted := rfl
@[simp] theorem accept_err (s : State) : (accept s).err = s.err := rfl
@[simp] theorem accept_errinfo (s : State) : (accept s).errinfo = s.errinfo := rfl
@[simp] theorem accept_levels (s : State) : (accept s).levels = s.levels := rfl
@[simp] theorem accept_imgW (s : State) : (accept s).imgW = s.imgW := rfl
@[simp] theorem accept_imgH (s : State) : (accept s).imgH = s.imgH := rfl
@[simp] theorem accept_imgBg (s : State) : (accept s).imgBg = s.imgBg := rfl
@[simp] theorem accept_indexbits (s : State) : (accept s).indexbits = s.indexbits := rfl
@[simp] theorem accept_gsel (s : State) : (accept s).gsel = s.gsel := rfl
@[simp] theorem accept_esel (s : State) : (accept s).esel = s.esel := rfl
@[simp] theorem accept_bitlen (s : State) : (accept s).bitlen = s.bitlen := rfl
@[simp] theorem accept_bitcur (s : State) : (accept s).bitcur = s.bitcur := rfl
@[simp] theorem accept_grp (s : State) : (accept s).grp = s.grp := rfl
@[simp] theorem accept_bit (s : State) : (accept s).bit = s.bit := rfl
@[simp] theorem accept_pix (s : State) : (accept s).pix = s.pix := rfl
@[simp] theorem accept_cur (s : State) : (accept s).cur = s.cur := rfl
@[simp] theorem accept_cap (s : State) : (accept s).cap = s.cap := rfl
@[simp] theorem accept_host (s : State) : (accept s).host = s.host := rfl
@[simp] theorem accept_reads (s : State) : (accept s).reads = s.reads := rfl
@[simp] theorem accept_free (s : State) : (accept s).free = s.free := rfl

/-! ### `complete` -/

@[simp] theorem complete_status (s : State) : (complete s).status = s.status.completed := rfl
@[simp] theorem complete_err (s : State) : (complete s).err = s.err := rfl
@[simp] theorem complete_errinfo (s : State) : (complete s).errinfo = s.errinfo := rfl
@[simp] theorem complete_levels (s : State) : (complete s).levels = s.levels := rfl
@[simp] theorem complete_imgW (s : State) : (complete s).imgW = s.imgW := rfl
@[simp] theorem complete_imgH (s : State) : (complete s).imgH = s.imgH := rfl
@[simp] theorem complete_imgBg (s : State) : (complete s).imgBg = s.imgBg := rfl
@[simp] theorem complete_indexbits (s : State) : (complete s).indexbits = s.indexbits := rfl
@[simp] theorem complete_gsel (s : State) : (complete s).gsel = s.gsel := rfl
@[simp] theorem complete_esel (s : State) : (complete s).esel = s.esel := rfl
@[simp] theorem complete_bitlen (s : State) : (complete s).bitlen = s.bitlen := rfl
@[simp] theorem complete_bitcur (s : State) : (complete s).bitcur = s.bitcur := rfl
@[simp] theorem complete_grp (s : State) : (complete s).grp = s.grp := rfl
@[simp] theorem complete_bit (s : State) : (complete s).bit = s.bit := rfl
@[simp] theorem complete_pix (s : State) : (complete s).pix = s.pix := rfl
@[simp] theorem complete_cur (s : State) : (complete s).cur = s.cur := rfl
@[simp] theorem complete_cap (s : State) : (complete s).cap = s.cap := rfl
@[simp] theorem complete_host (s : State) : (complete s).host = s.host := rfl
@[simp] theorem complete_reads (s : State) : (complete s).reads = s.reads := rfl
@[simp] theorem complete_free (s : State) : (complete s).free = s.free := rfl

/-! ### `takeError` -/

@[simp] theorem takeError_status (e : ErrorKind) (info : Nat) (s : State) :
    (takeError e info s).status = s.status.failed := rfl
@[simp] theorem takeError_err (e : ErrorKind) (info : Nat) (s : State) :
    (takeError e info s).err = e.code := rfl
@[simp] theorem takeError_errinfo (e : ErrorKind) (info : Nat) (s : State) :
    (takeError e info s).errinfo = info := rfl
@[simp] theorem takeError_levels (e : ErrorKind) (info : Nat) (s : State) :
    (takeError e info s).levels = s.levels := rfl
@[simp] theorem takeError_imgW (e : ErrorKind) (info : Nat) (s : State) :
    (takeError e info s).imgW = s.imgW := rfl
@[simp] theorem takeError_imgH (e : ErrorKind) (info : Nat) (s : State) :
    (takeError e info s).imgH = s.imgH := rfl
@[simp] theorem takeError_imgBg (e : ErrorKind) (info : Nat) (s : State) :
    (takeError e info s).imgBg = s.imgBg := rfl
@[simp] theorem takeError_indexbits (e : ErrorKind) (info : Nat) (s : State) :
    (takeError e info s).indexbits = s.indexbits := rfl
@[simp] theorem takeError_gsel (e : ErrorKind) (info : Nat) (s : State) :
    (takeError e info s).gsel = s.gsel := rfl
@[simp] theorem takeError_esel (e : ErrorKind) (info : Nat) (s : State) :
    (takeError e info s).esel = s.esel := rfl
@[simp] theorem takeError_bitlen (e : ErrorKind) (info : Nat) (s : State) :
    (takeError e info s).bitlen = s.bitlen := rfl
@[simp] theorem takeError_bitcur (e : ErrorKind) (info : Nat) (s : State) :
    (takeError e info s).bitcur = s.bitcur := rfl
@[simp] theorem takeError_grp (e : ErrorKind) (info : Nat) (s : State) :
    (takeError e info s).grp = s.grp := rfl
@[simp] theorem takeError_bit (e : ErrorKind) (info : Nat) (s : State) :
    (takeError e info s).bit = s.bit := rfl
@[simp] theorem takeError_pix (e : ErrorKind) (info : Nat) (s : State) :
    (takeError e info s).pix = s.pix := rfl
@[simp] theorem takeError_cur (e : ErrorKind) (info : Nat) (s : State) :
    (takeError e info s).cur = s.cur := rfl
@[simp] theorem takeError_cap (e : ErrorKind) (info : Nat) (s : State) :
    (takeError e info s).cap = s.cap := rfl
@[simp] theorem takeError_host (e : ErrorKind) (info : Nat) (s : State) :
    (takeError e info s).host = s.host := rfl
@[simp] theorem takeError_reads (e : ErrorKind) (info : Nat) (s : State) :
    (takeError e info s).reads = s.reads := rfl
@[simp] theorem takeError_free (e : ErrorKind) (info : Nat) (s : State) :
    (takeError e info s).free = s.free := rfl

/-! ### `bitWriteList` -/

@[simp] theorem bitWriteList_status (s : State) (k : Nat) (bits : List Bool) :
    (bitWriteList s k bits).status = s.status := rfl
@[simp] theorem bitWriteList_err (s : State) (k : Nat) (bits : List Bool) :
    (bitWriteList s k bits).err = s.err := rfl
@[simp] theorem bitWriteList_errinfo (s : State) (k : Nat) (bits : List Bool) :
    (bitWriteList s k bits).errinfo = s.errinfo := rfl
@[simp] theorem bitWriteList_levels (s : State) (k : Nat) (bits : List Bool) :
    (bitWriteList s k bits).levels = s.levels := rfl
@[simp] theorem bitWriteList_imgW (s : State) (k : Nat) (bits : List Bool) :
    (bitWriteList s k bits).imgW = s.imgW := rfl
@[simp] theorem bitWriteList_imgH (s : State) (k : Nat) (bits : List Bool) :
    (bitWriteList s k bits).imgH = s.imgH := rfl
@[simp] theorem bitWriteList_imgBg (s : State) (k : Nat) (bits : List Bool) :
    (bitWriteList s k bits).imgBg = s.imgBg := rfl
@[simp] theorem bitWriteList_indexbits (s : State) (k : Nat) (bits : List Bool) :
    (bitWriteList s k bits).indexbits = s.indexbits := rfl
@[simp] theorem bitWriteList_gsel (s : State) (k : Nat) (bits : List Bool) :
    (bitWriteList s k bits).gsel = s.gsel := rfl
@[simp] theorem bitWriteList_esel (s : State) (k : Nat) (bits : List Bool) :
    (bitWriteList s k bits).esel = s.esel := rfl
@[simp] theorem bitWriteList_bitlen (s : State) (k : Nat) (bits : List Bool) :
    (bitWriteList s k bits).bitlen = s.bitlen := rfl
@[simp] theorem bitWriteList_bitcur (s : State) (k : Nat) (bits : List Bool) :
    (bitWriteList s k bits).bitcur = s.bitcur := rfl
@[simp] theorem bitWriteList_grp (s : State) (k : Nat) (bits : List Bool) :
    (bitWriteList s k bits).grp = s.grp := rfl
@[simp] theorem bitWriteList_bit (s : State) (k : Nat) (bits : List Bool) :
    (bitWriteList s k bits).bit = { s.bit with bits := s.bit.bits.writeList k bits } := rfl
@[simp] theorem bitWriteList_pix (s : State) (k : Nat) (bits : List Bool) :
    (bitWriteList s k bits).pix = s.pix := rfl
@[simp] theorem bitWriteList_cur (s : State) (k : Nat) (bits : List Bool) :
    (bitWriteList s k bits).cur = s.cur := rfl
@[simp] theorem bitWriteList_cap (s : State) (k : Nat) (bits : List Bool) :
    (bitWriteList s k bits).cap = s.cap := rfl
@[simp] theorem bitWriteList_host (s : State) (k : Nat) (bits : List Bool) :
    (bitWriteList s k bits).host = s.host := rfl
@[simp] theorem bitWriteList_reads (s : State) (k : Nat) (bits : List Bool) :
    (bitWriteList s k bits).reads = s.reads := rfl
@[simp] theorem bitWriteList_free (s : State) (k : Nat) (bits : List Bool) :
    (bitWriteList s k bits).free = s.free := rfl

/-! ### `forgetCursors` -/

@[simp] theorem forgetCursors_status (s : State) : (forgetCursors s).status = s.status := rfl
@[simp] theorem forgetCursors_err (s : State) : (forgetCursors s).err = s.err := rfl
@[simp] theorem forgetCursors_errinfo (s : State) : (forgetCursors s).errinfo = s.errinfo := rfl
@[simp] theorem forgetCursors_levels (s : State) : (forgetCursors s).levels = s.levels := rfl
@[simp] theorem forgetCursors_imgW (s : State) : (forgetCursors s).imgW = s.imgW := rfl
@[simp] theorem forgetCursors_imgH (s : State) : (forgetCursors s).imgH = s.imgH := rfl
@[simp] theorem forgetCursors_imgBg (s : State) : (forgetCursors s).imgBg = s.imgBg := rfl
@[simp] theorem forgetCursors_indexbits (s : State) :
    (forgetCursors s).indexbits = s.indexbits := rfl
@[simp] theorem forgetCursors_gsel (s : State) : (forgetCursors s).gsel = s.gsel := rfl
@[simp] theorem forgetCursors_esel (s : State) : (forgetCursors s).esel = s.esel := rfl
@[simp] theorem forgetCursors_bitlen (s : State) : (forgetCursors s).bitlen = s.bitlen := rfl
@[simp] theorem forgetCursors_bitcur (s : State) : (forgetCursors s).bitcur = s.bitcur := rfl
@[simp] theorem forgetCursors_grp (s : State) : (forgetCursors s).grp = s.grp := rfl
@[simp] theorem forgetCursors_bit (s : State) : (forgetCursors s).bit = s.bit := rfl
@[simp] theorem forgetCursors_pix (s : State) : (forgetCursors s).pix = s.pix := rfl
@[simp] theorem forgetCursors_cur (s : State) :
    (forgetCursors s).cur = Config.freeCursors s.free := rfl
@[simp] theorem forgetCursors_cap (s : State) : (forgetCursors s).cap = s.cap := rfl
@[simp] theorem forgetCursors_host (s : State) : (forgetCursors s).host = s.host := rfl
@[simp] theorem forgetCursors_reads (s : State) : (forgetCursors s).reads = s.reads := rfl
@[simp] theorem forgetCursors_free (s : State) : (forgetCursors s).free = s.free + 1 := rfl

/-! ### `forgetGroups` -/

@[simp] theorem forgetGroups_status (s : State) : (forgetGroups s).status = s.status := rfl
@[simp] theorem forgetGroups_err (s : State) : (forgetGroups s).err = s.err := rfl
@[simp] theorem forgetGroups_errinfo (s : State) : (forgetGroups s).errinfo = s.errinfo := rfl
@[simp] theorem forgetGroups_levels (s : State) : (forgetGroups s).levels = s.levels := rfl
@[simp] theorem forgetGroups_imgW (s : State) : (forgetGroups s).imgW = s.imgW := rfl
@[simp] theorem forgetGroups_imgH (s : State) : (forgetGroups s).imgH = s.imgH := rfl
@[simp] theorem forgetGroups_imgBg (s : State) : (forgetGroups s).imgBg = s.imgBg := rfl
@[simp] theorem forgetGroups_indexbits (s : State) : (forgetGroups s).indexbits = s.indexbits := rfl
@[simp] theorem forgetGroups_gsel (s : State) : (forgetGroups s).gsel = s.gsel := rfl
@[simp] theorem forgetGroups_esel (s : State) : (forgetGroups s).esel = s.esel := rfl
@[simp] theorem forgetGroups_bitlen (s : State) : (forgetGroups s).bitlen = s.bitlen := rfl
@[simp] theorem forgetGroups_bitcur (s : State) : (forgetGroups s).bitcur = s.bitcur := rfl
@[simp] theorem forgetGroups_grp (s : State) :
    (forgetGroups s).grp = buildGroups s.cap (Config.freeEntries s.free) := rfl
@[simp] theorem forgetGroups_bit (s : State) : (forgetGroups s).bit = s.bit := rfl
@[simp] theorem forgetGroups_pix (s : State) : (forgetGroups s).pix = s.pix := rfl
@[simp] theorem forgetGroups_cur (s : State) : (forgetGroups s).cur = s.cur := rfl
@[simp] theorem forgetGroups_cap (s : State) : (forgetGroups s).cap = s.cap := rfl
@[simp] theorem forgetGroups_host (s : State) : (forgetGroups s).host = s.host := rfl
@[simp] theorem forgetGroups_reads (s : State) : (forgetGroups s).reads = s.reads := rfl
@[simp] theorem forgetGroups_free (s : State) : (forgetGroups s).free = s.free + 1 := rfl

/-! ### `forgetImage` -/

@[simp] theorem forgetImage_status (s : State) : (forgetImage s).status = s.status := rfl
@[simp] theorem forgetImage_err (s : State) : (forgetImage s).err = s.err := rfl
@[simp] theorem forgetImage_errinfo (s : State) : (forgetImage s).errinfo = s.errinfo := rfl
@[simp] theorem forgetImage_levels (s : State) : (forgetImage s).levels = s.levels := rfl
@[simp] theorem forgetImage_gsel (s : State) : (forgetImage s).gsel = s.gsel := rfl
@[simp] theorem forgetImage_esel (s : State) : (forgetImage s).esel = s.esel := rfl
@[simp] theorem forgetImage_bitlen (s : State) : (forgetImage s).bitlen = s.bitlen := rfl
@[simp] theorem forgetImage_bitcur (s : State) : (forgetImage s).bitcur = s.bitcur := rfl
@[simp] theorem forgetImage_grp (s : State) :
    (forgetImage s).grp = buildGroups s.cap (Config.freeEntries s.free) := rfl
@[simp] theorem forgetImage_bit (s : State) : (forgetImage s).bit = s.bit := rfl
@[simp] theorem forgetImage_pix (s : State) : (forgetImage s).pix = s.pix := rfl
@[simp] theorem forgetImage_cur (s : State) : (forgetImage s).cur = s.cur := rfl
@[simp] theorem forgetImage_cap (s : State) : (forgetImage s).cap = s.cap := rfl
@[simp] theorem forgetImage_host (s : State) : (forgetImage s).host = s.host := rfl
@[simp] theorem forgetImage_reads (s : State) : (forgetImage s).reads = s.reads := rfl
@[simp] theorem forgetImage_free (s : State) : (forgetImage s).free = s.free + 1 := rfl

/-! ### `forgetBitcur` -/

@[simp] theorem forgetBitcur_status (s : State) : (forgetBitcur s).status = s.status := rfl
@[simp] theorem forgetBitcur_err (s : State) : (forgetBitcur s).err = s.err := rfl
@[simp] theorem forgetBitcur_errinfo (s : State) : (forgetBitcur s).errinfo = s.errinfo := rfl
@[simp] theorem forgetBitcur_levels (s : State) : (forgetBitcur s).levels = s.levels := rfl
@[simp] theorem forgetBitcur_imgW (s : State) : (forgetBitcur s).imgW = s.imgW := rfl
@[simp] theorem forgetBitcur_imgH (s : State) : (forgetBitcur s).imgH = s.imgH := rfl
@[simp] theorem forgetBitcur_imgBg (s : State) : (forgetBitcur s).imgBg = s.imgBg := rfl
@[simp] theorem forgetBitcur_indexbits (s : State) : (forgetBitcur s).indexbits = s.indexbits := rfl
@[simp] theorem forgetBitcur_gsel (s : State) : (forgetBitcur s).gsel = s.gsel := rfl
@[simp] theorem forgetBitcur_esel (s : State) : (forgetBitcur s).esel = s.esel := rfl
@[simp] theorem forgetBitcur_bitlen (s : State) : (forgetBitcur s).bitlen = s.bitlen := rfl
@[simp] theorem forgetBitcur_grp (s : State) : (forgetBitcur s).grp = s.grp := rfl
@[simp] theorem forgetBitcur_bit (s : State) : (forgetBitcur s).bit = s.bit := rfl
@[simp] theorem forgetBitcur_pix (s : State) : (forgetBitcur s).pix = s.pix := rfl
@[simp] theorem forgetBitcur_cur (s : State) : (forgetBitcur s).cur = s.cur := rfl
@[simp] theorem forgetBitcur_cap (s : State) : (forgetBitcur s).cap = s.cap := rfl
@[simp] theorem forgetBitcur_host (s : State) : (forgetBitcur s).host = s.host := rfl
@[simp] theorem forgetBitcur_reads (s : State) : (forgetBitcur s).reads = s.reads := rfl
@[simp] theorem forgetBitcur_free (s : State) : (forgetBitcur s).free = s.free + 1 := rfl

/-! ### `forgetStream` -/

@[simp] theorem forgetStream_status (s : State) : (forgetStream s).status = s.status := rfl
@[simp] theorem forgetStream_err (s : State) : (forgetStream s).err = s.err := rfl
@[simp] theorem forgetStream_errinfo (s : State) : (forgetStream s).errinfo = s.errinfo := rfl
@[simp] theorem forgetStream_levels (s : State) : (forgetStream s).levels = s.levels := rfl
@[simp] theorem forgetStream_imgW (s : State) : (forgetStream s).imgW = s.imgW := rfl
@[simp] theorem forgetStream_imgH (s : State) : (forgetStream s).imgH = s.imgH := rfl
@[simp] theorem forgetStream_imgBg (s : State) : (forgetStream s).imgBg = s.imgBg := rfl
@[simp] theorem forgetStream_gsel (s : State) : (forgetStream s).gsel = s.gsel := rfl
@[simp] theorem forgetStream_esel (s : State) : (forgetStream s).esel = s.esel := rfl
@[simp] theorem forgetStream_grp (s : State) : (forgetStream s).grp = s.grp := rfl
@[simp] theorem forgetStream_bit (s : State) :
    (forgetStream s).bit = { bits := [], gen := s.free } := rfl
@[simp] theorem forgetStream_pix (s : State) : (forgetStream s).pix = s.pix := rfl
@[simp] theorem forgetStream_cur (s : State) : (forgetStream s).cur = s.cur := rfl
@[simp] theorem forgetStream_cap (s : State) : (forgetStream s).cap = s.cap := rfl
@[simp] theorem forgetStream_host (s : State) : (forgetStream s).host = s.host := rfl
@[simp] theorem forgetStream_reads (s : State) : (forgetStream s).reads = s.reads := rfl
@[simp] theorem forgetStream_free (s : State) : (forgetStream s).free = s.free + 1 := rfl

/-! ### `forgetPixels` -/

@[simp] theorem forgetPixels_status (s : State) : (forgetPixels s).status = s.status := rfl
@[simp] theorem forgetPixels_err (s : State) : (forgetPixels s).err = s.err := rfl
@[simp] theorem forgetPixels_errinfo (s : State) : (forgetPixels s).errinfo = s.errinfo := rfl
@[simp] theorem forgetPixels_levels (s : State) : (forgetPixels s).levels = s.levels := rfl
@[simp] theorem forgetPixels_imgW (s : State) : (forgetPixels s).imgW = s.imgW := rfl
@[simp] theorem forgetPixels_imgH (s : State) : (forgetPixels s).imgH = s.imgH := rfl
@[simp] theorem forgetPixels_imgBg (s : State) : (forgetPixels s).imgBg = s.imgBg := rfl
@[simp] theorem forgetPixels_indexbits (s : State) : (forgetPixels s).indexbits = s.indexbits := rfl
@[simp] theorem forgetPixels_gsel (s : State) : (forgetPixels s).gsel = s.gsel := rfl
@[simp] theorem forgetPixels_esel (s : State) : (forgetPixels s).esel = s.esel := rfl
@[simp] theorem forgetPixels_bitlen (s : State) : (forgetPixels s).bitlen = s.bitlen := rfl
@[simp] theorem forgetPixels_bitcur (s : State) : (forgetPixels s).bitcur = s.bitcur := rfl
@[simp] theorem forgetPixels_grp (s : State) : (forgetPixels s).grp = s.grp := rfl
@[simp] theorem forgetPixels_bit (s : State) : (forgetPixels s).bit = s.bit := rfl
@[simp] theorem forgetPixels_pix (s : State) :
    (forgetPixels s).pix = { s.pix with cells := [], gen := s.free } := rfl
@[simp] theorem forgetPixels_cur (s : State) : (forgetPixels s).cur = s.cur := rfl
@[simp] theorem forgetPixels_cap (s : State) : (forgetPixels s).cap = s.cap := rfl
@[simp] theorem forgetPixels_host (s : State) : (forgetPixels s).host = s.host := rfl
@[simp] theorem forgetPixels_reads (s : State) : (forgetPixels s).reads = s.reads := rfl
@[simp] theorem forgetPixels_free (s : State) : (forgetPixels s).free = s.free + 1 := rfl

/-! ### `resetBlock` -/

@[simp] theorem resetBlock_status (s : State) : (resetBlock s).status = State.reset.status := rfl
@[simp] theorem resetBlock_err (s : State) : (resetBlock s).err = 0 := rfl
@[simp] theorem resetBlock_errinfo (s : State) : (resetBlock s).errinfo = 0 := rfl
@[simp] theorem resetBlock_levels (s : State) : (resetBlock s).levels = 0 := rfl
@[simp] theorem resetBlock_imgW (s : State) : (resetBlock s).imgW = 0 := rfl
@[simp] theorem resetBlock_imgH (s : State) : (resetBlock s).imgH = 0 := rfl
@[simp] theorem resetBlock_imgBg (s : State) :
    (resetBlock s).imgBg = { r := 0, g := 0, b := 0 } := rfl
@[simp] theorem resetBlock_indexbits (s : State) : (resetBlock s).indexbits = 0 := rfl
@[simp] theorem resetBlock_gsel (s : State) : (resetBlock s).gsel = 0 := rfl
@[simp] theorem resetBlock_esel (s : State) : (resetBlock s).esel = 0 := rfl
@[simp] theorem resetBlock_bitlen (s : State) : (resetBlock s).bitlen = 0 := rfl
@[simp] theorem resetBlock_bitcur (s : State) : (resetBlock s).bitcur = 0 := rfl
@[simp] theorem resetBlock_grp (s : State) : (resetBlock s).grp = [] := rfl
@[simp] theorem resetBlock_bit (s : State) :
    (resetBlock s).bit = { bits := [], gen := s.free } := rfl
@[simp] theorem resetBlock_pix (s : State) : (resetBlock s).pix = s.pix := rfl
@[simp] theorem resetBlock_cur (s : State) : (resetBlock s).cur = Config.freeCursors s.free := rfl
@[simp] theorem resetBlock_cap (s : State) : (resetBlock s).cap = s.cap := rfl
@[simp] theorem resetBlock_host (s : State) : (resetBlock s).host = s.host := rfl
@[simp] theorem resetBlock_reads (s : State) : (resetBlock s).reads = s.reads := rfl
@[simp] theorem resetBlock_free (s : State) : (resetBlock s).free = s.free + 1 := rfl

/-! ### `finishConvert` -/

@[simp] theorem finishConvert_status (s : State) :
    (finishConvert s).status = { s.status with imgv := true } := rfl
@[simp] theorem finishConvert_err (s : State) : (finishConvert s).err = s.err := rfl
@[simp] theorem finishConvert_errinfo (s : State) : (finishConvert s).errinfo = s.errinfo := rfl
@[simp] theorem finishConvert_levels (s : State) : (finishConvert s).levels = s.levels := rfl
@[simp] theorem finishConvert_imgW (s : State) : (finishConvert s).imgW = s.pix.w := rfl
@[simp] theorem finishConvert_imgH (s : State) : (finishConvert s).imgH = s.pix.h := rfl
@[simp] theorem finishConvert_imgBg (s : State) : (finishConvert s).imgBg = s.imgBg := rfl
@[simp] theorem finishConvert_indexbits (s : State) :
    (finishConvert s).indexbits = s.indexbits := rfl
@[simp] theorem finishConvert_gsel (s : State) : (finishConvert s).gsel = s.gsel := rfl
@[simp] theorem finishConvert_esel (s : State) : (finishConvert s).esel = s.esel := rfl
@[simp] theorem finishConvert_bitlen (s : State) : (finishConvert s).bitlen = s.bitlen := rfl
@[simp] theorem finishConvert_bitcur (s : State) : (finishConvert s).bitcur = s.bitcur := rfl
@[simp] theorem finishConvert_grp (s : State) : (finishConvert s).grp = s.grp := rfl
@[simp] theorem finishConvert_bit (s : State) : (finishConvert s).bit = s.bit := rfl
@[simp] theorem finishConvert_pix (s : State) : (finishConvert s).pix = s.pix := rfl
@[simp] theorem finishConvert_cur (s : State) : (finishConvert s).cur = s.cur := rfl
@[simp] theorem finishConvert_cap (s : State) : (finishConvert s).cap = s.cap := rfl
@[simp] theorem finishConvert_host (s : State) : (finishConvert s).host = s.host := rfl
@[simp] theorem finishConvert_reads (s : State) : (finishConvert s).reads = s.reads := rfl
@[simp] theorem finishConvert_free (s : State) : (finishConvert s).free = s.free := rfl

/-! ### `returnToHost` -/

@[simp] theorem returnToHost_status (v : Nat) (s : State) :
    (returnToHost v s).status = s.status := rfl
@[simp] theorem returnToHost_err (v : Nat) (s : State) : (returnToHost v s).err = s.err := rfl
@[simp] theorem returnToHost_errinfo (v : Nat) (s : State) :
    (returnToHost v s).errinfo = s.errinfo := rfl
@[simp] theorem returnToHost_levels (v : Nat) (s : State) :
    (returnToHost v s).levels = s.levels := rfl
@[simp] theorem returnToHost_imgW (v : Nat) (s : State) : (returnToHost v s).imgW = s.imgW := rfl
@[simp] theorem returnToHost_imgH (v : Nat) (s : State) : (returnToHost v s).imgH = s.imgH := rfl
@[simp] theorem returnToHost_imgBg (v : Nat) (s : State) : (returnToHost v s).imgBg = s.imgBg := rfl
@[simp] theorem returnToHost_indexbits (v : Nat) (s : State) :
    (returnToHost v s).indexbits = s.indexbits := rfl
@[simp] theorem returnToHost_gsel (v : Nat) (s : State) : (returnToHost v s).gsel = s.gsel := rfl
@[simp] theorem returnToHost_esel (v : Nat) (s : State) : (returnToHost v s).esel = s.esel := rfl
@[simp] theorem returnToHost_bitlen (v : Nat) (s : State) :
    (returnToHost v s).bitlen = s.bitlen := rfl
@[simp] theorem returnToHost_bitcur (v : Nat) (s : State) :
    (returnToHost v s).bitcur = s.bitcur := rfl
@[simp] theorem returnToHost_grp (v : Nat) (s : State) : (returnToHost v s).grp = s.grp := rfl
@[simp] theorem returnToHost_bit (v : Nat) (s : State) : (returnToHost v s).bit = s.bit := rfl
@[simp] theorem returnToHost_pix (v : Nat) (s : State) : (returnToHost v s).pix = s.pix := rfl
@[simp] theorem returnToHost_cur (v : Nat) (s : State) : (returnToHost v s).cur = s.cur := rfl
@[simp] theorem returnToHost_cap (v : Nat) (s : State) : (returnToHost v s).cap = s.cap := rfl
@[simp] theorem returnToHost_host (v : Nat) (s : State) : (returnToHost v s).host = s.host := rfl
@[simp] theorem returnToHost_reads (v : Nat) (s : State) :
    (returnToHost v s).reads = s.reads ++ [v] := rfl
@[simp] theorem returnToHost_free (v : Nat) (s : State) : (returnToHost v s).free = s.free := rfl

/-! ### The flags -/

@[simp] theorem accepted_busy (f : Status) : f.accepted.busy = true := rfl
@[simp] theorem accepted_done (f : Status) : f.accepted.done = false := rfl
@[simp] theorem accepted_errf (f : Status) : f.accepted.errf = f.errf := rfl
@[simp] theorem accepted_imgv (f : Status) : f.accepted.imgv = f.imgv := rfl
@[simp] theorem completed_busy (f : Status) : f.completed.busy = false := rfl
@[simp] theorem completed_done (f : Status) : f.completed.done = true := rfl
@[simp] theorem completed_errf (f : Status) : f.completed.errf = f.errf := rfl
@[simp] theorem completed_imgv (f : Status) : f.completed.imgv = f.imgv := rfl
@[simp] theorem failed_busy (f : Status) : f.failed.busy = false := rfl
@[simp] theorem failed_done (f : Status) : f.failed.done = f.done := rfl
@[simp] theorem failed_errf (f : Status) : f.failed.errf = true := rfl
@[simp] theorem failed_imgv (f : Status) : f.failed.imgv = f.imgv := rfl

/-! ### How a piece of a command goes on -/

@[simp] theorem bind_ok (s : State) (f : State → Run) : (Run.ok s).bind f = f s := rfl
@[simp] theorem bind_raised (e : ErrorKind) (info : Nat) (s : State) (f : State → Run) :
    (Run.raised e info s).bind f = .raised e info s := rfl

/-- `bind` goes on only from a state the first piece reached. -/
theorem bind_eq_ok {r : Run} {f : State → Run} {t : State} (h : r.bind f = .ok t) :
    ∃ s, r = .ok s ∧ f s = .ok t := by
  cases r with
  | ok s => exact ⟨s, rfl, h⟩
  | raised e info s => simp at h

end Sys2Proof.Machine
end

