-- ==== Sys2Proof/Laws/Commands.lean ====
section
/-! SUPPORT. What the shared pieces of the commands can do: how runs end, the loops of the filters and
the scan, the serial writer. -/

namespace Sys2Proof.Machine

/-! ### Runs -/

/-- The state a run ended in, with or without an error. -/
def Run.state : Run → State
  | .ok s => s
  | .raised _ _ s => s

@[simp] theorem state_ok (s : State) : (Run.ok s).state = s := rfl
@[simp] theorem state_raised (e : ErrorKind) (info : Nat) (s : State) :
    (Run.raised e info s).state = s := rfl

/-- A property that the first piece establishes and the second keeps holds of both in a row. -/
theorem bind_keeps {P : State → Prop} {r : Run} {f : State → Run} (hr : P r.state)
    (hf : ∀ s, r = .ok s → P s → P (f s).state) : P (r.bind f).state := by
  cases r with
  | ok s => exact hf s rfl hr
  | raised e info s => exact hr

/-- A command always ends with `BUSY` = 0. -/
@[simp] theorem finish_busy (forget : State → State) (r : Run) :
    (r.finish forget).status.busy = false := by cases r <;> rfl

/-- How a command ends: completed, or with an error and what it leaves undefined. -/
theorem finish_cases (forget : State → State) (r : Run) :
    (∃ s, r = .ok s ∧ r.finish forget = complete (forgetCursors s)) ∨
    ∃ e info s, r = .raised e info s ∧
      r.finish forget = takeError e info (forgetCursors (forget s)) := by
  cases r with
  | ok s => exact .inl ⟨s, rfl, rfl⟩
  | raised e info s => exact .inr ⟨e, info, s, rfl, rfl⟩

/-! ### The filter loops -/

/-- What every visit and every move of the column cursor keeps, a row keeps. -/
theorem forCols_keeps {P : State → Prop} {visit : State → Run}
    (hv : ∀ s, P s → P (visit s).state) (hx : ∀ s x, P s → P (setX s x)) :
    ∀ n s, P s → P (forCols visit n s).state := by
  intro n
  induction n with
  | zero => exact fun s h => h
  | succ n ih => exact fun s h => bind_keeps (hv s h) fun s' _ h' => ih _ (hx s' _ h')

/-- What every visit and every move of the cursors keeps, a pass keeps. -/
theorem forRows_keeps {P : State → Prop} {visit : State → Run} {cols : Nat}
    (hv : ∀ s, P s → P (visit s).state) (hx : ∀ s x, P s → P (setX s x))
    (hy : ∀ s y, P s → P (setY s y)) : ∀ n s, P s → P (forRows visit cols n s).state := by
  intro n
  induction n with
  | zero => exact fun s h => h
  | succ n ih =>
    exact fun s h => bind_keeps (forCols_keeps hv hx cols _ (hx s 1 h)) fun s' _ h' =>
      ih _ (hy s' _ h')

/-- What every visit and every move of the cursors keeps, a filter keeps. -/
theorem filterPass_keeps {P : State → Prop} {visit : State → Run}
    (hv : ∀ s, P s → P (visit s).state) (hc : ∀ s c, P s → P { s with cur := c }) (s : State)
    (h : P s) : P (filterPass visit s).state :=
  forRows_keeps hv (fun s _ h => hc s _ h) (fun s _ h => hc s _ h) _ _ (hc _ _ (hc _ _ h))

/-- `PixSet` or an error: what writing a pixel of the buffer keeps. -/
theorem setOrRaise_keeps {P : State → Prop} {s : State} {x y : Nat} {c : Color} (h : P s)
    (hw : s.pix.has x y → P { s with pix := { s.pix with
      cells := s.pix.cells.write (y * s.pix.w.toNat + x) c } }) :
    P (setOrRaise s x y c).state := by
  unfold setOrRaise
  cases hp : pixSet s x y c with
  | none => exact h
  | some t =>
    obtain ⟨hxy, rfl⟩ := pixSet_eq_some hp
    exact hw hxy

/-- A visit of `GRAY` keeps what writing a pixel of the buffer keeps. -/
theorem grayVisit_keeps {P : State → Prop} {s : State} (h : P s)
    (hw : ∀ s x y c, P s → s.pix.has x y → P { s with pix := { s.pix with
      cells := s.pix.cells.write (y * s.pix.w.toNat + x) c } }) : P (grayVisit s).state := by
  unfold grayVisit getOrRaise
  cases pixGet s s.cur.x s.cur.y with
  | none => exact h
  | some p => exact setOrRaise_keeps h fun hxy => hw s _ _ _ h hxy

/-- A diffusion keeps what writing a pixel of the buffer keeps. -/
theorem diffuse_keeps {P : State → Prop} {levels : Nat} {p : Color} {nx ny : Nat} {wt : Int}
    {s : State} (h : P s)
    (hw : ∀ s x y c, P s → s.pix.has x y → P { s with pix := { s.pix with
      cells := s.pix.cells.write (y * s.pix.w.toNat + x) c } }) :
    P (diffuse levels p nx ny wt s).state := by
  unfold diffuse getOrRaise
  split
  · cases pixGet s nx ny with
    | none => exact h
    | some o => exact setOrRaise_keeps h fun hxy => hw s _ _ _ h hxy
  · exact h

/-- A visit of `DITHER` keeps what writing a pixel of the buffer keeps. -/
theorem ditherVisit_keeps {P : State → Prop} {levels : Nat} {s : State} (h : P s)
    (hw : ∀ s x y c, P s → s.pix.has x y → P { s with pix := { s.pix with
      cells := s.pix.cells.write (y * s.pix.w.toNat + x) c } }) :
    P (ditherVisit levels s).state := by
  simp only [ditherVisit, getOrRaise]
  cases pixGet s s.cur.x s.cur.y with
  | none => exact h
  | some p =>
    exact bind_keeps (setOrRaise_keeps h fun hxy => hw s _ _ _ h hxy) fun s₁ _ h₁ =>
      bind_keeps (diffuse_keeps h₁ hw) fun s₂ _ h₂ =>
      bind_keeps (diffuse_keeps h₂ hw) fun s₃ _ h₃ =>
      bind_keeps (diffuse_keeps h₃ hw) fun s₄ _ h₄ => diffuse_keeps h₄ hw

/-! ### The scan -/

/-- The inner cursor's loop ends without an error where every pixel is inside, at the end of the run
that it is in, and changes nothing but `J` (41_converter.md R164). -/
theorem runEnd_spec {n : Nat} {c : Color} : ∀ fuel s, n = s.pix.size → n ≤ s.cur.j + fuel →
    s.cur.j ≤ n → ∃ j, s.cur.j ≤ j ∧ j ≤ n ∧ runEnd n c fuel s = .ok (setJ s j) ∧
      (∀ i, s.cur.j ≤ i → i < j → s.pix.cell i = c) ∧ (j < n → s.pix.cell j ≠ c) := by
  intro fuel
  induction fuel with
  | zero =>
    intro s _ hf hj
    refine ⟨s.cur.j, le_rfl, hj, rfl, fun i h1 h2 => ?_, fun h => ?_⟩ <;> omega
  | succ fuel ih =>
    intro s hn hf hj
    by_cases hlt : s.cur.j < n
    · have hat : pixAt s s.cur.j = some (s.pix.cell s.cur.j) := pixAt_of_lt (hn ▸ hlt)
      by_cases hc : s.pix.cell s.cur.j = c
      · obtain ⟨j, h1, h2, h3, h4, h5⟩ :=
          ih (setJ s (s.cur.j + 1)) hn (by simp; omega) (by simpa using hlt)
        simp only [setJ_cur, setJ_pix] at h1 h4 h5
        refine ⟨j, by omega, h2, ?_, fun i hi1 hi2 => ?_, h5⟩
        · simp only [runEnd, hlt, if_true, atOrRaise, hat, hc]
          rw [h3]
          rfl
        · rcases Nat.eq_or_lt_of_le hi1 with rfl | hi1
          · exact hc
          · exact h4 i (by omega) hi2
      · refine ⟨s.cur.j, le_rfl, hj, ?_, fun i h1 h2 => by omega, fun _ => hc⟩
        simp [runEnd, hlt, atOrRaise, hat, hc, setJ]
    · refine ⟨s.cur.j, le_rfl, hj, ?_, fun i h1 h2 => by omega, fun h => absurd h hlt⟩
      simp [runEnd, hlt, setJ]

/-! ### The serial writer -/

/-- All that `PutBits` can do (42_encoder.md R180). -/
theorem putBits_cases (f : BitField) (s : State) :
    (¬ fits f.value f.width ∧ putBits f s = .raised .fieldOverflow s.bitlen s) ∨
    (fits f.value f.width ∧ ¬ fitsBits s.cap (s.bitlen + f.width) ∧
      putBits f s = .raised .capacityExceeded 3 s) ∨
    (fits f.value f.width ∧ fitsBits s.cap (s.bitlen + f.width) ∧ putBits f s = .ok
      { bitWriteList s s.bitlen (fieldBits f.width f.value) with
        bitlen := s.bitlen + f.width, bitcur := s.bitlen + f.width }) := by
  unfold putBits
  by_cases hf : fits f.value f.width
  · by_cases hs : fitsBits s.cap (s.bitlen + f.width)
    · rw [if_neg (not_not.mpr hf), if_neg (not_not.mpr hs)]
      exact .inr (.inr ⟨hf, hs, rfl⟩)
    · rw [if_neg (not_not.mpr hf), if_pos hs]
      exact .inr (.inl ⟨hf, hs, rfl⟩)
  · rw [if_pos hf]
    exact .inl ⟨hf, rfl⟩

/-- What `PutBits` keeps, a row of fields keeps. -/
theorem putFields_keeps {P : State → Prop} (hp : ∀ f s, P s → P (putBits f s).state) :
    ∀ fs s, P s → P (putFields fs s).state := by
  intro fs
  induction fs with
  | nil => exact fun s h => h
  | cons f fs ih => exact fun s h => bind_keeps (hp f s h) fun s' _ h' => ih s' h'

/-- Fields that are written one after the other are one list of bits. -/
theorem writeList_append {α : Type} (m : Memory α) (k : Nat) (xs ys : List α) :
    m.writeList k (xs ++ ys) = (m.writeList k xs).writeList (k + xs.length) ys := by
  induction xs generalizing m k with
  | nil => simp [Memory.writeList]
  | cons x xs ih =>
    simp only [List.cons_append, Memory.writeList, List.length_cons, ih]
    congr 1
    omega

/-- Fields that all fit, with room for all of them, are written in one piece: the bits of the word, at
`BITLEN`, with both cursors after it (42_encoder.md R180). -/
theorem putFields_ok : ∀ (fs : List BitField) (s : State), (∀ f ∈ fs, fits f.value f.width) →
    fitsBits s.cap (s.bitlen + (fs.map fun f => f.width).sum) → s.bitcur = s.bitlen →
    putFields fs s = .ok
      { bitWriteList s s.bitlen (fs.flatMap fun f => fieldBits f.width f.value) with
        bitlen := s.bitlen + (fs.map fun f => f.width).sum
        bitcur := s.bitlen + (fs.map fun f => f.width).sum } := by
  intro fs
  induction fs with
  | nil =>
    intro s _ _ hc
    cases s
    cases hc
    rfl
  | cons f fs ih =>
    intro s hf hs hc
    simp only [List.map_cons, List.sum_cons] at hs
    have hs1 : fitsBits s.cap (s.bitlen + f.width) := fun m hm => by have := hs m hm; omega
    rcases putBits_cases f s with ⟨h, -⟩ | ⟨-, h, -⟩ | ⟨-, -, h⟩
    · exact absurd (hf f (by simp)) h
    · exact absurd hs1 h
    · rw [putFields, h, bind_ok, ih _ (fun g hg => hf g (by simp [hg]))
        (by intro m hm; have := hs m hm; simp only; omega) rfl]
      simp only [bitWriteList, List.flatMap_cons, writeList_append, fieldBits_length, List.map_cons,
        List.sum_cons, Nat.add_assoc]

end Sys2Proof.Machine
end

