-- ==== Sys2Proof/Laws/PerInstr.lean ====
section
/-! SUPPORT. Laws stated per instruction: its word has the length the opcode table gives. -/

namespace Sys2Proof.Laws.EncodeLength

/-- The word of an instruction is as long as its format says (30_encoding.md R90, R94). -/
def Statement (i : Instr) : Prop := ∀ ib, (encode ib i).length = i.length ib

theorem nop : Statement .nop := fun _ => rfl
theorem gray : Statement .gray := fun _ => rfl
theorem dither : Statement .dither := fun _ => rfl
theorem convert : Statement .convert := fun _ => rfl
theorem encode : Statement .encode := fun _ => rfl
theorem decode : Statement .decode := fun _ => rfl
theorem rsvd6 : Statement .rsvd6 := fun _ => rfl
theorem rsvd7 : Statement .rsvd7 := fun _ => rfl
theorem rsvd8 : Statement .rsvd8 := fun _ => rfl
theorem rsvd9 : Statement .rsvd9 := fun _ => rfl
theorem rsvd10 : Statement .rsvd10 := fun _ => rfl
theorem rsvd11 : Statement .rsvd11 := fun _ => rfl
theorem rsvd12 : Statement .rsvd12 := fun _ => rfl
theorem rsvd13 : Statement .rsvd13 := fun _ => rfl
theorem rsvd14 : Statement .rsvd14 := fun _ => rfl
theorem sreset : Statement .sreset := fun _ => rfl

theorem hdr (bg : Color) (hib : BitVec 7) (w h : Nat) : Statement (.hdr bg hib w h) := fun ib => by
  simp [Sys2Proof.encode, Instr.fields, colourFields, Instr.length]
  omega

theorem color (c : Color) : Statement (.color c) := fun ib => by
  simp [Sys2Proof.encode, Instr.fields, colourFields, Instr.length]

theorem sc (a : Nat) : Statement (.sc a) := fun ib => by
  simp [Sys2Proof.encode, Instr.fields, Instr.length]

theorem rc (a b : Nat) : Statement (.rc a b) := fun ib => by
  simp [Sys2Proof.encode, Instr.fields, Instr.length]
  omega

theorem st (a : Nat) : Statement (.st a) := fun ib => by
  simp [Sys2Proof.encode, Instr.fields, Instr.length]

theorem rt (a b : Nat) : Statement (.rt a b) := fun ib => by
  simp [Sys2Proof.encode, Instr.fields, Instr.length]
  omega

end Sys2Proof.Laws.EncodeLength
end

