-- ==== Sys2Proof/Laws/Step.lean ====
section
/-! SUPPORT. What the records, the host's moves and a step can do, said once each. -/

namespace Sys2Proof.Machine

/-! ### The records -/

/-- All that an entry record can do (43_decoder.md R215 to R218): append and go on, append and lead on
from the group, or raise. -/
theorem parseEntry_cases (n : Nat) (e : Entry) (terminal : Bool) (s : State) :
    (∃ grp, append s.cap s.grp s.cur.curc e = .ok grp ∧
      parseEntry n e terminal s =
        if terminal then nextGroup { advance n s with grp := grp }
        else enter .entry { advance n s with grp := grp }) ∨
    ∃ info, append s.cap s.grp s.cur.curc e = .error info ∧
      parseEntry n e terminal s =
        decodeError .capacityExceeded info (forgetBitcur (advance n s)) := by
  simp only [parseEntry, advance]
  cases append s.cap s.grp s.cur.curc e with
  | ok grp => exact .inl ⟨grp, rfl, rfl⟩
  | error info => exact .inr ⟨info, rfl, rfl⟩

/-- `Append` in a command's pseudocode either extends the group store or raises with `info` 1 or 2
(10_state.md R41). -/
theorem appendOrRaise_cases (s : State) (c : Color) (e : Entry) :
    appendOrRaise s c e = .ok { s with grp := appendEntry s.grp c e } ∨
    ∃ info, (info = 1 ∨ info = 2) ∧
      appendOrRaise s c e = .raised .capacityExceeded info s := by
  unfold appendOrRaise
  rcases append_cases (rfl : append s.cap s.grp c e = _) with ⟨h, -⟩ | ⟨h, -⟩ | ⟨h, -⟩
  · exact .inr ⟨1, .inl rfl, by rw [h]⟩
  · exact .inr ⟨2, .inr rfl, by rw [h]⟩
  · exact .inl (by rw [h])

/-- A record that has been fetched does what the instruction does (43_decoder.md R212). -/
theorem exec_record {i : Instr} (s : State) (h : ∀ ib, i.slot ib ≠ .command) :
    exec i s = .next (recordEffect i s) := by
  cases i <;> first | rfl | exact absurd rfl (h 0)

/-- What the decoder reads at a place in a stream is no command (30_encoding.md R97). -/
theorem decode_no_command {slot : Slot} {bits rest : List Bool} {i : Instr}
    (hs : slot ≠ .command) (h : decode slot bits = .ok (i, rest)) : ∀ ib, i.slot ib ≠ .command := by
  intro ib
  cases slot with
  | command => exact absurd rfl hs
  | header =>
    simp only [decode, decodeHeader, readField] at h
    repeat' split at h
    all_goals cases h
    rintro ⟨⟩
  | colour =>
    simp only [decode, decodeColour, readField] at h
    repeat' split at h
    all_goals cases h
    rintro ⟨⟩
  | entry n =>
    simp only [decode, decodeEntry, readField] at h
    repeat' split at h
    all_goals first | (cases h; done) | (cases h; rintro ⟨⟩)

/-- The record sequencer never reads from the command port. -/
theorem recordSlot_ne_command {s : State} {slot : Slot} (h : recordSlot s = some slot) :
    slot ≠ .command := by
  rintro rfl
  unfold recordSlot at h
  cases hd : s.cur.dstate <;> simp [hd] at h

/-- What the block does when it is left alone (70_reset_and_hazards.md R279): idle, nothing; while
`BUSY` = 1, one tick of the sequencer. -/
theorem runEngine_eq (s : State) :
    runEngine s = .next (if s.status.busy then decodeTick s else s) := by
  unfold runEngine decodeTick
  by_cases hb : s.status.busy = true
  · rw [if_pos hb, if_pos hb]
    unfold fetchRecord
    cases hs : recordSlot s with
    | none => rfl
    | some slot =>
      simp only [Option.map_some]
      cases hd : decode slot (window s) with
      | ok r => exact exec_record s (decode_no_command (recordSlot_ne_command hs) hd)
      | error r => cases r; rfl
  · rw [if_neg hb, if_neg hb]

/-- `DECODE` takes one tick of the sequencer after the other while it is busy. -/
theorem runDecode_succ (fuel : Nat) (s : State) :
    runDecode (fuel + 1) s = if s.status.busy then runDecode fuel (decodeTick s) else s := rfl

/-- Once a command has ended, more fuel changes nothing. -/
theorem runDecode_idle {s : State} (h : s.status.busy = false) (fuel : Nat) :
    runDecode fuel s = s := by
  cases fuel with
  | zero => rfl
  | succ n => simp [runDecode, h]

/-! ### The host's moves -/

/-- What a write to `CMD` can do (44_system.md R230). -/
theorem writeCmd_cases (v : Nat) (s : State) :
    (s.status.busy = true ∧ writeCmd v s = .next s) ∨
    (s.status.busy = false ∧ s.status.errf = true ∧ BitVec.ofNat 4 v ≠ 15 ∧
      writeCmd v s = .next s) ∨
    (s.status.busy = false ∧ (s.status.errf = false ∨ BitVec.ofNat 4 v = 15) ∧
      writeCmd v s = exec (commandOf (BitVec.ofNat 4 v)) s) := by
  unfold writeCmd
  cases hb : s.status.busy
  · by_cases he : s.status.errf = true ∧ BitVec.ofNat 4 v ≠ 15
    · exact .inr (.inl ⟨rfl, he.1, he.2, by rw [if_pos he]; rfl⟩)
    · refine .inr (.inr ⟨rfl, ?_, by rw [if_neg he]; rfl⟩)
      by_cases h : s.status.errf = true
      · exact .inr (by by_contra hn; exact he ⟨h, hn⟩)
      · exact .inl (by simpa using h)
  · exact .inl ⟨rfl, rfl⟩

/-- A move that only an idle block takes gives a next state only from an idle block. -/
theorem whenIdle_next {s t : State} {move : Host.Outcome State Fault Refusal}
    (h : whenIdle s move = .next t) : s.status.busy = false ∧ move = .next t := by
  unfold whenIdle at h
  split at h
  · cases h
  · next hb => exact ⟨by simpa using hb, h⟩

/-- Every register is found under its number (10_state.md R21). -/
@[simp] theorem ofNumber_number (r : Reg) : Reg.ofNumber? r.number = some r := by cases r <;> rfl

/-- Reading a register on a next state: the value is appended to what the host has read, and nothing
else changes (70_reset_and_hazards.md R279). -/
theorem hostRead_next {n : Nat} {s t : State} (h : hostRead n s = .next t) :
    ∃ r, Reg.ofNumber? n = some r ∧ t = returnToHost (readReg s r) s ∧
      (r = .status ∨ s.status.busy = false) := by
  unfold hostRead at h
  split at h
  · cases h
  · next hr => cases h; exact ⟨.status, hr, rfl, .inl rfl⟩
  · next r _ hr =>
    obtain ⟨hb, h⟩ := whenIdle_next h
    cases h
    exact ⟨r, hr, rfl, .inr hb⟩

/-- Writing a register on a next state: a command, or a register of the file. -/
theorem hostWrite_next {n v : Nat} {s t : State} (h : hostWrite n v s = .next t) :
    (Reg.ofNumber? n = some .cmd ∧ writeCmd v s = .next t) ∨
    ∃ r, Reg.ofNumber? n = some r ∧ s.status.busy = false ∧ t = writeReg s r v := by
  unfold hostWrite at h
  split at h
  · cases h
  · next hr => exact .inl ⟨hr, h⟩
  · next r _ hr =>
    obtain ⟨hb, h⟩ := whenIdle_next h
    cases h
    exact .inr ⟨r, hr, hb, rfl⟩

/-- A step whose move the host has given (70_reset_and_hazards.md R279). -/
theorem step_cons {s : State} {m : HostMove} {ms : List HostMove} (h : s.host = m :: ms) :
    step s = hostMove m { s with host := ms } := by simp [step, takeMove, h]

/-- A step with no move left. -/
theorem step_nil {s : State} (h : s.host = []) : step s = runEngine s := by
  simp [step, takeMove, h]

/-- A step that answers a next state: the block left alone, or one of the host's moves, each with what
it does. -/
theorem step_next_cases {s t : State} (h : step s = .next t) :
    (s.host = [] ∧ runEngine s = .next t) ∨
    ∃ m ms, s.host = m :: ms ∧ hostMove m { s with host := ms } = .next t := by
  cases hs : s.host with
  | nil => exact .inl ⟨rfl, by rw [← step_nil hs, h]⟩
  | cons m ms => exact .inr ⟨m, ms, rfl, by rw [← step_cons hs, h]⟩

/-! ### A word of the opcode table, placed -/

/-- The step after placing a command word runs the command, from the state before. -/
theorem step_placeWord_command (s : State) (n w : Nat) (hb : s.status.busy = false)
    (he : s.status.errf = false) (hc : s.err = 0) :
    step (placeWord s .command n w) = exec (commandOf (BitVec.ofNat 4 w)) s := by
  obtain ⟨status, err, errinfo, levels, imgW, imgH, imgBg, indexbits, gsel, esel, bitlen, bitcur, grp,
    bit, pix, cur, cap, host, reads, free⟩ := s
  obtain ⟨busy, done, errf, imgv⟩ := status
  cases hb
  cases he
  cases hc
  rfl

end Sys2Proof.Machine
end

