-- ==== Sys2Proof/Tests/Slice0.lean ====
section
/-! SUPPORT. The model's own tests: ill-formed terms refused, words decoded, one step or one instruction
at a time against the vectors of 95_test_vectors.md, and for every statement with hypotheses a state and
operands that meet them. -/

namespace Sys2Proof.Tests

open Sys2Proof Sys2Proof.Machine Sys2Proof.Claims

/-! ### Small states -/

/-- The outcome is a next state of which `p` holds. -/
def ends (o : Host.Outcome State Fault Refusal) (p : State → Bool) : Bool :=
  match o with
  | .next t => p t
  | .fault _ => false
  | .refused _ => false

theorem of_ends {o : Host.Outcome State Fault Refusal} {p : State → Bool} (h : ends o p = true) :
    ∃ t, o = .next t ∧ p t = true := by
  cases o with
  | next t => exact ⟨t, rfl, h⟩
  | fault f => cases h
  | refused r => cases h

/-- The colours of 95_test_vectors.md section 2.2, and greys. -/
def cA : Color := { r := 255, g := 0, b := 0 }
def cB : Color := { r := 0, g := 0, b := 255 }
def cC : Color := { r := 0, g := 255, b := 0 }
def cK : Color := { r := 0, g := 0, b := 0 }
def cO : Color := { r := 1, g := 1, b := 1 }
def gray (v : Byte) : Color := { r := v, g := v, b := v }

/-- The reset state with a PixelBuffer and `LEVELS`. -/
def buffer (w h : Size) (levels : BitVec 16) (cells : List Color) : State :=
  { State.reset with
    levels := levels
    pix := { w := w, h := h, cells := (List.range cells.length).zip cells, gen := 0 } }

/-- The reset state with `len` bits of stream. -/
def stream (len : Nat) (bytes : List Byte) : State :=
  { State.reset with
    bitlen := len
    bit := { bits := (List.range (8 * bytes.length)).zip (bytes.flatMap fun b => fieldBits 8 b.toNat)
             gen := 0 } }

/-- The reset state with an image. -/
def image (w h : Size) (bg : Color) (grp : List ColorGroup) : State :=
  { State.reset with
    imgW := w, imgH := h, imgBg := bg, grp := grp
    status := { busy := false, done := true, errf := false, imgv := true } }

/-- The colours of a PixelBuffer's cells. -/
def pixels (s : State) : List Color := (List.range s.pix.size).map s.pix.cell

/-- The bytes of the stream. -/
def bytes (s : State) : List Byte := (List.range ((s.bitlen + 7) / 8)).map (byteRead s)

/-- V-E2: the buffer, its image and its stream. -/
def bufferE2 : State := buffer 5 1 2 [cA, cB, cA, cB, cA]
def imageE2 : State := image 5 1 cA [{ color := cB, entries := [.single 1, .single 3] }]
def bytesE2 : List Byte := [0xFF, 0, 0, 0x07, 0x48, 0, 0x07, 0xF8, 0x66]
def streamE2 : State := stream 71 bytesE2

/-- An error stands. -/
def failed : State := onlyError State.reset .malformedStream 63

/-- A `DECODE` of V-E2 is in progress, at its header. -/
def decoding : State := startDecode streamE2

/-! ### Well-formedness: one ill-formed term for each check (30_encoding.md R96) -/

theorem test_hdr_width_too_large : (Instr.hdr cK 2 4 1).wf 0 = false := by decide
theorem test_hdr_height_too_large : (Instr.hdr cK 2 1 4).wf 0 = false := by decide
theorem test_sc_index_too_large : (Instr.sc 4).wf 2 = false := by decide
theorem test_rc_start_too_large : (Instr.rc 4 1).wf 2 = false := by decide
theorem test_rc_end_too_large : (Instr.rc 1 4).wf 2 = false := by decide
theorem test_st_index_too_large : (Instr.st 4).wf 2 = false := by decide
theorem test_rt_start_too_large : (Instr.rt 4 1).wf 2 = false := by decide
theorem test_rt_end_too_large : (Instr.rt 1 4).wf 2 = false := by decide
theorem test_index_width_too_large :
    [Instr.sc 0, .rc 0 0, .st 0, .rt 0 0].map (fun i => i.wf 128) = [false, false, false, false] := by
  decide
theorem test_well_formed :
    ((Instr.hdr cK 2 3 3).wf 0 && (Instr.rt 3 3).wf 2 && (Instr.sc 0).wf 0 && Instr.nop.wf 0) = true := by
  decide

/-! ### Decoding: words written out from 30_encoding.md R91, R94, R95, R103 -/

theorem test_decode_nop : decode .command [false, false, false, false] = .ok (.nop, []) := rfl
theorem test_decode_gray : decode .command [false, false, false, true] = .ok (.gray, []) := rfl
theorem test_decode_dither : decode .command [false, false, true, false] = .ok (.dither, []) := rfl
theorem test_decode_convert : decode .command [false, false, true, true] = .ok (.convert, []) := rfl
theorem test_decode_encode : decode .command [false, true, false, false] = .ok (.encode, []) := rfl
theorem test_decode_decode : decode .command [false, true, false, true] = .ok (.decode, []) := rfl
theorem test_decode_rsvd6 : decode .command [false, true, true, false] = .ok (.rsvd6, []) := rfl
theorem test_decode_rsvd7 : decode .command [false, true, true, true] = .ok (.rsvd7, []) := rfl
theorem test_decode_rsvd8 : decode .command [true, false, false, false] = .ok (.rsvd8, []) := rfl
theorem test_decode_rsvd9 : decode .command [true, false, false, true] = .ok (.rsvd9, []) := rfl
theorem test_decode_rsvd10 : decode .command [true, false, true, false] = .ok (.rsvd10, []) := rfl
theorem test_decode_rsvd11 : decode .command [true, false, true, true] = .ok (.rsvd11, []) := rfl
theorem test_decode_rsvd12 : decode .command [true, true, false, false] = .ok (.rsvd12, []) := rfl
theorem test_decode_rsvd13 : decode .command [true, true, false, true] = .ok (.rsvd13, []) := rfl
theorem test_decode_rsvd14 : decode .command [true, true, true, false] = .ok (.rsvd14, []) := rfl
theorem test_decode_sreset : decode .command [true, true, true, true] = .ok (.sreset, []) := rfl

/-- A word of the spec as bits, most significant first. -/
def word (digits : List Nat) : List Bool := digits.map (· == 1)

/-- P1 of 95_test_vectors.md: `HDR bg=#FF0000 ib=3 w=5 h=1`. -/
theorem test_decode_hdr :
    decode .header (word
      [1,1,1,1,1,1,1,1, 0,0,0,0,0,0,0,0, 0,0,0,0,0,0,0,0, 0,0,0,0,0,1,1, 1,0,1, 0,0,1]) =
      .ok (.hdr cA 3 5 1, []) := rfl

/-- `COLOR #090807`, and a bit after it. -/
theorem test_decode_color :
    decode .colour (word [0,0,0,0,1,0,0,1, 0,0,0,0,1,0,0,0, 0,0,0,0,0,1,1,1, 1]) =
      .ok (.color { r := 9, g := 8, b := 7 }, [true]) := rfl

theorem test_decode_sc : decode (.entry 4) (word [0,0, 0,0,1,1]) = .ok (.sc 3, []) := rfl
theorem test_decode_rc :
    decode (.entry 4) (word [0,1, 0,0,0,0, 0,0,1,0]) = .ok (.rc 0 2, []) := rfl
theorem test_decode_st : decode (.entry 4) (word [1,0, 0,1,1,1]) = .ok (.st 7, []) := rfl
theorem test_decode_rt :
    decode (.entry 4) (word [1,1, 0,1,0,0, 0,1,1,1]) = .ok (.rt 4 7, []) := rfl

/-- The index fields of a stream with `ib` = 0 have no bits (V-D4). -/
theorem test_decode_st_without_index_bits : decode (.entry 0) [true, false] = .ok (.st 0, []) := rfl

/-- A field that is cut short is rejected at its start. -/
theorem test_decode_rejects :
    decode (.entry 4) (word [1,1, 0,1,0,0, 0,1,1]) = .error (.endsInField 6) := rfl

/-- Words numbered as the opcode table numbers them. -/
theorem test_table_words :
    [decodeTableWord 8 3, decodeTableWord 8 15, decodeTableWord 2 2, decodeTableWord 16 1,
      decodeTableWord 24 0x090807, decodeTableWord 32 0x7F800003] =
    [some .convert, some .sreset, some (.st 0), some (.rc 0 0),
      some (.color { r := 9, g := 8, b := 7 }), some (.hdr cA 3 0 0)] := by decide +kernel

/-- The next step runs a placed word: a command, a header. -/
theorem test_placed_words_run :
    ends (step (State.reset.withFetchWord 8 9)) (fun t => t.err == 2 && t.errinfo == 9) = true ∧
    ends (step (State.reset.withFetchWord 32 0x7F800003))
      (fun t => t.imgBg == cA && t.bitcur == 37 && t.cur.dstate == .color) = true := by
  decide +kernel

/-! ### One instruction on a small state -/

/-- Read by `ends`: `STATUS`, `ERR`, `ERRINFO`. -/
def errorIs (s : State) (status : BitVec 4) (err : BitVec 3) (info : Nat) : Bool :=
  s.status.word == status && s.err == err && s.errinfo == info

/-- V-S2. -/
theorem test_nop : ends (exec .nop State.reset) (fun t => errorIs t 2 0 0) = true := by decide

/-- V-F2. -/
theorem test_gray :
    ends (exec .gray (buffer 3 2 0 [{ r := 1, g := 2, b := 3 }, { r := 10, g := 200, b := 30 },
      { r := 4, g := 5, b := 6 }, { r := 7, g := 8, b := 9 }, { r := 50, g := 60, b := 70 }, gray 9]))
      (fun t => pixels t == [{ r := 1, g := 2, b := 3 }, gray 124, { r := 4, g := 5, b := 6 },
        { r := 7, g := 8, b := 9 }, { r := 50, g := 60, b := 70 }, gray 9]) = true := by
  decide +kernel

/-- 40_filters.md R136 and section 2.1: `TIE` shows in 28 and 14. -/
theorem test_luma :
    [luma cA, luma { r := 0, g := 0, b := 250 }, luma { r := 0, g := 8, b := 86 },
      luma { r := 255, g := 255, b := 0 }] = [76, 28, 14, 226] := by decide +kernel

/-- V-F11: three lanes, four levels. -/
theorem test_dither :
    ends (exec .dither (buffer 3 2 4 [gray 10, { r := 40, g := 90, b := 170 }, gray 10, gray 10,
      gray 10, gray 10]))
      (fun t => pixels t == [gray 10, { r := 0, g := 85, b := 170 }, { r := 28, g := 12, b := 10 },
        { r := 18, g := 11, b := 10 }, { r := 22, g := 12, b := 10 }, { r := 12, g := 10, b := 10 }])
      = true := by
  decide +kernel

/-- V-F10: an exact half of a negative amount. -/
theorem test_dither_ties :
    ends (exec .dither (buffer 3 2 2 (([10, 247, 10, 10, 10, 10] : List Byte).map gray)))
      (fun t => pixels t == ([10, 255, 6, 8, 8, 10] : List Byte).map gray) = true := by
  decide +kernel

/-- V-C6: the background by entries, not pixels. -/
theorem test_convert :
    ends (exec .convert (buffer 7 1 0 [cA, cA, cA, cA, cB, cC, cB]))
      (fun t => t.imgBg == cB && t.grp == [{ color := cA, entries := [.run 0 4] },
        { color := cC, entries := [.single 5] }] && t.imgW == 7 && t.imgH == 1 && errorIs t 10 0 0)
      = true := by
  decide +kernel

/-- V-E3: a Run across the row boundary; two colours with two entries each. -/
theorem test_convert_tie :
    ends (exec .convert (buffer 3 2 0 [cA, cA, cB, cB, cA, cA]))
      (fun t => t.imgBg == cA && t.grp == [{ color := cB, entries := [.run 2 4] }]) = true := by
  decide +kernel

/-- V-E2. -/
theorem test_encode :
    ends (exec .encode imageE2) (fun t => t.bitlen == 71 && t.bitcur == 71 && t.indexbits == 3 &&
      bytes t == bytesE2 && errorIs t 10 0 0) = true := by
  decide +kernel

/-- V-E8: the first field that does not fit. -/
theorem test_encode_overflow :
    ends (exec .encode (image 4 2 cA [{ color := cB, entries := [.single 1, .single 3, .single 5] },
      { color := cC, entries := [.run 6 8] }])) (fun t => errorIs t 12 5 105) = true := by
  decide +kernel

/-- P2: the stream of V-E10. -/
theorem test_decode :
    ends (exec .decode (stream 109 [0xFF, 0, 0, 0x08, 0x66, 0, 0x01, 0xFE, 0x1C, 0xE0, 0x1F, 0xE0,
      0x1A, 0x38]))
      (fun t => t.imgBg == cA && t.imgW == 3 && t.imgH == 3 && t.indexbits == 4 && t.bitcur == 109 &&
        t.grp == [{ color := cB, entries := [.single 3, .single 7] },
          { color := cC, entries := [.run 4 7] }] && errorIs t 10 0 0) = true := by
  decide +kernel

/-- V-E2 with `BITLEN` = 64. -/
theorem test_decode_truncated :
    ends (exec .decode (stream 64 bytesE2)) (fun t => errorIs t 4 4 63 && t.bitcur == 63) = true := by
  decide +kernel

/-- V-S3 for every reserved code: `STATUS`, `ERR`, `ERRINFO`. -/
theorem test_rsvd6 : ends (exec .rsvd6 State.reset) (fun t => errorIs t 4 2 6) = true := by decide
theorem test_rsvd7 : ends (exec .rsvd7 State.reset) (fun t => errorIs t 4 2 7) = true := by decide
theorem test_rsvd8 : ends (exec .rsvd8 State.reset) (fun t => errorIs t 4 2 8) = true := by decide
theorem test_rsvd9 : ends (exec .rsvd9 State.reset) (fun t => errorIs t 4 2 9) = true := by decide
theorem test_rsvd10 : ends (exec .rsvd10 State.reset) (fun t => errorIs t 4 2 10) = true := by decide
theorem test_rsvd11 : ends (exec .rsvd11 State.reset) (fun t => errorIs t 4 2 11) = true := by decide
theorem test_rsvd12 : ends (exec .rsvd12 State.reset) (fun t => errorIs t 4 2 12) = true := by decide
theorem test_rsvd13 : ends (exec .rsvd13 State.reset) (fun t => errorIs t 4 2 13) = true := by decide
theorem test_rsvd14 : ends (exec .rsvd14 State.reset) (fun t => errorIs t 4 2 14) = true := by decide

/-- V-S7. -/
theorem test_sreset :
    ends (exec .sreset { imageE2 with err := 4, errinfo := 63, bitlen := 9 })
      (fun t => errorIs t 0 0 0 && t.grp == [] && t.bitlen == 0 && t.imgW == 0) = true := by decide

/-- P2's first record. -/
theorem test_hdr :
    ends (exec (.hdr cA 4 3 3) { decoding with bitlen := 109 })
      (fun t => t.bitcur == 39 && t.cur.dstate == .color && t.imgW == 3 && t.indexbits == 4) = true := by
  decide

/-- P2's second record. -/
theorem test_color :
    ends (exec (.color cB) { decoding with bitcur := 39 })
      (fun t => t.bitcur == 63 && t.cur.dstate == .entry && t.cur.curc == cB) = true := by decide

/-- Inside P2's first group, before an entry. -/
def inGroup (bitcur : Nat) : State :=
  { State.reset with
    status := { busy := true, done := false, errf := false, imgv := false }
    indexbits := 4, bitlen := 109, bitcur := bitcur
    cur := { State.reset.cur with dstate := .entry, curc := cB } }

theorem test_sc :
    ends (exec (.sc 3) (inGroup 63)) (fun t => t.bitcur == 69 && t.cur.dstate == .entry &&
      t.grp == [{ color := cB, entries := [.single 3] }]) = true := by decide
theorem test_rc :
    ends (exec (.rc 0 3) (inGroup 63)) (fun t => t.bitcur == 73 && t.cur.dstate == .entry &&
      t.grp == [{ color := cB, entries := [.run 0 3] }]) = true := by decide
theorem test_st :
    ends (exec (.st 7) (inGroup 69)) (fun t => t.bitcur == 75 && t.cur.dstate == .color &&
      t.grp == [{ color := cB, entries := [.single 7] }]) = true := by decide
theorem test_rt :
    ends (exec (.rt 4 7) (inGroup 99)) (fun t => t.bitcur == 109 && t.cur.dstate == .stop &&
      t.grp == [{ color := cB, entries := [.run 4 7] }]) = true := by decide

/-! ### The host port -/

/-- The value a register reads. -/
def reads (s : State) (n : Nat) : Option (List Nat) :=
  match step { s with host := [.readReg n] } with
  | .next t => some t.reads
  | .fault _ => none
  | .refused _ => none

/-- V-S8, V-S10: the readout window. -/
theorem test_window :
    [9, 12, 13, 14, 15, 16].map (reads { imageE2 with esel := 1 }) =
      [some [1], some [255], some [2], some [0], some [3], some [0]] ∧
    [12, 13, 14, 15, 16].map (reads { imageE2 with gsel := 1 }) =
      [some [0], some [0], some [0], some [0], some [0]] ∧
    [14, 15, 16].map (reads (image 3 2 cA [{ color := cB, entries := [.run 2 4] }])) =
      [some [1], some [2], some [4]] := by decide

/-- The bits of `STATUS` (V-S8's 1010), and a number without a register. -/
theorem test_status_reads : reads imageE2 1 = some [10] ∧ reads imageE2 19 = none := by decide

/-- V-S11: read-only registers ignore a write. -/
theorem test_read_only :
    ends (step { imageE2 with host := [.writeReg 1 0] }) (fun t => t == imageE2) = true ∧
    ends (step { imageE2 with host := [.writeReg 5 9] }) (fun t => t == imageE2) = true := by decide

/-- V-S6, V-S7: an error stands until `SRESET`. -/
theorem test_errors_stick :
    ends (step { failed with host := [.writeReg 0 3] }) (fun t => t == failed) = true ∧
    ends (step { failed with host := [.writeReg 0 15] }) (fun t => errorIs t 0 0 0) = true := by decide

/-- 20_memory.md R67: stream bit 9 is bit 6 of byte 1. -/
theorem test_byte_view :
    ends (step { State.reset with host := [.writeByte 1 0x40] })
      (fun t => bitRead t 9 && !bitRead t 8 && byteRead t 1 == 0x40) = true := by decide

/-- One record of a decode in progress. -/
theorem test_step_runs_a_record :
    ends (step decoding) (fun t => t.bitcur == 37 && t.imgW == 5 && t.status.busy) = true := by
  decide +kernel

/-! ### Witnesses: for every statement with hypotheses, states and operands that meet them -/

/-- The parameters bound everything: one colour, one entry, `b` bytes. -/
def bounded (b : Nat) : Caps := { maxCol := some 1, maxEnt := some 1, maxBytes := some b, blw := none }

/-- V-E2's image, with its buffer, meets the invariant. -/
def sample : State := { imageE2 with pix := bufferE2.pix }

theorem sample_meets_the_invariant : MachineInv sample where
  cap := ⟨by decide, by decide, by decide⟩
  bitsWf := by decide
  bitsIn := by decide
  cellsWf := by decide
  cellsIn := by decide
  colours := by decide
  entries := by decide
  colourCap := by decide
  entryCap := by decide
  flags := by decide
  errCode := by decide
  errLegal := by decide
  widths := by intro r _ _ n hn; cases r <;> first | (cases hn; decide +kernel) | cases hn

theorem witness_DecodingAnEncodedInstructionGivesItBack :
    (Instr.rt 4 7).wf 4 = true ∧ (Instr.sc (2 ^ 127 - 1)).wf 127 = true ∧ (Instr.st 0).wf 0 = true ∧
    (Instr.hdr cA 127 (2 ^ 127 - 1) 0).wf 0 = true := by decide +kernel

theorem witness_DecodedBitsAreTheInstructionsWord :
    (∀ n, Slot.entry 4 = .entry n → n = 4 ∧ 4 ≤ 127) ∧
    decode (.entry 4) (word [1,1, 0,1,0,0, 0,1,1,1, 1]) = .ok (.rt 4 7, [true]) :=
  ⟨by rintro n ⟨⟩; decide, rfl⟩

/-- Each kind of record with its last bit there, and with it missing; `ib` at both ends of its range. -/
theorem witness_DecoderRejectsOnlyWhereTheBitsEnd :
    (∀ n, Slot.entry 127 = .entry n → n ≤ 127) ∧
    [fieldWidths .command [], fieldWidths .colour [], fieldWidths (.entry 4) (word [1,0]),
      fieldWidths (.entry 127) (word [1,1]), fieldWidths .header (List.replicate 31 true),
      fieldWidths .header (List.replicate 31 false)].map List.sum = [4, 24, 6, 256, 285, 31] ∧
    (decode .command (word [1,1,1,1]) = .ok (.sreset, []) ∧
      decode .command (word [1,1,1]) = .error (.endsInField 0)) ∧
    (decode .colour (List.replicate 24 false) = .ok (.color cK, []) ∧
      decode .colour (List.replicate 23 false) = .error (.endsInField 16)) ∧
    (decode (.entry 4) (word [1,0, 0,1,1,1]) = .ok (.st 7, []) ∧
      decode (.entry 4) (word [1,0, 0,1,1]) = .error (.endsInField 2)) ∧
    (decode .header (List.replicate 31 false) = .ok (.hdr cK 0 0 0, []) ∧
      decode .header (List.replicate 30 false) = .error (.endsInField 24)) :=
  ⟨by rintro n ⟨⟩; decide, by decide +kernel, ⟨rfl, rfl⟩, ⟨rfl, rfl⟩, ⟨rfl, rfl⟩, ⟨rfl, rfl⟩⟩

theorem witness_PutBitsWritesTheFieldMostSignificantBitFirst :
    (¬ fits 2 1 ∧ ¬ fits 1 0) ∧
    (fits 1 1 ∧ ¬ fitsBits (bounded 0) 1) ∧ (fits 1 1 ∧ fitsBits (bounded 1) (7 + 1)) ∧
    (fits 0 0 ∧ fitsBits (bounded 0) 0) := by decide

theorem witness_ClogIsTheLeastExponent : 1 ≤ 1 ∧ 1 ≤ 2 ^ 0 ∧ 1 ≤ 5 ∧ 5 ≤ 2 ^ 3 := by decide

theorem witness_RoundingIsToTheNearestAndTiesToEven :
    (0 : Int) < 2 ∧ 2 * |(7 : Int) - 2 * rnd 7 2| = 2 := by decide

theorem witness_DitherQuantitiesStayInRange :
    (legalLevels 2 ∧ legalLevels 256) ∧ 255 ≤ 255 ∧ ((1 : Int) ≤ 1 ∧ (1 : Int) ≤ 7) ∧
    ((1 : Int) ≤ 7 ∧ (7 : Int) ≤ 7) := by decide

/-- The buffer of V-F4. -/
def bufferF4 (levels : BitVec 16) : State := buffer 3 2 levels (List.replicate 6 (gray 100))

theorem witness_GrayTwiceIsGrayOnce :
    ∃ t u, exec .gray (bufferF4 0) = .next t ∧ exec .gray t = .next u := ⟨_, _, rfl, rfl⟩

theorem witness_DitherRefusesIllegalLevels :
    ¬ legalLevels (bufferF4 1).levels.toNat ∧ ¬ legalLevels (bufferF4 257).levels.toNat := by decide

theorem witness_DitherIsTheFoldOfItsVisits :
    legalLevels (bufferF4 2).levels.toNat ∧ legalLevels (bufferF4 256).levels.toNat := by decide

theorem witness_DitheredPixelsHoldQuantisedValues :
    legalLevels (bufferF4 2).levels.toNat ∧ (∃ t, exec .dither (bufferF4 2) = .next t) ∧
    visited (bufferF4 2) 1 0 := by
  refine ⟨by decide, ?_, by decide⟩
  obtain ⟨t, ht, -⟩ := of_ends (o := exec .dither (bufferF4 2)) (p := fun _ => true)
    (by decide +kernel)
  exact ⟨t, ht⟩

theorem witness_DitherWithAllLevelsIsTheIdentity :
    (bufferF4 256).levels = 256 ∧ ∃ t, exec .dither (bufferF4 256) = .next t := by
  refine ⟨rfl, ?_⟩
  obtain ⟨t, ht, -⟩ := of_ends (o := exec .dither (bufferF4 256)) (p := fun _ => true)
    (by decide +kernel)
  exact ⟨t, ht⟩

theorem witness_FiltersLeaveDegenerateBuffersAlone :
    ((Instr.gray = .gray) ∧ (buffer 2 5 0 []).pix.w.toNat ≤ 2) ∧
    legalLevels (buffer 5 1 2 []).levels.toNat ∧ (buffer 5 1 2 []).pix.h.toNat ≤ 1 := by decide

theorem witness_ConvertRejectsAnEmptyBuffer :
    (buffer 0 7 0 []).pix.size = 0 ∧ State.reset.pix.size = 0 := by decide

theorem witness_ConvertCompletes :
    bufferE2.pix.size ≠ 0 ∧ roomFor bufferE2.cap bufferE2.pix.size ∧
    roomFor { Caps.unbounded with maxCol := some 5, maxEnt := some 5 } 5 := by decide

theorem witness_ConvertFailsExactlyWhenACapacityIsPassed :
    ({ bufferE2 with cap := bounded 9 } : State).pix.size ≠ 0 ∧ bufferE2.status.errf = false ∧
    ends (exec .convert bufferE2) (fun t => t.status.done) = true ∧
    ends (exec .convert { bufferE2 with cap := bounded 9 })
      (fun t => !t.status.done && t.err == 6 && t.errinfo == 1) = true := by decide +kernel

theorem convert_completes_on_sample :
    ∃ t, exec .convert bufferE2 = .next t ∧ t.status.done = true :=
  of_ends (p := fun t => t.status.done) (by decide +kernel)

theorem witness_ConvertResultIsWellFormedAndLossless :
    ∃ t, exec .convert bufferE2 = .next t ∧ t.status.done = true := convert_completes_on_sample

theorem witness_BackgroundHasTheMostEntriesFirstOfATie :
    ∃ t, exec .convert (buffer 3 2 0 [cA, cA, cB, cB, cA, cA]) = .next t ∧ t.status.done = true :=
  of_ends (p := fun t => t.status.done) (by decide +kernel)

theorem witness_EncodeRefusesImagesItCannotSize :
    State.reset.status.imgv = false ∧
    ((image 0 5 cK []).status.imgv = true ∧ imageSize (image 0 5 cK []) = 0) ∧
    ((image (2 ^ 64) (2 ^ 64) cK []).status.imgv = true ∧
      127 < clog2 (imageSize (image (2 ^ 64) (2 ^ 64) cK []))) := by decide +kernel

theorem witness_EncodeWritesTheImagesStream :
    encodable imageE2 ∧ (∀ i ∈ recordsOf imageE2, i.wf (clog2 (imageSize imageE2)) = true) ∧
    fitsBits imageE2.cap (streamLength (clog2 (imageSize imageE2)) imageE2.grp) ∧
    fitsBits { Caps.unbounded with maxBytes := some 9 }
      (streamLength (clog2 (imageSize imageE2)) imageE2.grp) := by decide +kernel

/-- V-E5, whose width does not fit; V-E1 in a bit buffer of 4 bytes, whose width has no room. -/
theorem witness_EncodeReportsTheFirstFieldThatCannotBeWritten :
    (encodable (image 1 1 cA []) ∧
      fieldsOf (image 1 1 cA []) = [⟨255, 8⟩, ⟨0, 8⟩, ⟨0, 8⟩, ⟨0, 7⟩] ++ ⟨1, 0⟩ :: [⟨1, 0⟩] ∧
      ¬ fits 1 0) ∧
    (encodable { image 3 1 cA [] with cap := bounded 4 } ∧
      fieldsOf { image 3 1 cA [] with cap := bounded 4 } =
        [⟨255, 8⟩, ⟨0, 8⟩, ⟨0, 8⟩, ⟨2, 7⟩] ++ ⟨3, 2⟩ :: [⟨1, 2⟩] ∧
      fits 3 2 ∧ fitsBits (bounded 4) 31 ∧ ¬ fitsBits (bounded 4) (31 + 2)) := by decide +kernel

theorem witness_OnePixelImagesDoNotEncode :
    (image 1 1 cA []).status.imgv = true ∧ imageSize (image 1 1 cA []) = 1 ∧
    fitsBits (image 1 1 cA []).cap 31 := by decide +kernel

/-- V-E2, whose 71 bits fill a bit buffer of 9 bytes, and the same with an unbounded one. -/
theorem witness_ConvertedImagesEncodeUnlessAPowerOfTwo :
    (∀ cap ∈ [{ Caps.unbounded with maxBytes := some 9 }, Caps.unbounded],
      ∃ c, exec .convert { bufferE2 with cap := cap } = .next c ∧ (c.status.done &&
        decide (fitsBits c.cap (streamLength (clog2 (imageSize c)) c.grp))) = true) ∧
    (∀ k, bufferE2.pix.size ≠ 2 ^ k) ∧ bufferE2.pix.size ≤ 2 ^ 127 := by
  refine ⟨fun cap hcap => of_ends (p := fun c => c.status.done &&
    decide (fitsBits c.cap (streamLength (clog2 (imageSize c)) c.grp))) ?_, fun k hk => ?_,
    by decide +kernel⟩
  · revert cap
    decide +kernel
  · have h5 : (5 : Nat) = 2 ^ k := hk
    rcases Nat.lt_or_ge k 3 with h | h
    · interval_cases k <;> simp at h5
    · have := Nat.pow_le_pow_right (n := 2) (by decide) h
      omega

theorem witness_DecodeAlwaysEnds :
    streamE2.status.errf = false ∧
    ends (exec .decode streamE2) (fun t => t.status.done && t.status.imgv) = true ∧
    ends (exec .decode (stream 64 bytesE2)) (fun t => t.err == 4 && t.errinfo == 63) = true ∧
    ends (exec .decode { streamE2 with cap := bounded 9 })
      (fun t => t.err == 6 && t.errinfo == 2) = true := by decide +kernel

theorem witness_ShortHeadersAreMalformed :
    [0, 7, 8, 15, 16, 23, 24, 30].all (fun n =>
      decide ((stream n [0xFF, 0, 0, 0x08]).bitlen < 31 ∧ fitsBits Caps.unbounded n)) = true ∧
    [0, 7, 8, 15, 16, 23, 24, 30].map (fun n =>
      ends (exec .decode (stream n [0xFF, 0, 0, 0x08])) fun t => t.errinfo ==
        (if n < 8 then 0 else if n < 16 then 8 else if n < 24 then 16 else 24)) =
      List.replicate 8 true := by
  decide +kernel

theorem witness_DecodeRefusesALengthBeyondTheBuffer :
    ¬ fitsBits ({ streamE2 with cap := bounded 8 } : State).cap
      ({ streamE2 with cap := bounded 8 } : State).bitlen := by decide

/-- V-D8 names a colour twice; V-E1 has no group. -/
theorem witness_DecodeRebuildsTheImageOfItsStream :
    let groups : List ColorGroup :=
      [{ color := cB, entries := [.single 1] }, { color := cB, entries := [.single 2] }]
    let s := stream 91 [0, 0, 0, 0x05, 0xA0, 0, 0x1F, 0xF2, 0, 0x01, 0xFF, 0x40]
    ((∀ i ∈ imageRecords 2 3 1 cK groups, i.wf 2 = true) ∧ (∀ g ∈ groups, g.entries ≠ []) ∧
      s.bitlen = streamLength 2 groups ∧ fitsBits s.cap s.bitlen ∧
      bitsAt s 0 s.bitlen = bitsOf 2 (imageRecords 2 3 1 cK groups) ∧ roomForGroups s.cap groups) ∧
    (stream 35 [0xFF, 0, 0, 0x05, 0xA0]).bitlen = streamLength 2 [] ∧
    bitsAt (stream 35 [0xFF, 0, 0, 0x05, 0xA0]) 0 35 = bitsOf 2 (imageRecords 2 3 1 cA []) := by
  decide +kernel

theorem encode_completes_on_sample :
    ∃ t, exec .encode sample = .next t ∧ t.status.done = true :=
  of_ends (p := fun t => t.status.done) (by decide +kernel)

theorem witness_DecodeOfAnEncodedImageGivesItBack :
    MachineInv sample ∧ sample.status.busy = false ∧
    ∃ t, exec .encode sample = .next t ∧ t.status.done = true :=
  ⟨sample_meets_the_invariant, rfl, encode_completes_on_sample⟩

theorem witness_RoundTripReconstructsThePixelBuffer :
    ∃ c, exec .convert bufferE2 = .next c ∧ c.status.done = true ∧
    ∃ e, exec .encode c = .next e ∧ e.status.done = true := by
  obtain ⟨c, hc, h⟩ := of_ends (o := exec .convert bufferE2)
    (p := fun c => c.status.done && ends (exec .encode c) fun e => e.status.done) (by decide +kernel)
  rw [Bool.and_eq_true] at h
  exact ⟨c, hc, h.1, of_ends h.2⟩

theorem witness_ATruncatedStreamIsMalformed :
    MachineInv sample ∧ sample.status.busy = false ∧
    ∃ t, exec .encode sample = .next t ∧ t.status.done = true :=
  witness_DecodeOfAnEncodedImageGivesItBack

theorem witness_DecodeIsItsRecordsOneStepAtATime :
    streamE2.host = [] ∧ fitsBits streamE2.cap streamE2.bitlen := by decide

theorem witness_HdrWritesTheImageRegisters :
    (fits 0 (0 : BitVec 7).toNat) ∧ fits (2 ^ 127 - 1) (127 : BitVec 7).toNat := by decide +kernel

theorem witness_EntryRecordsAppendToTheCurrentGroup :
    [Instr.sc 3, .rc 0 3, .st 3, .rt 0 3].map entryOf? = [some (.single 3, false, 1),
      some (.run 0 3, false, 2), some (.single 3, true, 1), some (.run 0 3, true, 2)] ∧
    canAppend (inGroup 63) (inGroup 63).cur.curc ∧
    canAppend { inGroup 63 with cap := bounded 20 } cB := by decide

theorem witness_EntryRecordsRaiseWhenTheStoreIsFull :
    entryOf? (.sc 3) = some (.single 3, false, 1) ∧
    ¬ canAppend { inGroup 63 with cap := bounded 20, grp := [{ color := cA, entries := [.single 0] }] } cB ∧
    ¬ canAppend { inGroup 63 with cap := bounded 20, grp := [{ color := cB, entries := [.single 0] }] } cB :=
  by decide

theorem witness_AppendAddsOneEntryToOneGroup :
    append (bounded 0) [{ color := cA, entries := [.single 0] }] cB (.single 1) = .error 1 ∧
    append (bounded 0) [{ color := cA, entries := [.single 0] }] cA (.single 1) = .error 2 ∧
    append (bounded 0) [] cA (.single 1) = .ok [{ color := cA, entries := [.single 1] }] ∧
    append Caps.unbounded [{ color := cA, entries := [.single 0] }] cA (.single 1) =
      .ok [{ color := cA, entries := [.single 0, .single 1] }] := ⟨rfl, rfl, rfl, rfl⟩

theorem witness_HardwareResetIsAcceptedAtAnyTime :
    ({ decoding with host := [.hardReset] } : State).host = .hardReset :: [] ∧
    decoding.status.busy = true := by decide

theorem witness_StepRunsTheCommandTheHostWrites :
    (({ imageE2 with host := [.writeReg 0 4] } : State).host = .writeReg 0 4 :: [] ∧
      imageE2.status.busy = false ∧ imageE2.status.errf = false) ∧
    failed.status.busy = false ∧ failed.status.errf = true ∧ 31 % 16 = 15 := by decide

theorem witness_StepRunsTheRecordAtBitcur :
    decoding.status.busy = true ∧ decoding.host = [] ∧ recordSlot decoding = some .header ∧
    decode .header (window decoding) =
      .ok (.hdr cA 3 5 1, (window decoding).drop 37) := ⟨rfl, rfl, rfl, rfl⟩

theorem witness_IgnoredCommandWritesChangeNothing :
    decoding.status.busy = true ∧ failed.status.errf = true ∧ 14 % 16 ≠ 15 ∧ 0 % 16 ≠ 15 := by decide

theorem witness_HostAccessesWhileBusyAreRefused :
    decoding.status.busy = true ∧ HostMove.readReg 1 = .readReg Reg.status.number ∧
    (Reg.bitcur ≠ .status ∧ Reg.bitcur ≠ .cmd) ∧
    ({ decoding with host := [.readReg 18] } : State).host = .readReg Reg.bitcur.number :: [] := by decide

theorem witness_ErrorsStandUntilAReset :
    failed.status.busy = false ∧ failed.status.errf = true ∧
    (∃ t, step { failed with host := [.writeReg 0 3] } = .next t) ∧
    (∀ v, ({ failed with host := [.writeReg 0 3] } : State).host.head? = some (.writeReg 0 v) →
      v % 16 ≠ 15) ∧
    ({ failed with host := [.writeReg 0 3] } : State).host.head? ≠ some .hardReset := by
  refine ⟨rfl, rfl, ⟨_, rfl⟩, ?_, by decide⟩
  rintro v ⟨⟩
  decide

theorem witness_ReadingARegisterChangesNothing :
    ({ imageE2 with host := [.readReg 0] } : State).host = .readReg Reg.cmd.number :: [] ∧
    ({ imageE2 with host := [.readReg 18] } : State).host = .readReg Reg.bitcur.number :: [] ∧
    imageE2.status.busy = false := by decide

theorem witness_HostWritesReachFourRegistersOnly :
    ({ imageE2 with host := [.writeReg 4 65536] } : State).host = .writeReg Reg.levels.number 65536 :: [] ∧
    imageE2.status.busy = false ∧ Reg.levels ≠ .cmd ∧ Reg.levels ∈ [Reg.levels, .gsel, .esel, .bitlen] ∧
    Reg.status ∉ [Reg.levels, .gsel, .esel, .bitlen] ∧ Reg.status ≠ Reg.levels ∧
    outsideWindow .status := by decide

theorem witness_HostBytesAreEightStreamBits :
    ({ imageE2 with host := [.writeByte 1 0x40, .readByte 1] } : State).host =
      .writeByte 1 0x40 :: .readByte 1 :: [] ∧ imageE2.status.busy = false ∧
    hasByte imageE2.cap 1 ∧ hasByte (bounded 2) 1 ∧ ¬ hasByte (bounded 1) 1 := by decide

theorem witness_ReadoutWindowShowsTheSelectedEntry :
    imageE2.grp[imageE2.gsel]? = some { color := cB, entries := [.single 1, .single 3] } ∧
    ([Entry.single 1, .single 3][imageE2.esel]? = some (.single 1)) ∧
    ([Entry.run 2 4][imageE2.esel]? = some (.run 2 4)) ∧
    [Entry.single 1, .single 3].length ≤ ({ imageE2 with esel := 2 } : State).esel ∧
    imageE2.grp.length ≤ ({ imageE2 with gsel := 1 } : State).gsel := by decide

theorem witness_AnIdleBlockDoesNothing :
    imageE2.status.busy = false ∧ imageE2.host = [] ∧
    ({ imageE2 with host := [.wait] } : State).host = .wait :: [] := by decide

theorem witness_EachInstructionWritesOnlyItsOwnState :
    Instr.nop.slot 0 = .command ∧ Instr.nop ≠ .sreset ∧ Instr.nop ≠ .gray ∧ Instr.nop ≠ .dither ∧
    Instr.nop ≠ .encode := by decide

theorem witness_OnlyConvertDecodeAndResetsChangeTheImage :
    imageE2.status.busy = false ∧ (∃ t, step { imageE2 with host := [.writeReg 0 4] } = .next t) ∧
    ({ imageE2 with host := [.writeReg 0 4] } : State).host.head? ≠ some .hardReset ∧
    ∀ v, ({ imageE2 with host := [.writeReg 0 4] } : State).host.head? = some (.writeReg 0 v) →
      v % 16 ≠ 3 ∧ v % 16 ≠ 5 ∧ v % 16 ≠ 15 := by
  refine ⟨rfl, ?_, by decide, ?_⟩
  · obtain ⟨t, ht, -⟩ := of_ends (o := step { imageE2 with host := [.writeReg 0 4] })
      (p := fun _ => true) (by decide +kernel)
    exact ⟨t, ht⟩
  · rintro v ⟨⟩
    decide

theorem witness_EveryStepKeepsTheMachineInvariant :
    MachineInv sample ∧ ∃ t, step sample = .next t := ⟨sample_meets_the_invariant, _, rfl⟩

end Sys2Proof.Tests
end

section
/-! What `clog2` and `rnd` answer (00_scope.md R12, R13), and the two obligations about them. -/

namespace Sys2Proof.Machine

/-! ### clog2 -/

/-- The model's `clog2` is the library's rounded-up logarithm to base 2. -/
theorem clog2_eq_clog (n : Nat) : clog2 n = Nat.clog 2 n := by
  by_cases hn : n ≤ 1
  · rw [clog2, if_pos hn, Nat.clog_of_right_le_one hn]
  · have hpred : n - 1 ≠ 0 := by omega
    refine eq_of_forall_ge_iff fun k => ?_
    rw [clog2, if_neg hn, Nat.clog_le_iff_le_pow Nat.one_lt_two, Nat.add_one_le_iff, Nat.log2_lt hpred]
    omega

/-- R12 as one equivalence: the exponents at or above `clog2 n` are those whose power reaches `n`. -/
theorem clog2_le_iff {n k : Nat} : clog2 n ≤ k ↔ n ≤ 2 ^ k := by
  rw [clog2_eq_clog, Nat.clog_le_iff_le_pow Nat.one_lt_two]

theorem le_two_pow_clog2 (n : Nat) : n ≤ 2 ^ clog2 n := clog2_le_iff.1 le_rfl

theorem clog2_two_pow (k : Nat) : clog2 (2 ^ k) = k := by
  rw [clog2_eq_clog, Nat.clog_pow 2 k Nat.one_lt_two]

/-- One past a power of two needs the next exponent. -/
theorem clog2_two_pow_add_one (k : Nat) : clog2 (2 ^ k + 1) = k + 1 := by
  have hpos : 0 < 2 ^ k := Nat.two_pow_pos k
  refine le_antisymm (clog2_le_iff.2 ?_) (Nat.lt_of_not_le fun h => ?_)
  · rw [pow_succ]
    omega
  · exact Nat.not_succ_le_self _ (clog2_le_iff.1 h)

/-! ### rnd -/

/-- All that `rnd` can answer: the floor when the remainder is less than half the divisor, the next
integer when it is more, and at an exact half the even one of the two. -/
theorem rnd_cases (p q : Int) :
    (rnd p q = p / q ∧ (2 * (p % q) < q ∨ 2 * (p % q) = q ∧ p / q % 2 = 0)) ∨
    (rnd p q = p / q + 1 ∧ (q < 2 * (p % q) ∨ 2 * (p % q) = q ∧ (p / q + 1) % 2 = 0)) := by
  have hmod : p - p / q * q = p % q := by rw [Int.emod_def, mul_comm]
  simp only [rnd, hmod]
  split
  case isTrue hbelow => exact .inl ⟨rfl, .inl hbelow⟩
  split
  case isTrue habove => exact .inr ⟨rfl, .inl habove⟩
  have hhalf : 2 * (p % q) = q := by omega
  split
  case isTrue heven => exact .inl ⟨rfl, .inr ⟨hhalf, heven⟩⟩
  case isFalse hodd => exact .inr ⟨rfl, .inr ⟨hhalf, by omega⟩⟩

theorem sub_mul_floor (p q : Int) : p - q * (p / q) = p % q := (Int.emod_def p q).symm

theorem sub_mul_floor_add_one (p q : Int) : p - q * (p / q + 1) = p % q - q := by
  rw [Int.emod_def]
  ring

/-- R13, first half: `rnd p q` is at most half a unit away from `p/q`. -/
theorem rnd_nearest {q : Int} (p : Int) (hq : 0 < q) : 2 * |p - q * rnd p q| ≤ q := by
  have hnonneg : 0 ≤ p % q := Int.emod_nonneg p hq.ne'
  have hlt : p % q < q := Int.emod_lt_of_pos p hq
  rcases rnd_cases p q with ⟨hr, hrem⟩ | ⟨hr, hrem⟩
  · rw [hr, sub_mul_floor, abs_of_nonneg hnonneg]
    omega
  · rw [hr, sub_mul_floor_add_one, abs_of_neg (by omega)]
    omega

/-- R13, second half: an exact half goes to the even neighbour. -/
theorem rnd_even_of_half {p q : Int} (hq : 0 < q) (hhalf : 2 * |p - q * rnd p q| = q) :
    rnd p q % 2 = 0 := by
  have hnonneg : 0 ≤ p % q := Int.emod_nonneg p hq.ne'
  have hlt : p % q < q := Int.emod_lt_of_pos p hq
  rcases rnd_cases p q with ⟨hr, hrem⟩ | ⟨hr, hrem⟩
  · rw [hr, sub_mul_floor, abs_of_nonneg hnonneg] at hhalf
    rw [hr]
    omega
  · rw [hr, sub_mul_floor_add_one, abs_of_neg (by omega)] at hhalf
    rw [hr]
    omega

/-- An integer nearer to `p/q` than half a unit is `rnd p q`. -/
theorem rnd_eq_of_near {p q m : Int} (hm : 2 * |p - q * m| < q) : rnd p q = m := by
  have hq : 0 < q := lt_of_le_of_lt (by positivity) hm
  have hdist : (p - q * m) - (p - q * rnd p q) = q * (rnd p q - m) := by ring
  have hclose : q * |rnd p q - m| < q * 1 := by
    calc q * |rnd p q - m| = |(p - q * m) - (p - q * rnd p q)| := by
          rw [hdist, abs_mul, abs_of_pos hq]
      _ ≤ |p - q * m| + |p - q * rnd p q| := abs_sub _ _
      _ < q * 1 := by linarith [rnd_nearest p hq]
  exact sub_eq_zero.1 (Int.abs_lt_one_iff.1 (lt_of_mul_lt_mul_left hclose hq.le))

theorem rnd_mul_self {q : Int} (p : Int) (hq : 0 < q) : rnd (p * q) q = p :=
  rnd_eq_of_near (by rwa [mul_comm p q, sub_self, abs_zero, mul_zero])

/-! ### The obligations -/

/-- Settles O6: all of it follows from `clog2_le_iff`. -/
theorem clogIsTheLeastExponent : Obligations.ClogIsTheLeastExponent :=
  ⟨fun n _ => ⟨le_two_pow_clog2 n, fun _ => clog2_le_iff.2⟩,
    fun k => ⟨clog2_two_pow k, clog2_two_pow_add_one k⟩⟩

/-- Settles O7, by the cases of `rnd`; an exact quotient is its own nearest integer. -/
theorem roundingIsToTheNearestAndTiesToEven : Obligations.RoundingIsToTheNearestAndTiesToEven :=
  fun p _ hq => ⟨rnd_nearest p hq, rnd_even_of_half hq, rnd_mul_self p hq⟩

end Sys2Proof.Machine
end

section
/-! Which runs of a command keep a property of the state, and what an error they raise says. The loops of
the converter, the encoder and the filters are walked here once; the invariant and the frames use it. -/

namespace Sys2Proof.Machine

/-! ### Runs -/

/-- `ERRINFO` of an error that a command raises in the middle of its work: a reason of at most 3, or the
position `BITLEN` of a field that does not fit (60_exceptions.md R242 to R247). -/
def Run.InfoBounded : Run → Prop
  | .ok _ => True
  | .raised _ info s => info ≤ 3 ∨ info = s.bitlen

/-- A run that ends, with or without an error, in a state with `P`, and whose error says what
`InfoBounded` allows. -/
structure Run.Keeps (P : State → Prop) (r : Run) : Prop where
  state : P r.state
  info : r.InfoBounded

theorem keeps_ok {P : State → Prop} {s : State} (h : P s) : (Run.ok s).Keeps P := ⟨h, trivial⟩

theorem keeps_raised {P : State → Prop} {s : State} {e : ErrorKind} {info : Nat} (h : P s)
    (hi : info ≤ 3 ∨ info = s.bitlen) : (Run.raised e info s).Keeps P := ⟨h, hi⟩

theorem Run.Keeps.bind {P : State → Prop} {r : Run} {f : State → Run} (hr : r.Keeps P)
    (hf : ∀ s, P s → (f s).Keeps P) : (r.bind f).Keeps P := by
  cases r with
  | ok s => exact hf s hr.state
  | raised e info s => exact hr

theorem Run.Keeps.imp {P Q : State → Prop} {r : Run} (h : r.Keeps P) (hpq : ∀ s, P s → Q s) :
    r.Keeps Q := ⟨hpq _ h.state, h.info⟩

theorem infoBounded_bind {r : Run} {f : State → Run} (hr : r.InfoBounded)
    (hf : ∀ s, (f s).InfoBounded) : (r.bind f).InfoBounded := by
  cases r with
  | ok s => exact hf s
  | raised e info s => exact hr

/-! ### The filters -/

theorem getOrRaise_infoBounded {s : State} {x y : Nat} {k : Color → Run}
    (hk : ∀ c, (k c).InfoBounded) : (getOrRaise s x y k).InfoBounded := by
  unfold getOrRaise
  cases pixGet s x y with
  | none => exact .inl (by omega)
  | some c => exact hk c

theorem setOrRaise_infoBounded (s : State) (x y : Nat) (c : Color) :
    (setOrRaise s x y c).InfoBounded := by
  unfold setOrRaise
  cases pixSet s x y c with
  | none => exact .inl (by omega)
  | some t => trivial

theorem diffuse_infoBounded (levels : Nat) (p : Color) (nx ny : Nat) (wt : Int) (s : State) :
    (diffuse levels p nx ny wt s).InfoBounded := by
  unfold diffuse
  split
  · exact getOrRaise_infoBounded fun _ => setOrRaise_infoBounded _ _ _ _
  · trivial

theorem grayVisit_infoBounded (s : State) : (grayVisit s).InfoBounded :=
  getOrRaise_infoBounded fun _ => setOrRaise_infoBounded _ _ _ _

theorem ditherVisit_infoBounded (levels : Nat) (s : State) : (ditherVisit levels s).InfoBounded :=
  getOrRaise_infoBounded fun _ =>
    infoBounded_bind (setOrRaise_infoBounded _ _ _ _) fun _ =>
    infoBounded_bind (diffuse_infoBounded _ _ _ _ _ _) fun _ =>
    infoBounded_bind (diffuse_infoBounded _ _ _ _ _ _) fun _ =>
    infoBounded_bind (diffuse_infoBounded _ _ _ _ _ _) fun _ => diffuse_infoBounded _ _ _ _ _ _

theorem forCols_infoBounded {visit : State → Run} (hv : ∀ s, (visit s).InfoBounded) :
    ∀ n s, (forCols visit n s).InfoBounded
  | 0, _ => trivial
  | n + 1, s => infoBounded_bind (hv s) fun _ => forCols_infoBounded hv n _

theorem forRows_infoBounded {visit : State → Run} (hv : ∀ s, (visit s).InfoBounded) (cols : Nat) :
    ∀ n s, (forRows visit cols n s).InfoBounded
  | 0, _ => trivial
  | n + 1, _ => infoBounded_bind (forCols_infoBounded hv cols _) fun _ =>
    forRows_infoBounded hv cols n _

/-- A filter's pass with visits that keep `P`. -/
theorem filterPass_run_keeps {P : State → Prop} {visit : State → Run}
    (hv : ∀ s, P s → P (visit s).state) (hi : ∀ s, (visit s).InfoBounded)
    (hcur : ∀ s c, P s → P { s with cur := c }) {s : State} (h : P s) :
    (filterPass visit s).Keeps P :=
  ⟨filterPass_keeps hv hcur s h, forRows_infoBounded hi _ _ _⟩

/-! ### The scan -/

/-- The two reasons `Append` raises for (10_state.md R41). -/
theorem append_error_info {cap : Caps} {grp : List ColorGroup} {c : Color} {e : Entry} {info : Nat}
    (h : append cap grp c e = .error info) : info = 1 ∨ info = 2 := by
  rcases append_cases h with ⟨hr, -⟩ | ⟨hr, -⟩ | ⟨hr, -⟩
  · cases hr; exact .inl rfl
  · cases hr; exact .inr rfl
  · cases hr

theorem atOrRaise_keeps {P : State → Prop} {s : State} {i : Nat} {k : Color → Run} (h : P s)
    (hk : ∀ c, (k c).Keeps P) : (atOrRaise s i k).Keeps P := by
  unfold atOrRaise
  cases pixAt s i with
  | none => exact keeps_raised h (.inl (by omega))
  | some c => exact hk c

section
variable {P : State → Prop} (hcur : ∀ s c, P s → P { s with cur := c })
  (happ : ∀ s c e grp, P s → append s.cap s.grp c e = .ok grp → P { s with grp := grp })

include happ in
theorem appendOrRaise_keeps {s : State} {c : Color} {e : Entry} (h : P s) :
    (appendOrRaise s c e).Keeps P := by
  unfold appendOrRaise
  cases ha : append s.cap s.grp c e with
  | ok grp => exact keeps_ok (happ s c e grp h ha)
  | error info => exact keeps_raised h (.inl (by have := append_error_info ha; omega))

include hcur in
theorem runEnd_keeps (n : Nat) (c : Color) : ∀ fuel s, P s → (runEnd n c fuel s).Keeps P := by
  intro fuel
  induction fuel with
  | zero => exact fun s h => keeps_ok h
  | succ fuel ih =>
    intro s h
    unfold runEnd
    split
    · refine atOrRaise_keeps h fun c' => ?_
      split
      · exact ih _ (hcur s _ h)
      · exact keeps_ok h
    · exact keeps_ok h

include hcur happ

theorem singletonStep_keeps {s : State} (c : Color) (h : P s) : (singletonStep c s).Keeps P :=
  (appendOrRaise_keeps happ h).bind fun t ht => keeps_ok (hcur t _ ht)

theorem runStep_keeps {s : State} (n : Nat) (c : Color) (h : P s) : (runStep n c s).Keeps P :=
  (runEnd_keeps hcur n c _ _ (hcur s _ h)).bind fun _ h₁ =>
    (appendOrRaise_keeps happ h₁).bind fun t ht => keeps_ok (hcur t _ ht)

theorem scanStep_keeps {s : State} (n : Nat) (h : P s) : (scanStep n s).Keeps P := by
  refine atOrRaise_keeps h fun c => ?_
  split
  · refine atOrRaise_keeps h fun c' => ?_
    split
    · exact runStep_keeps hcur happ n c h
    · exact singletonStep_keeps hcur happ c h
  · exact singletonStep_keeps hcur happ c h

/-- The scan of `CONVERT` keeps what `Append` and the moves of the cursors keep. -/
theorem scan_keeps (n : Nat) : ∀ fuel s, P s → (scan n fuel s).Keeps P := by
  intro fuel
  induction fuel with
  | zero => exact fun s h => keeps_ok h
  | succ fuel ih =>
    intro s h
    unfold scan
    split
    · exact (scanStep_keeps hcur happ n h).bind ih
    · exact keeps_ok h

end

/-! ### The encoder -/

theorem putBits_infoBounded (f : BitField) (s : State) : (putBits f s).InfoBounded := by
  rcases putBits_cases f s with ⟨-, h⟩ | ⟨-, -, h⟩ | ⟨-, -, h⟩ <;> rw [h]
  · exact .inr rfl
  · exact .inl le_rfl
  · trivial

theorem putFields_infoBounded : ∀ fs s, (putFields fs s).InfoBounded
  | [], _ => trivial
  | f :: fs, s => infoBounded_bind (putBits_infoBounded f s) (putFields_infoBounded fs)

section
variable {P : State → Prop} (hput : ∀ f s, P s → P (putBits f s).state)

include hput in
theorem emit_keeps (ib : Nat) (i : Instr) {s : State} (h : P s) : (emit ib i s).Keeps P :=
  ⟨putFields_keeps hput _ s h, putFields_infoBounded _ s⟩

variable (hcur : ∀ s c, P s → P { s with cur := c })
include hput hcur

theorem emitEntries_keeps (ib : Nat) : ∀ es s, P s → (emitEntries ib es s).Keeps P
  | [], _, h => keeps_ok h
  | _ :: es, _, h => (emit_keeps hput ib _ h).bind fun t ht =>
    emitEntries_keeps ib es _ (hcur t _ ht)

theorem emitGroups_keeps (ib : Nat) : ∀ gs s, P s → (emitGroups ib gs s).Keeps P
  | [], _, h => keeps_ok h
  | _ :: gs, _, h => (emit_keeps hput ib _ h).bind fun t ht =>
    (emitEntries_keeps hput hcur ib _ _ (hcur t _ ht)).bind fun u hu =>
    emitGroups_keeps ib gs _ (hcur u _ hu)

/-- The stream of `ENCODE` keeps what a field, the padding and the moves of the cursors keep. -/
theorem emitImage_keeps (hpad : ∀ s, P s → P (padLastByte s)) (ib : Nat) {s : State} (h : P s) :
    (emitImage ib s).Keeps P :=
  (emit_keeps hput ib _ h).bind fun t ht =>
    (emitGroups_keeps hput hcur ib _ _ (hcur t _ ht)).bind fun u hu => keeps_ok (hpad u hu)

end

end Sys2Proof.Machine
end

section
/-! What a tick of the record sequencer and a move of the host can do, said once each, and that a `DECODE`
ends. -/

namespace Sys2Proof

/-! ### The length of a record -/

theorem readField_eq_ok {β : Type} {n offset : Nat} {bits : List Bool}
    {k : Nat → List Bool → Except Reject β} {r : β} (h : readField n offset bits k = .ok r) :
    ∃ v rest, v < 2 ^ n ∧ n + rest.length = bits.length ∧ k v rest = .ok r := by
  rcases readField_cases h with ⟨-, hr⟩ | ⟨front, rest, hlen, rfl, hr⟩
  · cases hr
  · exact ⟨_, rest, hlen ▸ bitsVal_lt front, by simp [hlen], hr.symm⟩

/-- A rejection names the start of a field, which does not lie past the end of the bits. -/
theorem readField_offset_le {β : Type} {n offset o : Nat} {bits : List Bool}
    {k : Nat → List Bool → Except Reject β}
    (hk : ∀ v rest, k v rest = .error (.endsInField o) → o ≤ offset + n + rest.length)
    (h : readField n offset bits k = .error (.endsInField o)) : o ≤ offset + bits.length := by
  rcases readField_cases h with ⟨-, hr⟩ | ⟨front, rest, hlen, rfl, hr⟩
  · cases hr
    omega
  · have := hk _ rest hr.symm
    simp only [List.length_append]
    omega

theorem decode_offset_le {slot : Slot} {bits : List Bool} {offset : Nat}
    (h : decode slot bits = .error (.endsInField offset)) : offset ≤ bits.length := by
  rw [← Nat.zero_add bits.length]
  cases slot with
  | command =>
    rw [decode, decodeCommand] at h
    exact readField_offset_le (by simp) h
  | colour =>
    rw [decode, decodeColour] at h
    exact readField_offset_le (fun _ _ => readField_offset_le fun _ _ =>
      readField_offset_le (by simp)) h
  | header =>
    rw [decode, decodeHeader] at h
    exact readField_offset_le (fun _ _ => readField_offset_le fun _ _ => readField_offset_le fun _ _ =>
      readField_offset_le fun _ _ => readField_offset_le fun _ _ => readField_offset_le (by simp)) h
  | entry ib =>
    rw [decode, decodeEntry] at h
    refine readField_offset_le (fun t _ => readField_offset_le fun a rest h => ?_) h
    split at h
    · exact readField_offset_le (by simp) h
    · cases h

/-- A record that is read takes as many bits as its word has (30_encoding.md R94, R98). -/
theorem decode_record_length {slot : Slot} {ib : Nat} {bits rest : List Bool} {i : Instr}
    (hc : slot ≠ .command) (hs : ∀ n, slot = .entry n → n = ib)
    (h : decode slot bits = .ok (i, rest)) : i.length ib + rest.length = bits.length := by
  cases slot with
  | command => exact absurd rfl hc
  | colour =>
    rw [decode, decodeColour] at h
    obtain ⟨r, _, -, h₁, h⟩ := readField_eq_ok h
    obtain ⟨g, _, -, h₂, h⟩ := readField_eq_ok h
    obtain ⟨b, _, -, h₃, h⟩ := readField_eq_ok h
    cases h
    simp only [Instr.length]
    omega
  | header =>
    rw [decode, decodeHeader] at h
    obtain ⟨r, _, -, h₁, h⟩ := readField_eq_ok h
    obtain ⟨g, _, -, h₂, h⟩ := readField_eq_ok h
    obtain ⟨b, _, -, h₃, h⟩ := readField_eq_ok h
    obtain ⟨hib, _, hlt, h₄, h⟩ := readField_eq_ok h
    obtain ⟨w, _, -, h₅, h⟩ := readField_eq_ok h
    obtain ⟨h', _, -, h₆, h⟩ := readField_eq_ok h
    cases h
    simp only [Instr.length, BitVec.toNat_ofNat, Nat.mod_eq_of_lt hlt]
    omega
  | entry n =>
    cases hs n rfl
    rw [decode, decodeEntry] at h
    obtain ⟨t, _, -, h₁, h⟩ := readField_eq_ok h
    obtain ⟨a, _, -, h₂, h⟩ := readField_eq_ok h
    split at h
    · obtain ⟨b, _, -, h₃, h⟩ := readField_eq_ok h
      split at h <;> cases h <;> simp only [Instr.length] <;> omega
    · split at h <;> cases h <;> simp only [Instr.length] <;> omega

theorem two_le_length (ib : Nat) (i : Instr) : 2 ≤ i.length ib := by
  cases i <;> simp only [Instr.length] <;> omega

end Sys2Proof

namespace Sys2Proof.Machine

/-! ### The tick -/

/-- What one record leaves when it raises no error: the cursor is past its `n` bits, image registers,
`INDEXBITS` and sequencer are as the record says, and an entry has gone through `Append`
(43_decoder.md R213 to R218). -/
def RecordDone (n : Nat) (s t : State) : Prop :=
  ∃ w h bg ib grp cur, (grp = s.grp ∨ ∃ c e, append s.cap s.grp c e = .ok grp) ∧
    t = { advance n s with
      imgW := w, imgH := h, imgBg := bg, indexbits := ib, grp := grp, cur := cur }

theorem parseEntry_done_or_raised (n : Nat) (e : Entry) (terminal : Bool) (s : State) :
    RecordDone n s (parseEntry n e terminal s) ∨
    ∃ info, (info = 1 ∨ info = 2) ∧
      parseEntry n e terminal s = decodeError .capacityExceeded info (forgetBitcur (advance n s)) := by
  rcases parseEntry_cases n e terminal s with ⟨grp, ha, hp⟩ | ⟨info, ha, hp⟩
  · refine .inl ⟨s.imgW, s.imgH, s.imgBg, s.indexbits, grp, (parseEntry n e terminal s).cur,
      .inr ⟨_, e, ha⟩, ?_⟩
    rw [hp]
    cases terminal <;> rfl
  · exact .inr ⟨info, append_error_info ha, hp⟩

/-- All that a record can do (43_decoder.md R213 to R218). -/
theorem recordEffect_cases {i : Instr} (s : State) (h : ∀ ib, i.slot ib ≠ .command) :
    RecordDone (i.length s.indexbits.toNat) s (recordEffect i s) ∨
    ∃ info, (info = 1 ∨ info = 2) ∧ recordEffect i s = decodeError .capacityExceeded info
      (forgetBitcur (advance (i.length s.indexbits.toNat) s)) := by
  cases i with
  | hdr bg ib w h => exact .inl ⟨_, _, bg, ib, s.grp, _, .inl rfl, rfl⟩
  | color c => exact .inl ⟨_, _, _, _, s.grp, _, .inl rfl, rfl⟩
  | sc a => exact parseEntry_done_or_raised _ _ _ s
  | rc a b => exact parseEntry_done_or_raised _ _ _ s
  | st a => exact parseEntry_done_or_raised _ _ _ s
  | rt a b => exact parseEntry_done_or_raised _ _ _ s
  | _ => exact absurd rfl (h 0)

/-- All that a tick of the sequencer can do: end, run the record at `BITCUR`, which ends before `BITLEN`,
or reject a field that starts before `BITLEN` (43_decoder.md R210, R212). -/
theorem decodeTick_cases (s : State) :
    decodeTick s = completeDecode s ∨
    (∃ i, (∀ ib, i.slot ib ≠ .command) ∧
      i.length s.indexbits.toNat ≤ s.bitlen - s.bitcur ∧ decodeTick s = recordEffect i s) ∨
    ∃ offset ≤ s.bitlen - s.bitcur, decodeTick s = malformed offset s := by
  have hwin : (window s).length ≤ s.bitlen - s.bitcur := by simp [window]
  unfold decodeTick fetchRecord
  cases hs : recordSlot s with
  | none => exact .inl rfl
  | some slot =>
    have hc := recordSlot_ne_command hs
    have hib : ∀ n, slot = .entry n → n = s.indexbits.toNat := by
      rintro n rfl
      unfold recordSlot at hs
      cases hd : s.cur.dstate <;> simp [hd] at hs
      exact hs.symm
    cases hd : decode slot (window s) with
    | ok r =>
      obtain ⟨i, rest⟩ := r
      have hlen := decode_record_length hc hib hd
      exact .inr (.inl ⟨i, decode_no_command hc hd, by omega, by simp [hd]⟩)
    | error e =>
      obtain ⟨offset⟩ := e
      exact .inr (.inr ⟨offset, (decode_offset_le hd).trans hwin, by simp [hd]⟩)

/-- A tick ends the `DECODE`, or moves `BITCUR` towards `BITLEN` (43_decoder.md R221). -/
theorem decodeTick_progress (s : State) : (decodeTick s).status.busy = false ∨
    ((decodeTick s).bitlen = s.bitlen ∧
      s.bitcur < (decodeTick s).bitcur ∧ (decodeTick s).bitcur ≤ s.bitlen) := by
  rcases decodeTick_cases s with h | ⟨i, hi, hlen, h⟩ | ⟨offset, -, h⟩ <;> rw [h]
  · exact .inl rfl
  · have htwo := two_le_length s.indexbits.toNat i
    rcases recordEffect_cases s hi with ⟨_, _, _, _, _, _, -, hr⟩ | ⟨info, -, hr⟩ <;> rw [hr]
    · refine .inr ⟨rfl, ?_, ?_⟩ <;> simp only [advance_bitcur] <;> omega
    · exact .inl rfl
  · exact .inl rfl

/-- The sequencer ends within one tick more than there are bits (43_decoder.md R221). -/
theorem runDecode_ends : ∀ fuel s, s.bitlen - s.bitcur < fuel →
    (runDecode fuel s).status.busy = false := by
  intro fuel
  induction fuel with
  | zero => exact fun s h => absurd h (Nat.not_lt_zero _)
  | succ fuel ih =>
    intro s h
    rw [runDecode_succ]
    cases hb : s.status.busy
    · exact hb
    · rcases decodeTick_progress s with ht | ⟨hlen, hlt, hle⟩
      · simpa [runDecode_idle ht] using ht
      · exact ih _ (by omega)

theorem runDecode_keeps {P : State → Prop}
    (ht : ∀ s, P s → s.status.busy = true → P (decodeTick s)) :
    ∀ fuel s, P s → P (runDecode fuel s) := by
  intro fuel
  induction fuel with
  | zero => exact fun s h => h
  | succ fuel ih =>
    intro s h
    rw [runDecode_succ]
    split
    · next hb => exact ih _ (ht s h hb)
    · exact h

/-! ### The commands -/

/-- `DITHER` passes over the buffer, or refuses its `LEVELS` (40_filters.md R140). -/
theorem execDither_cases (s : State) :
    (legalLevels s.levels.toNat ∧ execDither s =
      .next ((filterPass (ditherVisit s.levels.toNat) (accept s)).finish forgetPixels)) ∨
    (¬ legalLevels s.levels.toNat ∧ execDither s =
      .next (takeError .invalidParameter s.levels.toNat (accept s))) := by
  by_cases hl : legalLevels s.levels.toNat
  · exact .inl ⟨hl, if_pos hl⟩
  · exact .inr ⟨hl, if_neg hl⟩

/-- The old image is given up at the start of `CONVERT` and `DECODE` (41_converter.md R160,
43_decoder.md R211). -/
def discardImage (s : State) : State :=
  { s with status := { s.status with imgv := false }, grp := [] }

/-- `CONVERT` refuses an empty buffer, or scans and removes the background (41_converter.md R160). -/
theorem execConvert_cases (s : State) :
    (s.pix.size = 0 ∧
      execConvert s = .next (takeError .invalidInput 0 (discardImage (accept s)))) ∨
    (s.pix.size ≠ 0 ∧ execConvert s =
      .next (((scan s.pix.size s.pix.size (setI (discardImage (accept s)) 0)).bind fun u =>
        .ok (finishConvert (removeBackground u))).finish forgetGroups)) := by
  by_cases hn : s.pix.size = 0
  · exact .inl ⟨hn, if_pos hn⟩
  · exact .inr ⟨hn, if_neg hn⟩

/-- `ENCODE` refuses an image it cannot size, for one of three reasons, or writes the stream
(42_encoder.md R185, R186). -/
theorem execEncode_cases (s : State) :
    (s.status.imgv = false ∧ execEncode s = .next (takeError .invalidInput 1 (accept s))) ∨
    (s.status.imgv = true ∧ imageSize s = 0 ∧
      execEncode s = .next (takeError .invalidInput 0 (accept s))) ∨
    (s.status.imgv = true ∧ 127 < clog2 (imageSize s) ∧ execEncode s =
      .next (takeError .formatLimitExceeded (clog2 (imageSize s)) (accept s))) ∨
    (s.status.imgv = true ∧ imageSize s ≠ 0 ∧ clog2 (imageSize s) ≤ 127 ∧ execEncode s =
      .next ((emitImage (clog2 (imageSize s)) { accept s with
        indexbits := BitVec.ofNat 7 (clog2 (imageSize s)), bitlen := 0, bitcur := 0 }).finish
          forgetStream)) := by
  have hsize : imageSize (accept s) = imageSize s := rfl
  simp only [execEncode, accept_status, accepted_imgv, hsize]
  cases s.status.imgv with
  | false => exact .inl ⟨rfl, rfl⟩
  | true =>
    rw [if_neg (by decide)]
    by_cases hn : imageSize s = 0
    · exact .inr (.inl ⟨rfl, hn, if_pos hn⟩)
    · rw [if_neg hn]
      by_cases hib : 127 < clog2 (imageSize s)
      · exact .inr (.inr (.inl ⟨rfl, hib, if_pos hib⟩))
      · exact .inr (.inr (.inr ⟨rfl, hn, not_lt.mp hib, if_neg hib⟩))

/-- `DECODE` refuses a `BITLEN` past the buffer, or runs the sequencer (43_decoder.md R211). -/
theorem execDecode_cases (s : State) :
    (¬ fitsBits s.cap s.bitlen ∧ execDecode s =
      .next (decodeError .capacityExceeded 3 (forgetBitcur (startDecode s)))) ∨
    (fitsBits s.cap s.bitlen ∧
      execDecode s = .next (runDecode (s.bitlen + 2) (startDecode s))) := by
  by_cases hf : fitsBits s.cap s.bitlen
  · exact .inr ⟨hf, if_neg (not_not.mpr hf)⟩
  · exact .inl ⟨hf, if_pos hf⟩

theorem commandOf_slot (code : BitVec 4) (ib : Nat) : (commandOf code).slot ib = .command := by
  unfold commandOf
  split <;> rfl

/-! ### The host's moves -/

/-- What a move of the host does when it answers a next state (70_reset_and_hazards.md R279). -/
inductive MoveEffect : HostMove → State → State → Prop
  | read (m : HostMove) (s : State) (v : Nat) : MoveEffect m s (returnToHost v s)
  | command {v : Nat} {s t : State} : writeCmd v s = .next t → MoveEffect (.writeReg 0 v) s t
  | register {n v : Nat} {s : State} (r : Reg) : s.status.busy = false →
      MoveEffect (.writeReg n v) s (writeReg s r v)
  | byte {m : Nat} {v : Byte} {s : State} : s.status.busy = false → hasByte s.cap m →
      MoveEffect (.writeByte m v) s (byteWrite s m v)
  | resize {w h : Size} {s : State} : s.status.busy = false → MoveEffect (.resizePix w h) s
      { s with pix := { w := w, h := h, cells := [], gen := s.free }, free := s.free + 1 }
  | pixel {x y : Nat} {c : Color} {s : State} : s.status.busy = false → s.pix.has x y →
      MoveEffect (.writePix x y c) s { s with pix := { s.pix with
        cells := s.pix.cells.write (y * s.pix.w.toNat + x) c } }
  | reset (s : State) : MoveEffect .hardReset s (resetBlock s)
  | wait (s : State) : MoveEffect .wait s (if s.status.busy then decodeTick s else s)

theorem eq_zero_of_ofNumber_cmd {n : Nat} (h : Reg.ofNumber? n = some .cmd) : n = 0 := by
  unfold Reg.ofNumber? at h
  split at h <;> simp_all

theorem hostMove_effect {m : HostMove} {s t : State} (h : hostMove m s = .next t) :
    MoveEffect m s t := by
  cases m with
  | readReg n =>
    obtain ⟨r, -, rfl, -⟩ := hostRead_next h
    exact .read _ s _
  | writeReg n v =>
    rcases hostWrite_next h with ⟨hn, hw⟩ | ⟨r, -, hb, rfl⟩
    · rw [eq_zero_of_ofNumber_cmd hn]
      exact .command hw
    · exact .register r hb
  | readByte m =>
    obtain ⟨-, h⟩ := whenIdle_next h
    split at h <;> cases h
    exact .read _ s _
  | writeByte m v =>
    obtain ⟨hb, h⟩ := whenIdle_next h
    split at h
    · next hm => cases h; exact .byte hb hm
    · cases h
  | resizePix w h' =>
    obtain ⟨hb, h⟩ := whenIdle_next h
    cases h
    exact .resize hb
  | readPix x y =>
    obtain ⟨-, h⟩ := whenIdle_next h
    split at h <;> cases h
    exact .read _ s _
  | writePix x y c =>
    obtain ⟨hb, h⟩ := whenIdle_next h
    split at h
    · next hp =>
      cases h
      obtain ⟨hxy, rfl⟩ := pixSet_eq_some hp
      exact .pixel hb hxy
    · cases h
  | hardReset =>
    cases h
    exact .reset s
  | wait =>
    rw [show hostMove .wait s = runEngine s from rfl, runEngine_eq] at h
    cases h
    exact .wait s

end Sys2Proof.Machine
end

section
/-! The invariant of the machine in parts, what each operation on the state does to the parts, and O58. -/

namespace Sys2Proof.Machine

/-! ### The parts -/

/-- A value fits a register of the given width, `none` for unbounded (10_state.md R21). -/
abbrev FitsWidth (width : Option Nat) (v : Nat) : Prop := ∀ n ∈ width, v < 2 ^ n

/-- The bits listed are in canonical form and inside the bit buffer. -/
def BitsOk (cap : Caps) (bits : Memory Bool) : Prop :=
  bits.wf ∧ ∀ b ∈ bits, fitsBits cap (b.1 + 1)

/-- The cells listed are in canonical form and inside the PixelBuffer. -/
def CellsOk (p : PixelBuffer) : Prop := p.cells.wf ∧ ∀ c ∈ p.cells, c.1 < p.size

/-- The flags exclude each other, and `ERR` agrees with `ERRF` (10_state.md R35, R36). -/
def FlagsOk (f : Status) (err : BitVec 3) : Prop :=
  ((f.busy && f.done) = false ∧ (f.busy && f.errf) = false ∧ (f.done && f.errf) = false) ∧
    (f.errf = true ↔ err ≠ 0) ∧ err ≠ 7

/-- The invariant by the parts of the state that the operations write. Of the register widths it keeps
those that the fields' types and the group store do not already give. -/
structure InvParts (s : State) : Prop where
  cap : Caps.ok s.cap
  bits : BitsOk s.cap s.bit.bits
  cells : CellsOk s.pix
  store : StoreOk s.cap s.grp
  flags : FlagsOk s.status s.err
  errinfo : FitsWidth (Reg.errinfo.width s.cap) s.errinfo
  gsel : FitsWidth (Reg.gsel.width s.cap) s.gsel
  esel : FitsWidth (Reg.esel.width s.cap) s.esel
  bitlen : FitsWidth s.cap.blw s.bitlen
  bitcur : FitsWidth s.cap.blw s.bitcur

theorem MachineInv.parts {s : State} (h : MachineInv s) : InvParts s where
  cap := h.cap
  bits := ⟨h.bitsWf, h.bitsIn⟩
  cells := ⟨h.cellsWf, h.cellsIn⟩
  store := ⟨h.colours, h.entries, h.colourCap, h.entryCap⟩
  flags := ⟨h.flags, h.errCode, h.errLegal⟩
  errinfo := h.widths .errinfo (by decide) (by decide)
  gsel := h.widths .gsel (by decide) (by decide)
  esel := h.widths .esel (by decide) (by decide)
  bitlen := h.widths .bitlen (by decide) (by decide)
  bitcur := h.widths .bitcur (by decide) (by decide)

/-- A count that its capacity bounds fits the register that shows it (00_scope.md R8). -/
theorem fitsWidth_count {limit : Option Nat} {v : Nat} (h : ∀ m ∈ limit, v ≤ m) :
    FitsWidth (limit.map fun m => clog2 (m + 1)) v := by
  intro n hn
  obtain ⟨m, hm, rfl⟩ := Option.mem_map.mp hn
  exact (Nat.lt_succ_of_le (h m hm)).trans_le (le_two_pow_clog2 (m + 1))

/-- A register whose field is a word of its width holds nothing wider. -/
theorem fitsWidth_toNat {n : Nat} (v : BitVec n) : FitsWidth (some n) v.toNat := by
  rintro m ⟨⟩
  exact v.isLt

theorem entries_length_le_total {grp : List ColorGroup} {g : ColorGroup} (h : g ∈ grp) :
    g.entries.length ≤ totalEntries grp :=
  List.le_sum_of_mem (List.mem_map_of_mem h)

theorem shownGroup_mem {s : State} {g : ColorGroup} (h : shownGroup s = some g) : g ∈ s.grp :=
  List.mem_of_getElem? h

theorem InvParts.inv {s : State} (h : InvParts s) : MachineInv s where
  cap := h.cap
  bitsWf := h.bits.1
  bitsIn := h.bits.2
  cellsWf := h.cells.1
  cellsIn := h.cells.2
  colours := h.store.colours
  entries := h.store.entries
  colourCap := h.store.colourCap
  entryCap := h.store.entryCap
  flags := h.flags.1
  errCode := h.flags.2.1
  errLegal := h.flags.2.2
  widths := by
    intro r hea heb
    cases r with
    | cmd => exact fitsWidth_toNat (0 : BitVec 4)
    | status => exact fitsWidth_toNat s.status.word
    | err => exact fitsWidth_toNat s.err
    | errinfo => exact h.errinfo
    | levels => exact fitsWidth_toNat s.levels
    | imgW => exact fitsWidth_toNat s.imgW
    | imgH => exact fitsWidth_toNat s.imgH
    | imgBg => exact fitsWidth_toNat s.imgBg.word
    | indexbits => exact fitsWidth_toNat s.indexbits
    | ngroups => exact fitsWidth_count h.store.colourCap
    | gsel => exact h.gsel
    | esel => exact h.esel
    | gcolor =>
      simp only [readReg]
      split
      · next g _ => exact fitsWidth_toNat g.color.word
      · exact fitsWidth_toNat (0 : BitVec 24)
    | gcount =>
      simp only [readReg]
      split
      · next g hg => exact fitsWidth_count fun m hm =>
          (entries_length_le_total (shownGroup_mem hg)).trans (h.store.entryCap m hm)
      · exact fitsWidth_count fun _ _ => Nat.zero_le _
    | ekind =>
      rintro n ⟨⟩
      simp only [readReg]
      split
      · next e _ => cases e <;> simp [entryKind]
      · decide
    | ea => exact absurd rfl hea
    | eb => exact absurd rfl heb
    | bitlen => exact h.bitlen
    | bitcur => exact h.bitcur

/-! ### Widths -/

theorem FitsWidth.mono {width : Option Nat} {u v : Nat} (h : FitsWidth width v) (huv : u ≤ v) :
    FitsWidth width u := fun n hn => huv.trans_lt (h n hn)

theorem fitsWidth_truncTo (width : Option Nat) (v : Nat) : FitsWidth width (truncTo width v) := by
  rintro n ⟨⟩
  exact Nat.mod_lt _ (Nat.two_pow_pos n)

theorem fitsWidth_zero (width : Option Nat) : FitsWidth width 0 := fun n _ => Nat.two_pow_pos n

/-- A length inside the bit buffer fits `BITLEN`: `BLW` bits hold `MAXBITS` (00_scope.md R8). -/
theorem fitsWidth_of_fitsBits {cap : Caps} {n : Nat} (hc : Caps.ok cap) (h : fitsBits cap n) :
    FitsWidth cap.blw n := by
  intro w hw
  obtain ⟨m, hm, hlt⟩ := hc.blw w hw
  exact (h m hm).trans_lt hlt

/-- `ERRINFO` has at least 254 bits: it holds every reason and code, `LEVELS`, and a `clog2`. -/
theorem errinfo_of_le {cap : Caps} {v : Nat} (h : v ≤ 2 ^ 16) :
    FitsWidth (Reg.errinfo.width cap) v := by
  intro n hn
  obtain ⟨w, -, rfl⟩ := Option.mem_map.mp hn
  calc v ≤ 2 ^ 16 := h
    _ < 2 ^ 254 := by norm_num
    _ ≤ 2 ^ max 254 w := Nat.pow_le_pow_right (by omega) (le_max_left _ _)

/-- `ERRINFO` holds every position of the stream. -/
theorem errinfo_of_blw {cap : Caps} {v : Nat} (h : FitsWidth cap.blw v) :
    FitsWidth (Reg.errinfo.width cap) v := by
  intro n hn
  obtain ⟨w, hw, rfl⟩ := Option.mem_map.mp hn
  exact (h w hw).trans_le (Nat.pow_le_pow_right (by omega) (le_max_right _ _))

/-! ### Memories -/

theorem bitsOk_nil (cap : Caps) : BitsOk cap [] := ⟨List.Pairwise.nil, by simp⟩

theorem cellsOk_nil (w h : Size) (gen : Nat) : CellsOk { w := w, h := h, cells := [], gen := gen } :=
  ⟨List.Pairwise.nil, by simp⟩

theorem bitsOk_writeList {cap : Caps} {bits : Memory Bool} {k : Nat} {vs : List Bool}
    (h : BitsOk cap bits) (hk : fitsBits cap (k + vs.length)) : BitsOk cap (bits.writeList k vs) := by
  refine ⟨writeList_wf k vs h.1, fun b hb m hm => ?_⟩
  rcases mem_writeList hb with ⟨-, hlt⟩ | hb
  · exact (Nat.succ_le_of_lt hlt).trans (hk m hm)
  · exact h.2 b hb m hm

theorem cellsOk_write {p : PixelBuffer} {x y : Nat} (c : Color) (h : CellsOk p) (hxy : p.has x y) :
    CellsOk { p with cells := p.cells.write (y * p.w.toNat + x) c } := by
  refine ⟨write_wf _ c h.1, fun d hd => ?_⟩
  rcases mem_write hd with rfl | hd
  · exact cell_index_lt hxy
  · exact h.2 d hd

/-! ### The group store -/

/-- Deleting a group keeps the store's rules (41_converter.md R166). -/
theorem storeOk_eraseIdx {cap : Caps} {grp : List ColorGroup} (h : StoreOk cap grp) (n : Nat) :
    StoreOk cap (grp.eraseIdx n) where
  colours := h.colours.sublist ((List.eraseIdx_sublist grp n).map _)
  entries g hg := h.entries g (List.mem_of_mem_eraseIdx hg)
  colourCap m hm := (List.eraseIdx_sublist grp n).length_le.trans (h.colourCap m hm)
  entryCap m hm := (((List.eraseIdx_sublist grp n).map _).sum_le_sum (by simp)).trans
    (h.entryCap m hm)

/-! ### The flags -/

theorem flagsOk_accepted {f : Status} {e : BitVec 3} (h : FlagsOk f e) (he : f.errf = false) :
    FlagsOk f.accepted e := by
  obtain ⟨-, hcode⟩ := h
  exact ⟨by simp [he], hcode⟩

theorem flagsOk_completed {f : Status} {e : BitVec 3} (h : FlagsOk f e) (hb : f.busy = true) :
    FlagsOk f.completed e := by
  obtain ⟨⟨-, he, -⟩, hcode⟩ := h
  exact ⟨by simpa [hb] using he, hcode⟩

/-- The six codes are neither 0 nor 7 (60_exceptions.md R247). -/
theorem code_legal (k : ErrorKind) : k.code ≠ 0 ∧ k.code ≠ 7 := by cases k <;> decide

theorem flagsOk_failed {f : Status} {e : BitVec 3} (h : FlagsOk f e) (hb : f.busy = true)
    (k : ErrorKind) : FlagsOk f.failed k.code := by
  obtain ⟨⟨hd, -, -⟩, -⟩ := h
  exact ⟨by simpa [hb] using hd, iff_of_true rfl (code_legal k).1, (code_legal k).2⟩

theorem flagsOk_reset : FlagsOk State.reset.status 0 := by
  unfold FlagsOk
  decide

/-! ### Commands in progress -/

/-- The invariant inside a command: `BUSY` = 1. -/
structure Running (s : State) : Prop where
  parts : InvParts s
  busy : s.status.busy = true

theorem running_accept {s : State} (h : InvParts s) (he : s.status.errf = false) :
    Running (accept s) := ⟨{ h with flags := flagsOk_accepted h.flags he }, rfl⟩

theorem running_cursors {s : State} (h : Running s) (c : Cursors) : Running { s with cur := c } :=
  ⟨{ h.parts with }, h.busy⟩

theorem running_forgetCursors {s : State} (h : Running s) : Running (forgetCursors s) :=
  ⟨{ h.parts with }, h.busy⟩

theorem running_forgetGroups {s : State} (h : Running s) : Running (forgetGroups s) :=
  ⟨{ h.parts with store := buildGroups_storeOk _ _ }, h.busy⟩

theorem running_forgetImage {s : State} (h : Running s) : Running (forgetImage s) :=
  ⟨{ h.parts with store := buildGroups_storeOk _ _ }, h.busy⟩

theorem running_forgetBitcur {s : State} (h : Running s) : Running (forgetBitcur s) :=
  ⟨{ h.parts with bitcur := fitsWidth_truncTo _ _ }, h.busy⟩

theorem running_forgetStream {s : State} (h : Running s) : Running (forgetStream s) :=
  ⟨{ h.parts with
    bits := bitsOk_nil _, bitlen := fitsWidth_truncTo _ _, bitcur := fitsWidth_truncTo _ _ }, h.busy⟩

theorem running_forgetPixels {s : State} (h : Running s) : Running (forgetPixels s) :=
  ⟨{ h.parts with cells := cellsOk_nil _ _ _ }, h.busy⟩

theorem running_append {s : State} {c : Color} {e : Entry} {grp : List ColorGroup} (h : Running s)
    (ha : append s.cap s.grp c e = .ok grp) : Running { s with grp := grp } :=
  ⟨{ h.parts with store := append_storeOk h.parts.store ha }, h.busy⟩

theorem running_pixel {s : State} {x y : Nat} {c : Color} (h : Running s) (hxy : s.pix.has x y) :
    Running { s with pix := { s.pix with
      cells := s.pix.cells.write (y * s.pix.w.toNat + x) c } } :=
  ⟨{ h.parts with cells := cellsOk_write c h.parts.cells hxy }, h.busy⟩

theorem inv_complete {s : State} (h : Running s) : InvParts (complete s) :=
  { h.parts with flags := flagsOk_completed h.parts.flags h.busy }

theorem inv_takeError {s : State} (h : Running s) (e : ErrorKind) {info : Nat}
    (hi : FitsWidth (Reg.errinfo.width s.cap) info) : InvParts (takeError e info s) :=
  { h.parts with flags := flagsOk_failed h.parts.flags h.busy e, errinfo := hi }

/-- Reset leads back to the invariant from any contents of the block (70_reset_and_hazards.md R270). -/
theorem inv_resetBlock {s : State} (hcap : Caps.ok s.cap) (hcells : CellsOk s.pix) :
    InvParts (resetBlock s) :=
  { cap := hcap
    bits := bitsOk_nil _
    cells := hcells
    store := storeOk_nil _
    flags := flagsOk_reset
    errinfo := fitsWidth_zero _
    gsel := fitsWidth_zero _
    esel := fitsWidth_zero _
    bitlen := fitsWidth_zero _
    bitcur := fitsWidth_zero _ }

/-- A command whose work keeps the invariant ends in it, completed or with an error. -/
theorem inv_finish {r : Run} {forget : State → State} (h : r.Keeps Running)
    (hcap : ∀ s, (forget s).cap = s.cap) (hf : ∀ s, Running s → Running (forget s)) :
    InvParts (r.finish forget) := by
  obtain ⟨hs, hi⟩ := h
  cases r with
  | ok s => exact inv_complete (running_forgetCursors hs)
  | raised e info s =>
    refine inv_takeError (running_forgetCursors (hf s hs)) e ?_
    rw [forgetCursors_cap, hcap]
    rcases hi with hi | rfl
    · exact errinfo_of_le (by omega)
    · exact errinfo_of_blw hs.parts.bitlen

/-! ### The commands -/

/-! ### The filters -/

theorem inv_filter {visit : State → Run} {s : State}
    (hv : ∀ s, Running s → Running (visit s).state) (hi : ∀ s, (visit s).InfoBounded)
    (h : Running s) : InvParts ((filterPass visit s).finish forgetPixels) :=
  inv_finish (filterPass_run_keeps hv hi (fun _ c h => running_cursors h c) h) (fun _ => rfl)
    fun _ => running_forgetPixels

theorem inv_gray {s t : State} (h : Running (accept s)) (hx : execGray s = .next t) :
    InvParts t := by
  cases hx
  exact inv_filter (fun _ h => grayVisit_keeps h fun _ _ _ _ => running_pixel) grayVisit_infoBounded h

theorem inv_dither {s t : State} (h : Running (accept s)) (hx : execDither s = .next t) :
    InvParts t := by
  rcases execDither_cases s with ⟨-, hd⟩ | ⟨-, hd⟩ <;> cases hd.symm.trans hx
  · exact inv_filter (fun _ h => ditherVisit_keeps h fun _ _ _ _ => running_pixel)
      (ditherVisit_infoBounded _) h
  · exact inv_takeError h _ (errinfo_of_le s.levels.isLt.le)

/-! ### `CONVERT` -/

theorem running_discardImage {s : State} (h : Running s) : Running (discardImage s) :=
  ⟨{ h.parts with store := storeOk_nil _ }, h.busy⟩

theorem running_removeBackground {s : State} (h : Running s) : Running (removeBackground s) := by
  unfold removeBackground
  split
  · exact ⟨{ h.parts with store := storeOk_eraseIdx h.parts.store _ }, h.busy⟩
  · exact h

theorem running_finishConvert {s : State} (h : Running s) : Running (finishConvert s) :=
  ⟨{ h.parts with }, h.busy⟩

theorem inv_convert {s t : State} (h : Running (accept s)) (hx : execConvert s = .next t) :
    InvParts t := by
  have hd := running_discardImage h
  rcases execConvert_cases s with ⟨-, hc⟩ | ⟨-, hc⟩ <;> cases hc.symm.trans hx
  · exact inv_takeError hd _ (errinfo_of_le (Nat.zero_le _))
  · refine inv_finish (Run.Keeps.bind (scan_keeps (fun _ c h => running_cursors h c)
      (fun _ _ _ _ => running_append) _ _ _ (running_cursors hd _)) fun u hu => ?_) (fun _ => rfl)
      fun _ => running_forgetGroups
    exact keeps_ok (running_finishConvert (running_removeBackground hu))

/-! ### `ENCODE` -/

/-- The invariant while `ENCODE` writes: the stream so far lies in the bit buffer. -/
structure Encoding (s : State) : Prop where
  running : Running s
  room : fitsBits s.cap s.bitlen

theorem encoding_putBits (f : BitField) (s : State) (h : Encoding s) :
    Encoding (putBits f s).state := by
  rcases putBits_cases f s with ⟨-, hp⟩ | ⟨-, -, hp⟩ | ⟨-, hs, hp⟩ <;> rw [hp]
  · exact h
  · exact h
  · have hlen := fitsWidth_of_fitsBits h.running.parts.cap hs
    have hbits := bitsOk_writeList (vs := fieldBits f.width f.value) h.running.parts.bits
      (by rwa [fieldBits_length])
    exact ⟨⟨{ h.running.parts with bits := hbits, bitlen := hlen, bitcur := hlen }, h.running.busy⟩,
      hs⟩

/-- The padding stays in the bit buffer, which ends on a byte (42_encoder.md R188). -/
theorem encoding_padLastByte (s : State) (h : Encoding s) : Encoding (padLastByte s) := by
  have hpad : fitsBits s.cap
      (s.bitlen + (List.replicate ((8 - s.bitlen % 8) % 8) false).length) := by
    intro m hm
    have := h.room m hm
    rw [List.length_replicate]
    omega
  exact ⟨⟨{ h.running.parts with bits := bitsOk_writeList h.running.parts.bits hpad },
    h.running.busy⟩, h.room⟩

theorem encoding_start {s : State} (h : Running s) (ib : BitVec 7) :
    Encoding { s with indexbits := ib, bitlen := 0, bitcur := 0 } :=
  ⟨⟨{ h.parts with bitlen := fitsWidth_zero _, bitcur := fitsWidth_zero _ }, h.busy⟩,
    fun _ _ => Nat.zero_le _⟩

theorem clog2_imageSize_le (s : State) : clog2 (imageSize s) ≤ 254 := by
  rw [clog2_le_iff]
  calc imageSize s ≤ 2 ^ 127 * 2 ^ 127 := Nat.mul_le_mul s.imgW.isLt.le s.imgH.isLt.le
    _ = 2 ^ 254 := by norm_num

theorem inv_encode {s t : State} (h : Running (accept s)) (hx : execEncode s = .next t) :
    InvParts t := by
  rcases execEncode_cases s with ⟨-, he⟩ | ⟨-, -, he⟩ | ⟨-, -, he⟩ | ⟨-, -, -, he⟩ <;>
    cases he.symm.trans hx
  · exact inv_takeError h _ (errinfo_of_le (by omega))
  · exact inv_takeError h _ (errinfo_of_le (by omega))
  · exact inv_takeError h _ (errinfo_of_le ((clog2_imageSize_le s).trans (by norm_num)))
  · refine inv_finish (Run.Keeps.imp (P := Encoding) ?_ fun _ => Encoding.running) (fun _ => rfl)
      fun _ => running_forgetStream
    exact emitImage_keeps encoding_putBits (fun _ c h => ⟨running_cursors h.running c, h.room⟩)
      encoding_padLastByte _ (encoding_start h _)

/-! ### `DECODE` -/

/-- Moving `BITCUR` by no more than what is left before `BITLEN` (43_decoder.md R210). -/
theorem running_advance {s : State} {n : Nat} (h : Running s) (hn : n ≤ s.bitlen - s.bitcur) :
    Running (advance n s) := by
  refine ⟨{ h.parts with bitcur := fun w hw => ?_ }, h.busy⟩
  have hlen := h.parts.bitlen w hw
  have hcur := h.parts.bitcur w hw
  rw [advance_bitcur]
  omega

theorem inv_decodeError {s : State} (h : Running s) (e : ErrorKind) {info : Nat}
    (hi : FitsWidth (Reg.errinfo.width s.cap) info) : InvParts (decodeError e info s) :=
  inv_takeError (running_forgetCursors (running_forgetImage h)) e hi

theorem inv_completeDecode {s : State} (h : Running s) : InvParts (completeDecode s) :=
  inv_complete (s := forgetCursors { s with status := { s.status with imgv := true } })
    ⟨{ h.parts with }, h.busy⟩

theorem inv_recordDone {n : Nat} {s t : State} (h : Running (advance n s)) (hr : RecordDone n s t) :
    InvParts t := by
  obtain ⟨w, h', bg, ib, grp, cur, hgrp, rfl⟩ := hr
  have hstore : StoreOk s.cap grp := by
    rcases hgrp with rfl | ⟨c, e, ha⟩
    · exact h.parts.store
    · exact append_storeOk h.parts.store ha
  exact { h.parts with store := hstore }

theorem inv_decodeTick {s : State} (h : InvParts s) (hb : s.status.busy = true) :
    InvParts (decodeTick s) := by
  have hrun : Running s := ⟨h, hb⟩
  rcases decodeTick_cases s with ht | ⟨i, hi, hlen, ht⟩ | ⟨offset, hle, ht⟩ <;> rw [ht]
  · exact inv_completeDecode hrun
  · have hadv := running_advance hrun hlen
    rcases recordEffect_cases s hi with hr | ⟨info, hinfo, hr⟩
    · exact inv_recordDone hadv hr
    · rw [hr]
      exact inv_decodeError (running_forgetBitcur hadv) _ (errinfo_of_le (by omega))
  · have hadv := running_advance hrun hle
    exact inv_decodeError hadv _ (errinfo_of_blw hadv.parts.bitcur)

theorem running_startDecode {s : State} (h : Running (accept s)) : Running (startDecode s) :=
  ⟨{ (running_discardImage h).parts with bitcur := fitsWidth_zero _ }, rfl⟩

theorem inv_decode {s t : State} (h : Running (accept s)) (hx : execDecode s = .next t) :
    InvParts t := by
  have hstart := running_startDecode h
  rcases execDecode_cases s with ⟨-, hd⟩ | ⟨-, hd⟩ <;> cases hd.symm.trans hx
  · exact inv_decodeError (running_forgetBitcur hstart) _ (errinfo_of_le (by omega))
  · exact runDecode_keeps (fun _ => inv_decodeTick) _ _ hstart.parts

/-! ### Every command, every move, every step -/

theorem inv_reserved {s : State} (h : Running (accept s)) {code : Nat} (hc : code ≤ 14) :
    InvParts (reserved code s) := inv_takeError h _ (errinfo_of_le (hc.trans (by norm_num)))

/-- Every command the idle block accepts while no error stands keeps the invariant. -/
theorem inv_command {i : Instr} {s t : State} (hi : i.slot 0 = .command) (h : InvParts s)
    (he : s.status.errf = false) (hx : exec i s = .next t) : InvParts t := by
  have hrun := running_accept h he
  cases i with
  | nop => cases hx; exact inv_complete hrun
  | gray => exact inv_gray hrun hx
  | dither => exact inv_dither hrun hx
  | convert => exact inv_convert hrun hx
  | encode => exact inv_encode hrun hx
  | decode => exact inv_decode hrun hx
  | sreset => cases hx; exact inv_resetBlock h.cap h.cells
  | rsvd6 | rsvd7 | rsvd8 | rsvd9 | rsvd10 | rsvd11 | rsvd12 | rsvd13 | rsvd14 =>
    cases hx
    exact inv_reserved hrun (by omega)
  | hdr | color | sc | rc | st | rt => cases hi

/-- A write to `CMD` keeps the invariant; while an error stands, the one command is `SRESET`
(44_system.md R230). -/
theorem inv_writeCmd {v : Nat} {s t : State} (h : InvParts s) (hx : writeCmd v s = .next t) :
    InvParts t := by
  rcases writeCmd_cases v s with ⟨-, hw⟩ | ⟨-, -, -, hw⟩ | ⟨-, he, hw⟩ <;> rw [hw] at hx
  · cases hx; exact h
  · cases hx; exact h
  · rcases he with he | hv
    · exact inv_command (commandOf_slot _ 0) h he hx
    · rw [hv] at hx
      cases hx
      exact inv_resetBlock h.cap h.cells

theorem inv_writeReg {s : State} (h : InvParts s) (r : Reg) (v : Nat) : InvParts (writeReg s r v) := by
  cases r with
  | levels => exact { h with }
  | gsel => exact { h with gsel := fitsWidth_truncTo _ v }
  | esel => exact { h with esel := fitsWidth_truncTo _ v }
  | bitlen => exact { h with bitlen := fitsWidth_truncTo _ v }
  | cmd | status | err | errinfo | imgW | imgH | imgBg | indexbits | ngroups | gcolor | gcount
  | ekind | ea | eb | bitcur => exact h

theorem inv_byteWrite {s : State} (h : InvParts s) {m : Nat} (hm : hasByte s.cap m) (v : Byte) :
    InvParts (byteWrite s m v) := by
  have hroom : fitsBits s.cap (8 * m + (fieldBits 8 v.toNat).length) := by
    intro n hn
    have := hm n hn
    rw [fieldBits_length]
    omega
  exact { h with bits := bitsOk_writeList h.bits hroom }

theorem inv_move {m : HostMove} {s t : State} (h : InvParts s) (hm : MoveEffect m s t) :
    InvParts t := by
  cases hm with
  | read v => exact { h with }
  | command hw => exact inv_writeCmd h hw
  | register r _ => exact inv_writeReg h r _
  | byte _ hbyte => exact inv_byteWrite h hbyte _
  | resize _ => exact { h with cells := cellsOk_nil _ _ _ }
  | pixel _ hxy => exact { h with cells := cellsOk_write _ h.cells hxy }
  | reset => exact inv_resetBlock h.cap h.cells
  | wait =>
    split
    · next hb => exact inv_decodeTick h hb
    · exact h

/-- Settles O58: the invariant in its parts (`InvParts`) is kept by each operation on the state, hence
by every command, every record of a `DECODE` in progress and every move of the host. -/
theorem everyStepKeepsTheMachineInvariant : Obligations.EveryStepKeepsTheMachineInvariant := by
  intro s t hs hstep
  refine InvParts.inv ?_
  rcases step_next_cases hstep with ⟨-, hrun⟩ | ⟨m, ms, -, hmove⟩
  · exact inv_move hs.parts (hostMove_effect (m := .wait) hrun)
  · exact inv_move (s := { s with host := ms }) { hs.parts with } (hostMove_effect hmove)

end Sys2Proof.Machine
end

section
/-! `Append` and the group store (10_state.md R41): what is appended where, O39, and the entry records that
find no room, O38. -/

namespace Sys2Proof.Machine

open Sys2Proof.Claims

/-- `Append` with its two checks in the words of 10_state.md R41. -/
theorem append_eq (cap : Caps) (grp : List ColorGroup) (c : Color) (e : Entry) :
    append cap grp c e =
      if (∀ g ∈ grp, g.color ≠ c) ∧ ∃ m ∈ cap.maxCol, m ≤ grp.length then .error 1
      else if ∃ m ∈ cap.maxEnt, m ≤ totalEntries grp then .error 2
      else .ok (appendEntry grp c e) := by
  simp only [append, groupNumber_eq_length]

/-- A new colour gets a group of its own at the end. -/
theorem appendEntry_of_new {grp : List ColorGroup} {c : Color} (e : Entry)
    (h : ∀ g ∈ grp, g.color ≠ c) : appendEntry grp c e = grp ++ [{ color := c, entries := [e] }] := by
  induction grp with
  | nil => rfl
  | cons g gs ih =>
    obtain ⟨hg, hgs⟩ := List.forall_mem_cons.mp h
    rw [appendEntry, if_neg hg, ih hgs, List.cons_append]

/-- An entry of a colour that has a group goes to the end of the first such group. -/
theorem appendEntry_of_first {before after : List ColorGroup} {g : ColorGroup} (e : Entry)
    (h : ∀ b ∈ before, b.color ≠ g.color) :
    appendEntry (before ++ g :: after) g.color e =
      before ++ { g with entries := g.entries ++ [e] } :: after := by
  induction before with
  | nil => rw [List.nil_append, List.nil_append, appendEntry, if_pos rfl]
  | cons b bs ih =>
    obtain ⟨hb, hbs⟩ := List.forall_mem_cons.mp h
    rw [List.cons_append, appendEntry, if_neg hb, ih hbs, List.cons_append]

/-- Settles O39: `append_eq` gives the checks in their order, `appendEntry_of_new` and
`appendEntry_of_first` the place of the entry. -/
theorem appendAddsOneEntryToOneGroup : Obligations.AppendAddsOneEntryToOneGroup := by
  intro cap grp c e newColour noColour noEntry
  refine ⟨fun hnew hcol => ?_, fun hcol hent => ?_, fun hcol hent =>
    ⟨appendEntry grp c e, ?_, appendEntry_of_new e, ?_, appendEntry_total grp c e⟩⟩
  · rw [append_eq, if_pos ⟨hnew, hcol⟩]
  · rw [append_eq, if_neg hcol, if_pos hent]
  · rw [append_eq, if_neg hcol, if_neg hent]
  · rintro before g after rfl rfl hbefore
    exact appendEntry_of_first e hbefore

/-- What `Append` answers where it has no room. -/
theorem append_error_of_not_canAppend {s : State} {c : Color} (e : Entry) (h : ¬ canAppend s c) :
    append s.cap s.grp c e = .error
      (if (∀ g ∈ s.grp, g.color ≠ c) ∧ ∃ m ∈ s.cap.maxCol, m ≤ s.grp.length then 1 else 2) := by
  rw [append_eq]
  split
  · rfl
  · next hcol =>
    rw [if_pos]
    by_contra hent
    push Not at hcol hent
    exact h ⟨fun m hm hnew => hcol hnew m hm, hent⟩

/-- An entry record is `parseEntry` of the entry it carries (43_decoder.md R215 to R218). -/
theorem exec_entryRecord {i : Instr} {e : Entry} {terminal : Bool} {n : Nat} (s : State)
    (h : entryOf? i = some (e, terminal, n)) :
    exec i s = .next (parseEntry (2 + n * s.indexbits.toNat) e terminal s) := by
  cases i with
  | sc a => cases h; rw [one_mul]; rfl
  | rc a b => cases h; rfl
  | st a => cases h; rw [one_mul]; rfl
  | rt a b => cases h; rfl
  | _ => cases h

/-- Settles O38: `Append` answers an error, and the record ends as `decodeError` says. -/
theorem entryRecordsRaiseWhenTheStoreIsFull : Obligations.EntryRecordsRaiseWhenTheStoreIsFull := by
  rintro s i ⟨e, terminal, n⟩ hi hfull
  have happ := append_error_of_not_canAppend e hfull
  refine ⟨_, exec_entryRecord s hi, ?_⟩
  rcases parseEntry_cases (2 + n * s.indexbits.toNat) e terminal s with ⟨grp, ha, -⟩ | ⟨info, ha, hp⟩
  · rw [happ] at ha
    cases ha
  · rw [happ] at ha
    cases ha
    rw [hp]
    exact ⟨rfl, rfl, rfl, rfl, rfl, fun _ => rfl, ⟨rfl, rfl, fun _ => rfl⟩, ⟨rfl, rfl, rfl⟩,
      ⟨rfl, rfl, rfl⟩⟩

end Sys2Proof.Machine
end

section
/-! The readout window and `STATUS` as numbers: O53 and O54. -/

namespace Sys2Proof.Machine

/-- A colour as a number: `R` above `G` above `B` (00_scope.md R11). -/
theorem color_word_toNat (c : Color) :
    c.word.toNat = 65536 * c.r.toNat + 256 * c.g.toNat + c.b.toNat := by
  have hg := c.g.isLt
  have hb := c.b.isLt
  rw [Color.word, BitVec.toNat_append, BitVec.toNat_append, ← Nat.shiftLeft_add_eq_or_of_lt hb,
    ← Nat.shiftLeft_add_eq_or_of_lt hg, Nat.shiftLeft_eq, Nat.shiftLeft_eq]
  ring

theorem shownEntry_of_group {s : State} {g : ColorGroup} (h : s.grp[s.gsel]? = some g) :
    shownEntry s = g.entries[s.esel]? := by simp [shownEntry, shownGroup, h]

/-- Settles O53, from what the window shows of a group and of an entry. -/
theorem readoutWindowShowsTheSelectedEntry : Obligations.ReadoutWindowShowsTheSelectedEntry := by
  intro s
  refine ⟨rfl, fun g hg => ⟨?_, ?_, fun a ha => ?_, fun a b hab => ?_, fun hpast => ?_⟩,
    fun hpast r hr => ?_⟩
  · simp [readReg, shownGroup, hg, color_word_toNat]
  · simp [readReg, shownGroup, hg]
  · simp [readReg, shownEntry_of_group hg, ha, entryKind, entryFirst, entryPast]
  · simp [readReg, shownEntry_of_group hg, hab, entryKind, entryFirst, entryPast]
  · simp [readReg, shownEntry_of_group hg, List.getElem?_eq_none hpast]
  · have hnone : shownGroup s = none := List.getElem?_eq_none hpast
    simp only [List.mem_cons, List.not_mem_nil, or_false] at hr
    rcases hr with rfl | rfl | rfl | rfl | rfl <;> simp [readReg, shownEntry, hnone]

/-- Settles O54, by the 16 values of the four flags. -/
theorem statusBitsStandWhereTheTableSays : Obligations.StatusBitsStandWhereTheTableSays := by
  intro s
  rw [readReg]
  obtain ⟨busy, done, errf, imgv⟩ := s.status
  revert busy done errf imgv
  decide

end Sys2Proof.Machine
end

section
/-! What each instruction leaves alone: O56 and O57. A frame is a conjunction of equations between fields,
so an update of other fields keeps it by computation. -/

namespace Sys2Proof.Machine

open Sys2Proof.Claims

/-! ### Three frames -/

/-- All that a filter may not write. -/
def OutsidePixels (s t : State) : Prop :=
  SameHost s t ∧ SameSelect s t ∧ SameImage s t ∧ t.bitlen = s.bitlen ∧ t.bit = s.bit

/-- All that `ENCODE` may not write. -/
def OutsideStream (s t : State) : Prop :=
  SameHost s t ∧ SameSelect s t ∧ SameImage s t ∧ t.pix = s.pix

/-- All that `CONVERT`, `DECODE` and the records may not write. -/
def OutsideImage (s t : State) : Prop :=
  SameHost s t ∧ SameSelect s t ∧ t.pix = s.pix ∧ t.bitlen = s.bitlen ∧ t.bit = s.bit

theorem sameImage_refl (s : State) : SameImage s s := ⟨rfl, rfl, rfl, rfl, rfl⟩

theorem outsidePixels_refl (s : State) : OutsidePixels s s :=
  ⟨⟨rfl, rfl, rfl⟩, ⟨rfl, rfl, rfl⟩, sameImage_refl s, rfl, rfl⟩

theorem outsideStream_refl (s : State) : OutsideStream s s :=
  ⟨⟨rfl, rfl, rfl⟩, ⟨rfl, rfl, rfl⟩, sameImage_refl s, rfl⟩

theorem outsideImage_refl (s : State) : OutsideImage s s :=
  ⟨⟨rfl, rfl, rfl⟩, ⟨rfl, rfl, rfl⟩, rfl, rfl, rfl⟩

/-- A command keeps what its work, its completion and its error keep. -/
theorem finish_keeps {P : State → Prop} {r : Run} {forget : State → State} (h : P r.state)
    (hok : ∀ u, P u → P (complete (forgetCursors u)))
    (hraised : ∀ e info u, P u → P (takeError e info (forgetCursors (forget u)))) :
    P (r.finish forget) := by
  cases r with
  | ok u => exact hok u h
  | raised e info u => exact hraised e info u h

/-! ### The filters -/

theorem filter_outsidePixels {visit : State → Run} (s : State)
    (hv : ∀ u, OutsidePixels s u → OutsidePixels s (visit u).state) :
    OutsidePixels s ((filterPass visit (accept s)).finish forgetPixels) :=
  finish_keeps (filterPass_keeps hv (fun _ _ h => h) _ (outsidePixels_refl s)) (fun _ h => h)
    fun _ _ _ h => h

theorem exec_gray_frame (s : State) :
    ∃ t, exec .gray s = .next t ∧ t.status.busy = false ∧ OutsidePixels s t :=
  ⟨_, rfl, finish_busy _ _,
    filter_outsidePixels s fun _ h => grayVisit_keeps h fun _ _ _ _ h _ => h⟩

theorem exec_dither_frame (s : State) :
    ∃ t, exec .dither s = .next t ∧ t.status.busy = false ∧ OutsidePixels s t := by
  rcases execDither_cases s with ⟨-, hx⟩ | ⟨-, hx⟩
  · exact ⟨_, hx, finish_busy _ _,
      filter_outsidePixels s fun _ h => ditherVisit_keeps h fun _ _ _ _ h _ => h⟩
  · exact ⟨_, hx, rfl, outsidePixels_refl s⟩

/-! ### `ENCODE` -/

theorem outsideStream_putBits {s : State} (f : BitField) (u : State) (h : OutsideStream s u) :
    OutsideStream s (putBits f u).state := by
  rcases putBits_cases f u with ⟨-, hp⟩ | ⟨-, -, hp⟩ | ⟨-, -, hp⟩ <;> rw [hp] <;> exact h

theorem exec_encode_frame (s : State) :
    ∃ t, exec .encode s = .next t ∧ t.status.busy = false ∧ OutsideStream s t := by
  rcases execEncode_cases s with ⟨-, hx⟩ | ⟨-, -, hx⟩ | ⟨-, -, hx⟩ | ⟨-, -, -, hx⟩
  · exact ⟨_, hx, rfl, outsideStream_refl s⟩
  · exact ⟨_, hx, rfl, outsideStream_refl s⟩
  · exact ⟨_, hx, rfl, outsideStream_refl s⟩
  · have hrun := emitImage_keeps (P := OutsideStream s) outsideStream_putBits (fun _ _ h => h)
      (fun _ h => h) (clog2 (imageSize s)) (s := { accept s with
        indexbits := BitVec.ofNat 7 (clog2 (imageSize s)), bitlen := 0, bitcur := 0 })
      (outsideStream_refl s)
    exact ⟨_, hx, finish_busy _ _, finish_keeps hrun.state (fun _ h => h) fun _ _ _ h => h⟩

/-! ### `CONVERT`, `DECODE` and the records -/

theorem outsideImage_removeBackground {s u : State} (h : OutsideImage s u) :
    OutsideImage s (removeBackground u) := by
  unfold removeBackground
  split <;> exact h

theorem exec_convert_frame (s : State) :
    ∃ t, exec .convert s = .next t ∧ t.status.busy = false ∧ OutsideImage s t := by
  rcases execConvert_cases s with ⟨-, hx⟩ | ⟨-, hx⟩
  · exact ⟨_, hx, rfl, outsideImage_refl s⟩
  · have hscan := scan_keeps (P := OutsideImage s) (fun _ _ h => h) (fun _ _ _ _ h _ => h)
      s.pix.size s.pix.size (setI (discardImage (accept s)) 0) (outsideImage_refl s)
    have hrun := hscan.bind fun u hu =>
      keeps_ok (s := finishConvert (removeBackground u)) (outsideImage_removeBackground hu)
    exact ⟨_, hx, finish_busy _ _, finish_keeps hrun.state (fun _ h => h) fun _ _ _ h => h⟩

theorem outsideImage_recordEffect {i : Instr} {s u : State} (hi : ∀ ib, i.slot ib ≠ .command)
    (h : OutsideImage s u) : OutsideImage s (recordEffect i u) := by
  rcases recordEffect_cases u hi with ⟨_, _, _, _, _, _, -, hr⟩ | ⟨info, -, hr⟩ <;> rw [hr] <;> exact h

theorem outsideImage_decodeTick {s u : State} (h : OutsideImage s u) :
    OutsideImage s (decodeTick u) := by
  rcases decodeTick_cases u with ht | ⟨i, hi, -, ht⟩ | ⟨offset, -, ht⟩ <;> rw [ht]
  · exact h
  · exact outsideImage_recordEffect hi h
  · exact h

theorem exec_decode_frame (s : State) :
    ∃ t, exec .decode s = .next t ∧ t.status.busy = false ∧ OutsideImage s t := by
  rcases execDecode_cases s with ⟨-, hx⟩ | ⟨-, hx⟩
  · exact ⟨_, hx, rfl, outsideImage_refl s⟩
  · exact ⟨_, hx, runDecode_ends _ _ (Nat.lt_add_of_pos_right (Nat.succ_pos 1)),
      runDecode_keeps (P := OutsideImage s) (fun _ h _ => outsideImage_decodeTick h) _ _
        (outsideImage_refl s)⟩

/-! ### Which instruction writes what -/

/-- What the next state `t` of instruction `i` shares with the state `s` before it (O56). -/
def WritesOwnState (i : Instr) (s t : State) : Prop :=
  SameHost s t ∧ (∀ ib, i.slot ib = .command → t.status.busy = false) ∧
    (i ≠ .sreset → SameSelect s t) ∧ (i ≠ .gray → i ≠ .dither → t.pix = s.pix) ∧
    (i ≠ .encode → i ≠ .sreset → t.bitlen = s.bitlen ∧ SameBits s t)

theorem writesOwnState_of_outsideImage {i : Instr} {s t : State}
    (hb : ∀ ib, i.slot ib = .command → t.status.busy = false) (h : OutsideImage s t) :
    WritesOwnState i s t := by
  obtain ⟨hhost, hsel, hpix, hlen, hbit⟩ := h
  exact ⟨hhost, hb, fun _ => hsel, fun _ _ => hpix, fun _ _ => ⟨hlen, bitRead_congr hbit⟩⟩

theorem writesOwnState_of_outsidePixels {i : Instr} {s t : State} (hi : i = .gray ∨ i = .dither)
    (hb : t.status.busy = false) (h : OutsidePixels s t) : WritesOwnState i s t := by
  obtain ⟨hhost, hsel, -, hlen, hbit⟩ := h
  exact ⟨hhost, fun _ _ => hb, fun _ => hsel, fun hg hd => absurd hi (not_or.mpr ⟨hg, hd⟩),
    fun _ _ => ⟨hlen, bitRead_congr hbit⟩⟩

theorem exec_record_writes {i : Instr} (s : State) (hi : ∀ ib, i.slot ib ≠ .command) :
    ∃ t, exec i s = .next t ∧ WritesOwnState i s t :=
  ⟨_, exec_record s hi, writesOwnState_of_outsideImage (fun ib h => absurd h (hi ib))
    (outsideImage_recordEffect hi (outsideImage_refl s))⟩

/-- Settles O56, from the frame of each instruction. -/
theorem eachInstructionWritesOnlyItsOwnState : Obligations.EachInstructionWritesOnlyItsOwnState := by
  intro i s
  change ∃ t, exec i s = .next t ∧ WritesOwnState i s t
  cases i with
  | nop | rsvd6 | rsvd7 | rsvd8 | rsvd9 | rsvd10 | rsvd11 | rsvd12 | rsvd13 | rsvd14 =>
    exact ⟨_, rfl, writesOwnState_of_outsideImage (fun _ _ => rfl) (outsideImage_refl s)⟩
  | gray =>
    obtain ⟨t, hx, hb, h⟩ := exec_gray_frame s
    exact ⟨t, hx, writesOwnState_of_outsidePixels (.inl rfl) hb h⟩
  | dither =>
    obtain ⟨t, hx, hb, h⟩ := exec_dither_frame s
    exact ⟨t, hx, writesOwnState_of_outsidePixels (.inr rfl) hb h⟩
  | convert =>
    obtain ⟨t, hx, hb, h⟩ := exec_convert_frame s
    exact ⟨t, hx, writesOwnState_of_outsideImage (fun _ _ => hb) h⟩
  | encode =>
    obtain ⟨t, hx, hb, hhost, hsel, -, hpix⟩ := exec_encode_frame s
    exact ⟨t, hx, hhost, fun _ _ => hb, fun _ => hsel, fun _ _ => hpix, fun h => absurd rfl h⟩
  | decode =>
    obtain ⟨t, hx, hb, h⟩ := exec_decode_frame s
    exact ⟨t, hx, writesOwnState_of_outsideImage (fun _ _ => hb) h⟩
  | sreset =>
    exact ⟨_, rfl, ⟨rfl, rfl, rfl⟩, fun _ _ => rfl, fun h => absurd rfl h, fun _ _ => rfl,
      fun _ h => absurd rfl h⟩
  | hdr | color | sc | rc | st | rt => exact exec_record_writes s (by rintro _ ⟨⟩)

/-! ### Who changes the image -/

theorem command_sameImage {i : Instr} {s t : State} (hi : i.slot 0 = .command)
    (hconvert : i ≠ .convert) (hdecode : i ≠ .decode) (hsreset : i ≠ .sreset)
    (hx : exec i s = .next t) : SameImage s t := by
  cases i with
  | nop | rsvd6 | rsvd7 | rsvd8 | rsvd9 | rsvd10 | rsvd11 | rsvd12 | rsvd13 | rsvd14 =>
    cases hx
    exact sameImage_refl s
  | gray =>
    obtain ⟨u, hu, -, -, -, himg, -⟩ := exec_gray_frame s
    cases hu.symm.trans hx
    exact himg
  | dither =>
    obtain ⟨u, hu, -, -, -, himg, -⟩ := exec_dither_frame s
    cases hu.symm.trans hx
    exact himg
  | encode =>
    obtain ⟨u, hu, -, -, -, himg, -⟩ := exec_encode_frame s
    cases hu.symm.trans hx
    exact himg
  | convert => exact absurd rfl hconvert
  | decode => exact absurd rfl hdecode
  | sreset => exact absurd rfl hsreset
  | hdr | color | sc | rc | st | rt => cases hi

/-- A value written to `CMD` gives a command only if its low 4 bits are the command's code. -/
theorem code_of_commandOf {v code : Nat} {i : Instr} (hf : i.fields 0 = [⟨code, 4⟩])
    (h : commandOf (BitVec.ofNat 4 v) = i) : v % 16 = code := by
  have hfields := fields_commandOf 0 (BitVec.ofNat 4 v)
  rw [h, hf] at hfields
  simpa using hfields.symm

theorem writeCmd_sameImage {v : Nat} {s t : State} (hconvert : v % 16 ≠ 3) (hdecode : v % 16 ≠ 5)
    (hsreset : v % 16 ≠ 15) (hx : writeCmd v s = .next t) : SameImage s t := by
  rcases writeCmd_cases v s with ⟨-, hw⟩ | ⟨-, -, -, hw⟩ | ⟨-, -, hw⟩ <;> rw [hw] at hx
  · cases hx; exact sameImage_refl s
  · cases hx; exact sameImage_refl s
  · exact command_sameImage (commandOf_slot _ 0) (fun h => hconvert (code_of_commandOf rfl h))
      (fun h => hdecode (code_of_commandOf rfl h)) (fun h => hsreset (code_of_commandOf rfl h)) hx

theorem writeReg_sameImage (s : State) (r : Reg) (v : Nat) : SameImage s (writeReg s r v) := by
  cases r <;> exact sameImage_refl s

/-- A move of the host to an idle block changes the image only as a reset or by a command that may. -/
theorem move_sameImage {m : HostMove} {s t : State} (hidle : s.status.busy = false)
    (hreset : m ≠ .hardReset)
    (hcmd : ∀ v, m = .writeReg 0 v → v % 16 ≠ 3 ∧ v % 16 ≠ 5 ∧ v % 16 ≠ 15)
    (hm : MoveEffect m s t) : SameImage s t := by
  cases hm with
  | read | byte | resize | pixel => exact sameImage_refl s
  | command hw =>
    obtain ⟨h3, h5, h15⟩ := hcmd _ rfl
    exact writeCmd_sameImage h3 h5 h15 hw
  | register r _ => exact writeReg_sameImage s r _
  | reset => exact absurd rfl hreset
  | wait =>
    rw [if_neg (by simp [hidle])]
    exact sameImage_refl s

/-- Settles O57, by the move the step makes. -/
theorem onlyConvertDecodeAndResetsChangeTheImage :
    Obligations.OnlyConvertDecodeAndResetsChangeTheImage := by
  intro s t hidle hstep hreset hcmd
  rcases step_next_cases hstep with ⟨-, hrun⟩ | ⟨m, ms, hhost, hmove⟩
  · exact move_sameImage (m := .wait) hidle (by rintro ⟨⟩) (by rintro _ ⟨⟩) (hostMove_effect hrun)
  · refine move_sameImage (s := { s with host := ms }) hidle ?_ ?_ (hostMove_effect hmove)
    · rintro rfl
      exact hreset (by rw [hhost]; rfl)
    · rintro v rfl
      exact hcmd v (by rw [hhost]; rfl)

end Sys2Proof.Machine
end

section
/-! The byte view of the bit buffer (20_memory.md R67): a byte written, what it leaves alone, its read, and
O52. -/

namespace Sys2Proof.Machine

/-! ### A byte in the stream -/

/-- Bit `j` of a byte in stream order is bit `7-j` of its value (20_memory.md R67). -/
theorem bitRead_byteWrite_inside (s : State) (m : Nat) (v : Byte) {j : Nat} (hj : j < 8) :
    bitRead (byteWrite s m v) (8 * m + j) = v.getLsbD (7 - j) := by
  have hlen : j < (fieldBits 8 v.toNat).length := by rwa [fieldBits_length]
  rw [byteWrite, bitRead_bitWriteList_inside s _ hlen, fieldBits_getElem, BitVec.testBit_toNat]

theorem bitRead_byteWrite_outside (s : State) (m : Nat) (v : Byte) {k : Nat}
    (hk : k < 8 * m ∨ 8 * m + 8 ≤ k) : bitRead (byteWrite s m v) k = bitRead s k :=
  bitRead_bitWriteList_outside s _ (by rwa [fieldBits_length])

theorem byteRead_byteWrite (s : State) (m : Nat) (v : Byte) : byteRead (byteWrite s m v) m = v := by
  have hbits := bitsAt_bitWriteList s (8 * m) (fieldBits 8 v.toNat)
  rw [fieldBits_length] at hbits
  rw [byteRead, byteWrite, hbits, bitsVal_fieldBits v.isLt, BitVec.ofNat_toNat, BitVec.setWidth_eq]

/-! ### The host's two moves -/

/-- An idle block makes the move (70_reset_and_hazards.md R279). -/
theorem whenIdle_of_idle {s : State} (hidle : s.status.busy = false)
    (move : Host.Outcome State Fault Refusal) : whenIdle s move = move := by
  simp [whenIdle, hidle]

theorem hostMove_writeByte {s : State} {m : Nat} (v : Byte) (hidle : s.status.busy = false)
    (hm : hasByte s.cap m) : hostMove (.writeByte m v) s = .next (byteWrite s m v) := by
  rw [hostMove, hostWriteByte, whenIdle_of_idle hidle, if_pos hm]

theorem hostMove_readByte {s : State} {m : Nat} (hidle : s.status.busy = false)
    (hm : hasByte s.cap m) :
    hostMove (.readByte m) s = .next (returnToHost (byteRead s m).toNat s) := by
  rw [hostMove, hostReadByte, whenIdle_of_idle hidle, if_pos hm]

/-- What a byte reads as depends on the bit buffer alone, not on the host's moves. -/
theorem byteRead_host (s : State) (m : Nat) (ms : List HostMove) :
    byteRead { s with host := ms } m = byteRead s m := rfl

/-- Settles O52: the write is `byteWrite`, and the read returns what `byteWrite` put there. -/
theorem hostBytesAreEightStreamBits : Obligations.HostBytesAreEightStreamBits := by
  intro s m v ms hhost hidle hm
  have hwrite := (step_cons hhost).trans (hostMove_writeByte v hidle hm)
  have hread := (step_cons (s := byteWrite { s with host := .readByte m :: ms } m v) rfl).trans
    (hostMove_readByte hidle hm)
  rw [byteRead_host, byteRead_byteWrite] at hread
  exact ⟨_, _, hwrite, hread, fun _ hj => bitRead_byteWrite_inside _ m v hj,
    fun _ hk => bitRead_byteWrite_outside _ m v hk, rfl, rfl⟩

end Sys2Proof.Machine
end

section
/-! The decoder and the encoder as inverses (30_encoding.md R90 to R100): O1, O2, and the spec's own words,
O4. -/

namespace Sys2Proof

/-! ### What a field's bits say -/

/-- Reading the field that holds a word gives the word's value. -/
theorem readField_toNat {β : Type} {n offset : Nat} (v : BitVec n) (rest : List Bool)
    (k : Nat → List Bool → Except Reject β) :
    readField n offset (fieldBits n v.toNat ++ rest) k = k v.toNat rest :=
  readField_fieldBits rest k v.isLt

/-- A field that was read is the front of the bits, written out from its value. -/
theorem readField_eq_ok_word {β : Type} {n offset : Nat} {bits : List Bool}
    {k : Nat → List Bool → Except Reject β} {r : β} (h : readField n offset bits k = .ok r) :
    ∃ (v : BitVec n) (rest : List Bool), bits = fieldBits n v.toNat ++ rest ∧
      k v.toNat rest = .ok r := by
  rcases readField_cases h with ⟨-, hr⟩ | ⟨front, rest, rfl, rfl, hr⟩
  · cases hr
  · have hv : (BitVec.ofNat front.length (bitsVal front)).toNat = bitsVal front := by
      rw [BitVec.toNat_ofNat, Nat.mod_eq_of_lt (bitsVal_lt front)]
    exact ⟨BitVec.ofNat _ (bitsVal front), rest, by rw [hv, fieldBits_bitsVal], by rw [hv, hr]⟩

/-! ### Commands -/

/-- Every instruction of the command port has a code (30_encoding.md R91, R92). -/
theorem exists_commandOf {ib : Nat} {i : Instr} (h : i.slot ib = .command) :
    ∃ code, commandOf code = i := by
  refine ⟨BitVec.ofNat 4 (bitsVal (encode 0 i)), ?_⟩
  cases i with
  | nop | gray | dither | convert | encode | decode | rsvd6 | rsvd7 | rsvd8 | rsvd9 | rsvd10 | rsvd11
  | rsvd12 | rsvd13 | rsvd14 | sreset => rfl
  | hdr | color | sc | rc | st | rt => cases h

theorem commandOf_wf (ib : Nat) (code : BitVec 4) : (commandOf code).wf ib = true := by
  unfold commandOf
  split <;> rfl

theorem encode_commandOf (ib : Nat) (code : BitVec 4) :
    encode ib (commandOf code) = fieldBits 4 code.toNat := by
  simp [encode, fields_commandOf]

theorem decode_encode_command {ib : Nat} {i : Instr} (rest : List Bool) (h : i.slot ib = .command) :
    decode .command (encode ib i ++ rest) = .ok (i, rest) := by
  obtain ⟨code, rfl⟩ := exists_commandOf h
  rw [encode_commandOf, decode, decodeCommand, readField_toNat, BitVec.ofNat_toNat,
    BitVec.setWidth_eq]

/-! ### What was read is a word -/

/-- What is read at a place in a stream with `ib` index bits: a well-formed instruction of that place,
whose word the bits start with. -/
def ReadsWord (ib : Nat) (slot : Slot) (bits rest : List Bool) (i : Instr) : Prop :=
  i.slot ib = slot ∧ i.wf ib = true ∧ encode ib i ++ rest = bits

theorem decodeCommand_readsWord {bits rest : List Bool} {i : Instr} (ib : Nat)
    (h : decodeCommand bits = .ok (i, rest)) : ReadsWord ib .command bits rest i := by
  obtain ⟨code, _, rfl, h₁⟩ := readField_eq_ok_word h
  cases h₁
  exact ⟨Machine.commandOf_slot _ ib, commandOf_wf ib _, by simp [encode_commandOf]⟩

theorem decodeColour_readsWord {bits rest : List Bool} {i : Instr} (ib : Nat)
    (h : decodeColour bits = .ok (i, rest)) : ReadsWord ib .colour bits rest i := by
  obtain ⟨r, _, rfl, h₁⟩ := readField_eq_ok_word h
  obtain ⟨g, _, rfl, h₂⟩ := readField_eq_ok_word h₁
  obtain ⟨b, _, rfl, h₃⟩ := readField_eq_ok_word h₂
  cases h₃
  exact ⟨rfl, rfl, by simp [encode, Instr.fields, colourFields]⟩

theorem decodeHeader_readsWord {bits rest : List Bool} {i : Instr} (ib : Nat)
    (h : decodeHeader bits = .ok (i, rest)) : ReadsWord ib .header bits rest i := by
  obtain ⟨r, _, rfl, h₁⟩ := readField_eq_ok_word h
  obtain ⟨g, _, rfl, h₂⟩ := readField_eq_ok_word h₁
  obtain ⟨b, _, rfl, h₃⟩ := readField_eq_ok_word h₂
  obtain ⟨n, _, rfl, h₄⟩ := readField_eq_ok_word h₃
  obtain ⟨width, _, rfl, h₅⟩ := readField_eq_ok_word h₄
  obtain ⟨height, _, rfl, h₆⟩ := readField_eq_ok_word h₅
  cases h₆
  exact ⟨rfl, by simp [Instr.wf, BitVec.isLt], by simp [encode, Instr.fields, colourFields]⟩

/-- The four values of the tag are the four entry records (30_encoding.md R95). -/
theorem decodeEntry_readsWord {ib : Nat} {bits rest : List Bool} {i : Instr} (hib : ib ≤ 127)
    (h : decodeEntry ib bits = .ok (i, rest)) : ReadsWord ib (.entry ib) bits rest i := by
  obtain ⟨tag, _, rfl, h₁⟩ := readField_eq_ok_word h
  obtain ⟨a, _, rfl, h₂⟩ := readField_eq_ok_word h₁
  have htag : ∀ t : BitVec 2, t = 0 ∨ t = 1 ∨ t = 2 ∨ t = 3 := by decide
  rcases htag tag with rfl | rfl | rfl | rfl
  · change Except.ok (Instr.sc a.toNat, _) = _ at h₂
    cases h₂
    exact ⟨rfl, by simp [Instr.wf, hib, a.isLt], by simp [encode, Instr.fields]⟩
  · change readField ib (2 + ib) _ (fun b bits => .ok (Instr.rc a.toNat b, bits)) = _ at h₂
    obtain ⟨b, _, rfl, h₃⟩ := readField_eq_ok_word h₂
    cases h₃
    exact ⟨rfl, by simp [Instr.wf, hib, a.isLt, b.isLt], by simp [encode, Instr.fields]⟩
  · change Except.ok (Instr.st a.toNat, _) = _ at h₂
    cases h₂
    exact ⟨rfl, by simp [Instr.wf, hib, a.isLt], by simp [encode, Instr.fields]⟩
  · change readField ib (2 + ib) _ (fun b bits => .ok (Instr.rt a.toNat b, bits)) = _ at h₂
    obtain ⟨b, _, rfl, h₃⟩ := readField_eq_ok_word h₂
    cases h₃
    exact ⟨rfl, by simp [Instr.wf, hib, a.isLt, b.isLt], by simp [encode, Instr.fields]⟩

/-! ### The obligations -/

/-- Settles O1, one field after the other by `readField_fieldBits`. -/
theorem decodingAnEncodedInstructionGivesItBack :
    Obligations.DecodingAnEncodedInstructionGivesItBack := by
  intro ib i rest hwf
  cases i with
  | nop | gray | dither | convert | encode | decode | rsvd6 | rsvd7 | rsvd8 | rsvd9 | rsvd10 | rsvd11
  | rsvd12 | rsvd13 | rsvd14 | sreset => exact decode_encode_command (ib := ib) rest rfl
  | hdr bg hib w h =>
    simp only [Instr.wf, Bool.and_eq_true, decide_eq_true_eq] at hwf
    obtain ⟨hw, hh⟩ := hwf
    simp [encode, Instr.fields, colourFields, Instr.slot, decode, decodeHeader, readField_toNat,
      readField_fieldBits, hw, hh]
  | color c =>
    simp [encode, Instr.fields, colourFields, Instr.slot, decode, decodeColour, readField_toNat]
  | sc a | st a =>
    simp only [Instr.wf, Bool.and_eq_true, decide_eq_true_eq] at hwf
    obtain ⟨-, ha⟩ := hwf
    simp [encode, Instr.fields, Instr.slot, decode, decodeEntry, readField_fieldBits, Nat.testBit, ha]
  | rc a b | rt a b =>
    simp only [Instr.wf, Bool.and_eq_true, decide_eq_true_eq] at hwf
    obtain ⟨⟨-, ha⟩, hb⟩ := hwf
    simp [encode, Instr.fields, Instr.slot, decode, decodeEntry, readField_fieldBits, Nat.testBit, ha, hb]

/-- Settles O2, by the place: the fields read in a row are the word. -/
theorem decodedBitsAreTheInstructionsWord : Obligations.DecodedBitsAreTheInstructionsWord := by
  intro ib slot bits rest i hslot h
  cases slot with
  | command => exact decodeCommand_readsWord ib h
  | header => exact decodeHeader_readsWord ib h
  | colour => exact decodeColour_readsWord ib h
  | entry n =>
    obtain ⟨rfl, hib⟩ := hslot n rfl
    exact decodeEntry_readsWord hib h

/-- Settles O4: each word is read by computation. -/
theorem wordsWrittenOutInTheSpecDecode : Obligations.WordsWrittenOutInTheSpecDecode :=
  ⟨rfl, rfl, rfl, rfl, rfl, rfl, rfl, rfl⟩

end Sys2Proof
end

section
/-! Where the decoder rejects (30_encoding.md R100, 43_decoder.md R210): the reading of a record as the
reading of its fields one after the other, and O3. -/

namespace Sys2Proof

open Sys2Proof.Claims Sys2Proof.Machine

/-! ### Reading a row of fields -/

/-- `ReadsFields offset widths len r`: with `len` bits left at `offset`, reading fields of these widths
one after the other answers `r`. A rejection names the first field whose bits are not all there. -/
inductive ReadsFields {β : Type} : Nat → List Nat → Nat → Except Reject β → Prop
  | done (offset len : Nat) (x : β) : ReadsFields offset [] len (.ok x)
  | cut {offset n len : Nat} (ns : List Nat) : len < n →
      ReadsFields offset (n :: ns) len (.error (.endsInField offset))
  | field {offset n len : Nat} {ns : List Nat} {r : Except Reject β} :
      ReadsFields (offset + n) ns len r → ReadsFields offset (n :: ns) (n + len) r

variable {β : Type} {offset len : Nat} {widths : List Nat}

theorem ReadsFields.ok_iff {r : Except Reject β} (h : ReadsFields offset widths len r) :
    (∃ x, r = .ok x) ↔ widths.sum ≤ len := by
  induction h with
  | done => simp
  | cut ns hlt => simpa using by omega
  | field _ ih =>
    rw [ih, List.sum_cons]
    omega

theorem ReadsFields.rejection {o : Nat}
    (h : ReadsFields offset widths len (.error (.endsInField o) : Except Reject β)) :
    ∃ before width after, widths = before ++ width :: after ∧ o = offset + before.sum ∧
      before.sum ≤ len ∧ len < before.sum + width := by
  generalize hr : (Except.error (.endsInField o) : Except Reject β) = r at h
  induction h with
  | done => cases hr
  | @cut offset n len ns hlt =>
    cases hr
    exact ⟨[], n, ns, rfl, rfl, by simp, by simpa using hlt⟩
  | @field offset n len ns r _ ih =>
    obtain ⟨before, width, after, rfl, rfl, hle, hlt⟩ := ih hr
    refine ⟨n :: before, width, after, rfl, ?_, ?_, ?_⟩ <;> rw [List.sum_cons] <;> omega

/-- Reading a field, and then the others if its bits are all there. -/
theorem readsFields_readField {n : Nat} {bits : List Bool} {k : Nat → List Bool → Except Reject β}
    (hk : ∀ front rest, front.length = n → bits = front ++ rest →
      ReadsFields (offset + n) widths rest.length (k (bitsVal front) rest)) :
    ReadsFields offset (n :: widths) bits.length (readField n offset bits k) := by
  rcases readField_cases (rfl : readField n offset bits k = _) with
    ⟨hlt, hr⟩ | ⟨front, rest, hlen, hbits, hr⟩ <;> rw [hr]
  · exact .cut widths hlt
  · rw [hbits, List.length_append, hlen]
    exact .field (hk front rest hlen hbits)

/-! ### The formats -/

theorem decodeCommand_readsFields (bits : List Bool) :
    ReadsFields 0 (fieldWidths .command bits) bits.length (decodeCommand bits) :=
  readsFields_readField fun _ _ _ _ => .done _ _ _

theorem decodeColour_readsFields (bits : List Bool) :
    ReadsFields 0 (fieldWidths .colour bits) bits.length (decodeColour bits) :=
  readsFields_readField fun _ _ _ _ => readsFields_readField fun _ _ _ _ =>
    readsFields_readField fun _ _ _ _ => .done _ _ _

/-- The index width that `fieldWidths` finds in the bits is the value of the header's fourth field. -/
theorem decodeHeader_readsFields (bits : List Bool) :
    ReadsFields 0 (fieldWidths .header bits) bits.length (decodeHeader bits) :=
  readsFields_readField fun r _ hr hbits => readsFields_readField fun g _ hg hrest₁ =>
    readsFields_readField fun b _ hb hrest₂ => readsFields_readField fun n rest hn hrest₃ => by
      have hwidth : (bits.drop 24).take 7 = n := by
        have hfront : bits = (r ++ g ++ b) ++ (n ++ rest) := by simp [hbits, hrest₁, hrest₂, hrest₃]
        rw [hfront, List.drop_left' (by simp [hr, hg, hb]), List.take_left' hn]
      rw [hwidth]
      exact readsFields_readField fun _ _ _ _ => readsFields_readField fun _ _ _ _ => .done _ _ _

/-- The bit of the tag that `fieldWidths` looks at is the one the decoder branches on. -/
theorem decodeEntry_readsFields (ib : Nat) (bits : List Bool) :
    ReadsFields 0 (fieldWidths (.entry ib) bits) bits.length (decodeEntry ib bits) := by
  have hwidths : fieldWidths (.entry ib) bits =
      2 :: ib :: if bits[1]? = some true then [ib] else [] := by
    simp only [fieldWidths]
    split <;> rfl
  rw [hwidths]
  refine readsFields_readField fun tag _ htag hbits => readsFields_readField fun _ _ _ _ => ?_
  obtain ⟨t, k, rfl⟩ := List.length_eq_two.mp htag
  have hsecond : bits[1]? = some k := by rw [hbits]; rfl
  have hrun : (bitsVal [t, k]).testBit 0 = k := by cases t <;> cases k <;> rfl
  rw [hsecond, hrun]
  cases k with
  | false => exact .done _ _ _
  | true =>
    rw [if_pos rfl, if_pos rfl]
    exact readsFields_readField fun _ _ _ _ => .done _ _ _

theorem decode_readsFields (slot : Slot) (bits : List Bool) :
    ReadsFields 0 (fieldWidths slot bits) bits.length (decode slot bits) := by
  cases slot with
  | command => exact decodeCommand_readsFields bits
  | header => exact decodeHeader_readsFields bits
  | colour => exact decodeColour_readsFields bits
  | entry ib => exact decodeEntry_readsFields ib bits

theorem fieldWidths_sum_le {slot : Slot} (bits : List Bool) (hslot : ∀ n, slot = .entry n → n ≤ 127) :
    (fieldWidths slot bits).sum ≤ maxRecordBits := by
  cases slot with
  | command => simp [fieldWidths, maxRecordBits]
  | colour => simp [fieldWidths, maxRecordBits]
  | header =>
    have hlen : ((bits.drop 24).take 7).length ≤ 7 := List.length_take_le 7 _
    have hib : bitsVal ((bits.drop 24).take 7) < 2 ^ 7 :=
      (bitsVal_lt _).trans_le (Nat.pow_le_pow_right Nat.two_pos hlen)
    simp only [fieldWidths, maxRecordBits, List.sum_cons, List.sum_nil]
    omega
  | entry ib =>
    have hib : ib ≤ 127 := hslot ib rfl
    simp only [fieldWidths, maxRecordBits]
    split <;> simp only [List.sum_cons, List.sum_nil] <;> omega

/-- Settles O3: `decode` reads the row of fields that `fieldWidths` gives. -/
theorem decoderRejectsOnlyWhereTheBitsEnd : Obligations.DecoderRejectsOnlyWhereTheBitsEnd := by
  intro slot bits
  have hreads := decode_readsFields slot bits
  refine ⟨hreads.ok_iff, fieldWidths_sum_le bits, fun offset hr => ?_⟩
  rw [hr] at hreads
  obtain ⟨before, width, after, hwidths, ho, hle, hlt⟩ := hreads.rejection
  rw [Nat.zero_add] at ho
  exact ⟨before, width, after, hwidths, ho, ho ▸ hle, ho ▸ hlt⟩

end Sys2Proof
end

section
/-! `ENCODE` as one row of fields (42_encoder.md R180 to R188): the emitting loops write the fields of the
image's records and otherwise move cursors only. O23, and the reserved codes of O41. -/

namespace Sys2Proof.Machine

open Sys2Proof.Claims

/-! ### The emitting loops, without their cursors -/

/-- The run with the internal cursors replaced in the state it ended in. -/
def Run.withCur (c : Cursors) : Run → Run
  | .ok s => .ok { s with cur := c }
  | .raised e info s => .raised e info { s with cur := c }

/-- `f` does what writing the fields does, but for the internal cursors. -/
def Writes (f : State → Run) (fields : List BitField) : Prop :=
  ∀ s c, (f s).withCur c = putFields fields { s with cur := c }

theorem putBits_withCur (f : BitField) (s : State) (c : Cursors) :
    (putBits f s).withCur c = putBits f { s with cur := c } := by
  simp only [putBits]
  split
  · rfl
  · split <;> rfl

theorem putFields_append (xs ys : List BitField) (s : State) :
    putFields (xs ++ ys) s = (putFields xs s).bind (putFields ys) := by
  induction xs generalizing s with
  | nil => rfl
  | cons x xs ih =>
    rw [List.cons_append, putFields, putFields]
    cases putBits x s with
    | ok t => exact ih t
    | raised e info t => rfl

theorem Writes.bind {f g : State → Run} {xs ys : List BitField} (hf : Writes f xs)
    (hg : Writes g ys) : Writes (fun s => (f s).bind g) (xs ++ ys) := by
  intro s c
  rw [putFields_append, ← hf s c]
  change ((f s).bind g).withCur c = _
  cases f s with
  | ok t => exact hg t c
  | raised e info t => rfl

/-- Moving the cursors first makes no difference. -/
theorem Writes.moved {f : State → Run} {fields : List BitField} (hf : Writes f fields)
    (move : State → Cursors) : Writes (fun s => f { s with cur := move s }) fields :=
  fun s c => hf { s with cur := move s } c

theorem putBits_writes (f : BitField) : Writes (putBits f) [f] := by
  intro s c
  rw [putBits_withCur, putFields]
  cases putBits f { s with cur := c } <;> rfl

theorem putFields_writes : ∀ fields, Writes (putFields fields) fields
  | [] => fun _ _ => rfl
  | f :: fs => (putBits_writes f).bind (putFields_writes fs)

/-- The fields of some records, in order. -/
def recordFields (ib : Nat) (records : List Instr) : List BitField :=
  records.flatMap fun i => i.fields ib

theorem emitEntries_writes (ib : Nat) :
    ∀ es, Writes (emitEntries ib es) (recordFields ib (entryRecords es))
  | [] => fun _ _ => rfl
  | _ :: es => (putFields_writes _).bind ((emitEntries_writes ib es).moved _)

theorem recordFields_groups (ib : Nat) (g : ColorGroup) (gs : List ColorGroup) :
    recordFields ib ((g :: gs).flatMap groupRecords) = (Instr.color g.color).fields ib ++
      (recordFields ib (entryRecords g.entries) ++ recordFields ib (gs.flatMap groupRecords)) := by
  simp only [recordFields, groupRecords, List.flatMap_cons, List.flatMap_append,
    List.cons_append]

theorem emitGroups_writes (ib : Nat) :
    ∀ gs, Writes (emitGroups ib gs) (recordFields ib (gs.flatMap groupRecords))
  | [] => fun _ _ => rfl
  | g :: gs => by
    rw [recordFields_groups]
    exact (putFields_writes _).bind
      (((emitEntries_writes ib g.entries).moved _).bind ((emitGroups_writes ib gs).moved _))

theorem putFields_grp (fields : List BitField) (s : State) :
    (putFields fields s).state.grp = s.grp := by
  refine putFields_keeps (P := fun t => t.grp = s.grp) (fun f t ht => ?_) fields s rfl
  rcases putBits_cases f t with ⟨-, hp⟩ | ⟨-, -, hp⟩ | ⟨-, -, hp⟩ <;> rw [hp] <;> exact ht

/-- `ENCODE`'s run is the row of the image's fields, then the padding. -/
theorem emitImage_withCur (ib : Nat) (s : State) (c : Cursors) :
    (emitImage ib s).withCur c =
      ((putFields ((Instr.hdr s.imgBg s.indexbits s.imgW.toNat s.imgH.toNat).fields ib ++
        recordFields ib (s.grp.flatMap groupRecords)) { s with cur := c }).bind
          fun t => .ok (padLastByte t)) := by
  rw [← (putFields_writes _).bind ((emitGroups_writes ib s.grp).moved fun t => (setG t 0).cur) s c]
  have hgrp := putFields_grp ((Instr.hdr s.imgBg s.indexbits s.imgW.toNat s.imgH.toNat).fields ib) s
  simp only [emitImage, emit]
  change _ = Run.bind (Run.withCur c (Run.bind _ fun t => emitGroups ib s.grp (setG t 0))) _
  cases hhdr : putFields ((Instr.hdr s.imgBg s.indexbits s.imgW.toNat s.imgH.toNat).fields ib) s with
  | raised e info t => rfl
  | ok t =>
    rw [hhdr, state_ok] at hgrp
    rw [bind_ok, bind_ok, hgrp]
    cases emitGroups ib s.grp (setG t 0) <;> rfl

/-! ### `ENCODE` -/

/-- The state in which `ENCODE` begins to write (42_encoder.md R185). -/
def encodeStart (s : State) : State :=
  { accept s with indexbits := BitVec.ofNat 7 (clog2 (imageSize s)), bitlen := 0, bitcur := 0 }

/-- The cursors are given up at the end of a command, so they do not matter. -/
theorem finish_withCur (c : Cursors) (r : Run) :
    (r.withCur c).finish forgetStream = r.finish forgetStream := by
  cases r <;> rfl

theorem fieldsOf_eq (s : State) : fieldsOf s =
    (Instr.hdr s.imgBg (BitVec.ofNat 7 (clog2 (imageSize s))) s.imgW.toNat s.imgH.toNat).fields
      (clog2 (imageSize s)) ++ recordFields (clog2 (imageSize s)) (s.grp.flatMap groupRecords) := by
  rw [fieldsOf, recordsOf, imageRecords, List.flatMap_cons, recordFields]

/-- `ENCODE` of an image it can size writes the fields of the image's records, and pads the last byte. -/
theorem exec_encode_eq {s : State} (h : encodable s) :
    exec .encode s = .next (((putFields (fieldsOf s) (encodeStart s)).bind fun t =>
      .ok (padLastByte t)).finish forgetStream) := by
  obtain ⟨himg, hsize, hib⟩ := h
  rcases execEncode_cases s with ⟨h, -⟩ | ⟨-, h, -⟩ | ⟨-, h, -⟩ | ⟨-, -, -, hx⟩
  · rw [himg] at h
    cases h
  · exact absurd h hsize
  · exact absurd hib (not_le.mpr h)
  · rw [fieldsOf_eq]
    refine hx.trans (congrArg _ ?_)
    rw [← finish_withCur s.cur]
    exact congrArg _ (emitImage_withCur _ (encodeStart s) s.cur)

/-! ### The length of the stream -/

theorem widthOf_append (xs ys : List BitField) : widthOf (xs ++ ys) = widthOf xs + widthOf ys := by
  simp [widthOf]

theorem widthOf_entryRecord (ib : Nat) (terminal : Bool) (e : Entry) :
    widthOf ((entryRecord terminal e).fields ib) = entryLength ib e := by
  cases e <;> cases terminal <;> simp [widthOf, entryRecord, Instr.fields, entryLength, two_mul]

theorem widthOf_entryRecords (ib : Nat) (es : List Entry) :
    widthOf (recordFields ib (entryRecords es)) = (es.map (entryLength ib)).sum := by
  induction es with
  | nil => rfl
  | cons e es ih =>
    rw [List.map_cons, List.sum_cons, ← ih, ← widthOf_entryRecord ib es.isEmpty e, ← widthOf_append]
    rfl

theorem widthOf_groupRecords (ib : Nat) (gs : List ColorGroup) :
    widthOf (recordFields ib (gs.flatMap groupRecords)) =
      (gs.map fun g => 24 + (g.entries.map (entryLength ib)).sum).sum := by
  induction gs with
  | nil => rfl
  | cons g gs ih =>
    have hcolor : widthOf ((Instr.color g.color).fields ib) = 24 := rfl
    rw [List.map_cons, List.sum_cons, ← ih, ← widthOf_entryRecords, recordFields_groups, widthOf_append,
      widthOf_append, hcolor, Nat.add_assoc]

/-- The fields of an image are as wide as its stream is long (30_encoding.md R98). -/
theorem widthOf_fieldsOf {s : State} (h : clog2 (imageSize s) ≤ 127) :
    widthOf (fieldsOf s) = streamLength (clog2 (imageSize s)) s.grp := by
  have hib : clog2 (imageSize s) % 2 ^ 7 = clog2 (imageSize s) := Nat.mod_eq_of_lt (by omega)
  rw [streamLength, fieldsOf_eq, widthOf_append, widthOf_groupRecords]
  simp only [widthOf, Instr.fields, colourFields, BitVec.toNat_ofNat, hib, List.map_append,
    List.map_cons, List.map_nil, List.sum_append, List.sum_cons, List.sum_nil]
  omega

/-! ### The stream that was written -/

theorem fits_colourFields (c : Color) : ∀ f ∈ colourFields c, fits f.value f.width := by
  simp only [colourFields, List.forall_mem_cons]
  exact ⟨c.r.isLt, c.g.isLt, c.b.isLt, by simp⟩

/-- The fields of a well-formed instruction fit their widths (30_encoding.md R96). -/
theorem fits_of_wf {ib : Nat} {i : Instr} (h : i.wf ib = true) :
    ∀ f ∈ i.fields ib, fits f.value f.width := by
  cases i with
  | nop | gray | dither | convert | encode | decode | rsvd6 | rsvd7 | rsvd8 | rsvd9 | rsvd10 | rsvd11
  | rsvd12 | rsvd13 | rsvd14 | sreset => simp [Instr.fields]
  | hdr bg hib width height =>
    simp only [Instr.wf, Bool.and_eq_true, decide_eq_true_eq] at h
    obtain ⟨hwidth, hheight⟩ := h
    simp only [Instr.fields, List.forall_mem_append, List.forall_mem_cons]
    exact ⟨fits_colourFields bg, hib.isLt, hwidth, hheight, by simp⟩
  | color c => exact fits_colourFields c
  | sc a | st a =>
    simp only [Instr.wf, Bool.and_eq_true, decide_eq_true_eq] at h
    obtain ⟨-, ha⟩ := h
    simp [Instr.fields, ha]
  | rc a b | rt a b =>
    simp only [Instr.wf, Bool.and_eq_true, decide_eq_true_eq] at h
    obtain ⟨⟨-, ha⟩, hb⟩ := h
    simp [Instr.fields, ha, hb]

theorem fieldBits_fieldsOf (s : State) :
    ((fieldsOf s).flatMap fun f => fieldBits f.width f.value) =
      bitsOf (clog2 (imageSize s)) (recordsOf s) := List.flatMap_assoc

theorem bitsOf_recordsOf_length {s : State} (h : clog2 (imageSize s) ≤ 127) :
    (bitsOf (clog2 (imageSize s)) (recordsOf s)).length =
      streamLength (clog2 (imageSize s)) s.grp := by
  rw [← fieldBits_fieldsOf, ← widthOf_fieldsOf h, List.length_flatMap, widthOf]
  simp only [fieldBits_length]

/-- The state in which every record has been written and nothing been padded. -/
def streamWritten (s : State) : State :=
  { bitWriteList (encodeStart s) 0 (bitsOf (clog2 (imageSize s)) (recordsOf s)) with
    bitlen := streamLength (clog2 (imageSize s)) s.grp
    bitcur := streamLength (clog2 (imageSize s)) s.grp }

theorem putFields_fieldsOf {s : State} (hib : clog2 (imageSize s) ≤ 127)
    (hwf : ∀ i ∈ recordsOf s, i.wf (clog2 (imageSize s)) = true)
    (hroom : fitsBits s.cap (streamLength (clog2 (imageSize s)) s.grp)) :
    putFields (fieldsOf s) (encodeStart s) = .ok (streamWritten s) := by
  have hfits : ∀ f ∈ fieldsOf s, fits f.value f.width := fun f hf => by
    obtain ⟨i, hi, hf⟩ := List.mem_flatMap.mp hf
    exact fits_of_wf (hwf i hi) f hf
  have hlen : (encodeStart s).bitlen + ((fieldsOf s).map fun f => f.width).sum =
      streamLength (clog2 (imageSize s)) s.grp := (Nat.zero_add _).trans (widthOf_fieldsOf hib)
  rw [putFields_ok _ _ hfits (hlen ▸ hroom) rfl, hlen, fieldBits_fieldsOf]
  rfl

/-! ### The padding -/

theorem bitRead_padLastByte_inside {s : State} {k : Nat} (h : s.bitlen ≤ k)
    (hk : k < 8 * ((s.bitlen + 7) / 8)) : bitRead (padLastByte s) k = false := by
  obtain ⟨j, rfl⟩ := Nat.exists_eq_add_of_le h
  have hj : j < (List.replicate ((8 - s.bitlen % 8) % 8) false).length := by
    rw [List.length_replicate]
    omega
  rw [padLastByte, bitRead_bitWriteList_inside s _ hj, List.getElem_replicate]

theorem bitRead_padLastByte_outside {s : State} {k : Nat}
    (h : k < s.bitlen ∨ 8 * ((s.bitlen + 7) / 8) ≤ k) : bitRead (padLastByte s) k = bitRead s k := by
  refine bitRead_bitWriteList_outside s _ (h.imp_right fun h => ?_)
  rw [List.length_replicate]
  omega

theorem bitsAt_padLastByte (s : State) :
    bitsAt (padLastByte s) 0 s.bitlen = bitsAt s 0 s.bitlen := by
  refine List.map_congr_left fun j hj => bitRead_padLastByte_outside (.inl ?_)
  rw [Nat.zero_add]
  exact List.mem_range.mp hj

/-! ### The obligations -/

/-- Settles O23: the row of fields is the image's records, and the padding starts where they end. -/
theorem encodeWritesTheImagesStream : Obligations.EncodeWritesTheImagesStream := by
  intro s henc hwf hroom
  obtain ⟨himg, hsize, hib⟩ := henc
  have hlen := bitsOf_recordsOf_length hib
  have hwritten := bitsAt_bitWriteList (encodeStart s) 0 (bitsOf (clog2 (imageSize s)) (recordsOf s))
  rw [hlen] at hwritten
  have hx := exec_encode_eq ⟨himg, hsize, hib⟩
  rw [putFields_fieldsOf hib hwf hroom, bind_ok] at hx
  refine ⟨_, hx, ⟨rfl, rfl, rfl, rfl, rfl⟩, Nat.mod_eq_of_lt (by omega), rfl, rfl,
    (bitsAt_padLastByte (streamWritten s)).trans hwritten,
    fun _ => bitRead_padLastByte_inside (s := streamWritten s), ?_, sameImage_refl s,
    ⟨rfl, rfl, fun _ => rfl⟩, ⟨rfl, rfl, rfl⟩, ⟨rfl, rfl, rfl⟩⟩
  intro k (hk : 8 * ((streamLength (clog2 (imageSize s)) s.grp + 7) / 8) ≤ k)
  calc bitRead (padLastByte (streamWritten s)) k
      = bitRead (streamWritten s) k := bitRead_padLastByte_outside (.inr hk)
    _ = bitRead (encodeStart s) k :=
        bitRead_bitWriteList_outside (encodeStart s) _ (.inr (by rw [hlen]; omega))

/-- Settles O41, code by code. -/
theorem reservedCodesRaiseInvalidParameter : Obligations.ReservedCodesRaiseInvalidParameter := by
  intro s
  simp only [List.forall_mem_cons]
  exact ⟨⟨rfl, rfl⟩, ⟨rfl, rfl⟩, ⟨rfl, rfl⟩, ⟨rfl, rfl⟩, ⟨rfl, rfl⟩, ⟨rfl, rfl⟩, ⟨rfl, rfl⟩, ⟨rfl, rfl⟩,
    ⟨rfl, rfl⟩, List.forall_mem_nil _⟩

end Sys2Proof.Machine
end

section
/-! `rnd` between two integers, and the quantities of the filters in their ranges (40_filters.md R136, R141 to
R148): O8 and O9. -/

namespace Sys2Proof.Machine

/-! ### `rnd` between two integers -/

theorem le_rnd {p q m : Int} (hq : 0 < q) (h : m * q ≤ p) : m ≤ rnd p q := by
  have hfloor : m ≤ p / q := (Int.le_ediv_iff_mul_le hq).2 h
  rcases rnd_cases p q with ⟨hr, -⟩ | ⟨hr, -⟩ <;> omega

theorem rnd_le {p q m : Int} (hq : 0 < q) (h : p ≤ m * q) : rnd p q ≤ m := by
  by_contra hlt
  have hmul : (m + 1) * q ≤ rnd p q * q := Int.mul_le_mul_of_nonneg_right (by omega) hq.le
  linarith [rnd_nearest p hq, neg_abs_le (p - q * rnd p q)]

theorem toByte_toNat {v : Int} (h : 0 ≤ v ∧ v ≤ 255) : ((toByte v).toNat : Int) = v := by
  rw [toByte, BitVec.toNat_ofNat, Nat.mod_eq_of_lt (by omega), Int.toNat_of_nonneg h.1]

/-- A channel value is itself as a channel. -/
theorem toByte_byte (v : Byte) : toByte v.toNat = v := by
  rw [toByte, Int.toNat_natCast, BitVec.ofNat_toNat, BitVec.setWidth_eq]

/-! ### `GRAY` -/

/-- The weights of `Luma` add up to 1000, so it stays between any two bounds of the channels. -/
theorem rnd_luma_bounds {c : Color} {lo hi : Nat}
    (hlo : lo ≤ c.r.toNat ∧ lo ≤ c.g.toNat ∧ lo ≤ c.b.toNat)
    (hhi : c.r.toNat ≤ hi ∧ c.g.toNat ≤ hi ∧ c.b.toNat ≤ hi) :
    (lo : Int) ≤ rnd (299 * c.r.toNat + 587 * c.g.toNat + 114 * c.b.toNat) 1000 ∧
      rnd (299 * c.r.toNat + 587 * c.g.toNat + 114 * c.b.toNat) 1000 ≤ hi :=
  ⟨le_rnd (by omega) (by omega), rnd_le (by omega) (by omega)⟩

/-- `Luma` needs no clamp (40_filters.md R136). -/
theorem luma_toNat (c : Color) :
    ((luma c).toNat : Int) = rnd (299 * c.r.toNat + 587 * c.g.toNat + 114 * c.b.toNat) 1000 :=
  toByte_toNat (rnd_luma_bounds (lo := 0) (hi := 255) (by omega)
    ⟨by have := c.r.isLt; omega, by have := c.g.isLt; omega, by have := c.b.isLt; omega⟩)

theorem luma_bounds {c : Color} {lo hi : Nat}
    (hlo : lo ≤ c.r.toNat ∧ lo ≤ c.g.toNat ∧ lo ≤ c.b.toNat)
    (hhi : c.r.toNat ≤ hi ∧ c.g.toNat ≤ hi ∧ c.b.toNat ≤ hi) :
    lo ≤ (luma c).toNat ∧ (luma c).toNat ≤ hi := by
  have := rnd_luma_bounds hlo hhi
  have := luma_toNat c
  omega

/-- A grey is its own luma: it is bounded by itself on both sides. -/
@[simp] theorem luma_grey (v : Byte) : luma { r := v, g := v, b := v } = v := by
  obtain ⟨hlo, hhi⟩ := luma_bounds (c := { r := v, g := v, b := v }) (lo := v.toNat) (hi := v.toNat)
    ⟨le_rfl, le_rfl, le_rfl⟩ ⟨le_rfl, le_rfl, le_rfl⟩
  exact BitVec.eq_of_toNat_eq (le_antisymm hhi hlo)

@[simp] theorem grayPixel_grayPixel (c : Color) : grayPixel (grayPixel c) = grayPixel c := by
  simp [grayPixel]

/-- Settles O8, from the bounds of `luma`. -/
theorem lumaLiesBetweenTheChannels : Obligations.LumaLiesBetweenTheChannels := by
  intro c
  obtain ⟨hlo, hhi⟩ := luma_bounds (c := c) (lo := min c.r.toNat (min c.g.toNat c.b.toNat))
    (hi := max c.r.toNat (max c.g.toNat c.b.toNat)) (by omega) (by omega)
  exact ⟨luma_toNat c, hlo, hhi, luma_grey⟩

/-! ### `DITHER` -/

section
variable {levels p : Nat} (hl : legalLevels levels) (hp : p ≤ 255)
include hl hp

theorem quantIndex_bounds : 0 ≤ quantIndex levels p ∧ quantIndex levels p ≤ levels - 1 := by
  have hpos : (0 : Int) ≤ levels - 1 := by omega
  have hle : (p : Int) * (levels - 1) ≤ 255 * (levels - 1) :=
    Int.mul_le_mul_of_nonneg_right (by omega) hpos
  exact ⟨le_rnd (by omega) (by rw [zero_mul]; positivity), rnd_le (by omega) (by linarith)⟩

theorem quantValue_bounds : 0 ≤ quantValue levels p ∧ quantValue levels p ≤ 255 := by
  obtain ⟨hlo, hhi⟩ := quantIndex_bounds hl hp
  exact ⟨le_rnd (by omega) (by omega), rnd_le (by omega) (by omega)⟩

end

/-- `k_c` has no exact half: twice a distance is even and 255 is odd (40_filters.md R141). -/
theorem two_mul_abs_quantError_lt (levels p : Nat) : 2 * |quantError levels p| < 255 := by
  have hle : 2 * |quantError levels p| ≤ 255 := rnd_nearest _ (by omega)
  omega

theorem abs_diffusion_le {levels p : Nat} {wt : Int} (hl : legalLevels levels) (h1 : 1 ≤ wt)
    (h7 : wt ≤ 7) : |diffusion levels wt p| ≤ 56 := by
  have herror := two_mul_abs_quantError_lt levels p
  have hprod : |wt * quantError levels p| ≤ 7 * 127 := by
    rw [abs_mul, abs_of_pos (by omega : 0 < wt)]
    exact mul_le_mul h7 (by omega) (abs_nonneg _) (by omega)
  obtain ⟨hlo, hhi⟩ := abs_le.1 hprod
  exact abs_le.2 ⟨le_rnd (by omega) (by omega), rnd_le (by omega) (by omega)⟩

/-- Settles O9, from the bounds of each quantity. -/
theorem ditherQuantitiesStayInRange : Obligations.DitherQuantitiesStayInRange :=
  fun levels p hl hp => ⟨quantIndex_bounds hl hp, two_mul_abs_quantError_lt levels p,
    quantValue_bounds hl hp, fun _ => abs_diffusion_le hl⟩

end Sys2Proof.Machine
end

section
/-! A filter's pass as a fold over a grid of pixels (40_filters.md R131, R132, R149): what one access, one visit,
one row and the whole pass do to the grid. O13. -/

namespace Sys2Proof.Machine

open Sys2Proof.Claims

/-! ### The grid of a PixelBuffer -/

/-- A PixelBuffer as the statements see it: a colour for every column and row. -/
abbrev Grid := Nat → Nat → Color

@[simp] theorem setCell_same (f : Grid) (x y : Nat) (c : Color) : setCell f x y c x y = c := if_pos ⟨rfl, rfl⟩

theorem setCell_other (f : Grid) {x y x' y' : Nat} (c : Color) (h : ¬ (x' = x ∧ y' = y)) :
    setCell f x y c x' y' = f x' y' := if_neg h

/-- `PixSet` replaces one cell of the grid. -/
theorem gridOf_pixSet {s t : State} {x y x' y' : Nat} {c : Color} (h : pixSet s x y c = some t)
    (h' : s.pix.has x' y') : gridOf t x' y' = setCell (gridOf s) x y c x' y' := by
  obtain ⟨hxy, rfl⟩ := pixSet_eq_some h
  by_cases heq : x' = x ∧ y' = y
  · obtain ⟨rfl, rfl⟩ := heq
    simp [gridOf, PixelBuffer.cell]
  · have hindex : y' * s.pix.w.toNat + x' ≠ y * s.pix.w.toNat + x :=
      fun hi => heq (cell_index_inj h'.1 hxy.1 hi)
    simp [setCell_other _ _ heq, gridOf, PixelBuffer.cell, read_write_other _ _ hindex]

/-- Two buffers of one size answer alike outside it (20_memory.md R61). -/
theorem pixGet_outside {s t : State} {x y : Nat} (hw : t.pix.w = s.pix.w) (hh : t.pix.h = s.pix.h)
    (h : ¬ s.pix.has x y) : pixGet t x y = pixGet s x y := by
  have ht : ¬ t.pix.has x y := by rwa [PixelBuffer.has, hw, hh]
  rw [pixGet, pixGet, if_neg h, if_neg ht]

/-! ### A pass in progress -/

/-- A pass over the buffer of `s` that stands at `(x, y)` in state `u` and holds the grid `f`: the size is
latched, and all that differs from `s` is the cursors and the cells. -/
structure PassAt (s : State) (f : Grid) (x y : Nat) (u : State) : Prop where
  frame : ∃ cur cells, u = { s with cur := cur, pix := { s.pix with cells := cells } }
  fw : u.cur.fw = s.pix.w.toNat
  fh : u.cur.fh = s.pix.h.toNat
  curX : u.cur.x = x
  curY : u.cur.y = y
  grid : ∀ x' y', s.pix.has x' y' → gridOf u x' y' = f x' y'

namespace PassAt

variable {s u : State} {f : Grid} {x y x' y' : Nat}

theorem has_iff (h : PassAt s f x y u) : u.pix.has x' y' ↔ s.pix.has x' y' := by
  obtain ⟨cur, cells, rfl⟩ := h.frame
  rfl

theorem pixGet_eq (h : PassAt s f x y u) (hxy : s.pix.has x' y') :
    pixGet u x' y' = some (f x' y') := by
  rw [pixGet_of_has (h.has_iff.2 hxy), ← h.grid x' y' hxy, gridOf]

theorem getOrRaise_eq (h : PassAt s f x y u) (hxy : s.pix.has x' y') (k : Color → Run) :
    getOrRaise u x' y' k = k (f x' y') := by
  rw [getOrRaise, h.pixGet_eq hxy]

theorem moveX (h : PassAt s f x y u) (x' : Nat) : PassAt s f x' y (setX u x') := by
  obtain ⟨⟨cur, cells, rfl⟩, hfw, hfh, -, hy, hgrid⟩ := h
  exact ⟨⟨_, cells, rfl⟩, hfw, hfh, rfl, hy, hgrid⟩

theorem moveY (h : PassAt s f x y u) (y' : Nat) : PassAt s f x y' (setY u y') := by
  obtain ⟨⟨cur, cells, rfl⟩, hfw, hfh, hx, -, hgrid⟩ := h
  exact ⟨⟨_, cells, rfl⟩, hfw, hfh, hx, rfl, hgrid⟩

theorem setOrRaise_ok (h : PassAt s f x y u) (c : Color) (hxy : s.pix.has x' y') :
    ∃ v, setOrRaise u x' y' c = .ok v ∧ PassAt s (setCell f x' y' c) x y v := by
  obtain ⟨v, hset⟩ : ∃ v, pixSet u x' y' c = some v := ⟨_, pixSet_of_has c (h.has_iff.2 hxy)⟩
  have hgrid : ∀ a b, s.pix.has a b → gridOf v a b = setCell f x' y' c a b := fun a b hab => by
    rw [gridOf_pixSet hset (h.has_iff.2 hab), setCell, setCell, h.grid a b hab]
  refine ⟨v, by rw [setOrRaise, hset], ?_⟩
  obtain ⟨-, rfl⟩ := pixSet_eq_some hset
  obtain ⟨cur, cells, rfl⟩ := h.frame
  exact ⟨⟨cur, _, rfl⟩, h.fw, h.fh, h.curX, h.curY, hgrid⟩

/-- A neighbour inside the buffer receives its share (40_filters.md R145). -/
theorem diffuse_ok (h : PassAt s f x y u) (levels : Nat) (p : Color) (wt : Int)
    (hxy : s.pix.has x' y') : ∃ v, diffuse levels p x' y' wt u = .ok v ∧
      PassAt s (diffuseCell levels p f x' y' wt) x y v := by
  have hinside : x' < u.cur.fw ∧ y' < u.cur.fh := by rwa [h.fw, h.fh]
  rw [diffuse, if_pos hinside, h.getOrRaise_eq hxy]
  exact h.setOrRaise_ok _ hxy

end PassAt

/-! ### One visit -/

/-- A visit of an interior pixel that does to the buffer what `cell` does to the grid. -/
def Draws (visit : State → Run) (cell : Grid → Nat × Nat → Grid) : Prop :=
  ∀ s f x y u, visited s x y → PassAt s f x y u →
    ∃ v, visit u = .ok v ∧ PassAt s (cell f (x, y)) x y v

/-- One visit of `GRAY` on a grid (40_filters.md R135). -/
def grayCell (f : Grid) (v : Nat × Nat) : Grid := setCell f v.1 v.2 (grayPixel (f v.1 v.2))

theorem grayVisit_draws : Draws grayVisit grayCell := by
  intro s f x y u hv h
  have hxy : s.pix.has x y := by omega
  rw [grayVisit, h.curX, h.curY, h.getOrRaise_eq hxy]
  exact h.setOrRaise_ok _ hxy

/-- All four neighbours of an interior pixel are inside the buffer (40_filters.md R146). -/
theorem ditherVisit_draws (levels : Nat) : Draws (ditherVisit levels) (ditherCell levels) := by
  intro s f x y u hv h
  have hxy : s.pix.has x y := by omega
  have hright : s.pix.has (x + 1) y := by omega
  have hbelowLeft : s.pix.has (x - 1) (y + 1) := by omega
  have hbelow : s.pix.has x (y + 1) := by omega
  have hbelowRight : s.pix.has (x + 1) (y + 1) := by omega
  obtain ⟨u₀, hu₀, h₀⟩ := h.setOrRaise_ok (ditherPixel levels (f x y)) hxy
  obtain ⟨u₁, hu₁, h₁⟩ := h₀.diffuse_ok levels (f x y) 7 hright
  obtain ⟨u₂, hu₂, h₂⟩ := h₁.diffuse_ok levels (f x y) 3 hbelowLeft
  obtain ⟨u₃, hu₃, h₃⟩ := h₂.diffuse_ok levels (f x y) 5 hbelow
  obtain ⟨u₄, hu₄, h₄⟩ := h₃.diffuse_ok levels (f x y) 1 hbelowRight
  refine ⟨u₄, ?_, h₄⟩
  simp only [ditherVisit, h.curX, h.curY, h.getOrRaise_eq hxy, hu₀, hu₁, hu₂, hu₃, hu₄, bind_ok]

/-! ### The order of the visits -/

/-- `n` pixels of row `y`, from column `x` on. -/
def rowFrom (x n y : Nat) : List (Nat × Nat) := (List.range' x n).map fun x => (x, y)

theorem visits_eq_rows (w h : Nat) :
    visits w h = (List.range' 0 (h - 1)).flatMap (rowFrom 1 (w - 2)) := by
  have hrow : rowFrom 1 (w - 2) = fun y => (List.range (w - 2)).map fun x => (x + 1, y) := by
    funext y
    simp [rowFrom, List.range'_eq_map_range, Nat.add_comm]
  rw [hrow, visits, ← List.range_eq_range']

theorem mem_visits {w h x y : Nat} : (x, y) ∈ visits w h ↔ y + 2 ≤ h ∧ 1 ≤ x ∧ x + 2 ≤ w := by
  simp only [visits_eq_rows, rowFrom, List.mem_flatMap, List.mem_map, List.mem_range'_1, Prod.mk.injEq]
  constructor
  · rintro ⟨b, hb, a, ha, rfl, rfl⟩
    omega
  · exact fun hv => ⟨y, by omega, x, by omega, rfl, rfl⟩

/-- A pixel comes before another in row-major order (40_filters.md R132). -/
def RasterBefore (a b : Nat × Nat) : Prop := a.2 < b.2 ∨ a.2 = b.2 ∧ a.1 < b.1

theorem visits_pairwise (w h : Nat) : (visits w h).Pairwise RasterBefore := by
  refine List.pairwise_flatMap.2 ⟨fun y _ => List.pairwise_map.2 ?_, ?_⟩
  · exact List.pairwise_lt_range.imp fun hlt => .inr ⟨rfl, by simpa using hlt⟩
  · refine List.pairwise_lt_range.imp fun hlt a ha b hb => .inl ?_
    obtain ⟨_, -, rfl⟩ := List.mem_map.1 ha
    obtain ⟨_, -, rfl⟩ := List.mem_map.1 hb
    exact hlt

/-! ### Rows and passes -/

section
variable {visit : State → Run} {cell : Grid → Nat × Nat → Grid} (hdraws : Draws visit cell) {s : State}
include hdraws

theorem forCols_draws {y : Nat} (hy : y + 2 ≤ s.pix.h.toNat) : ∀ n x f u, 1 ≤ x →
    n ≤ s.pix.w.toNat - 1 - x → PassAt s f x y u →
    ∃ v x', forCols visit n u = .ok v ∧ PassAt s ((rowFrom x n y).foldl cell f) x' y v := by
  intro n
  induction n with
  | zero => exact fun x f u _ _ h => ⟨u, x, rfl, h⟩
  | succ n ih =>
    intro x f u hx hw h
    obtain ⟨u₁, hu₁, h₁⟩ := hdraws s f x y u (by omega) h
    obtain ⟨v, x', hv, hpass⟩ := ih (x + 1) _ _ (by omega) (by omega) (h₁.moveX (x + 1))
    exact ⟨v, x', by rw [forCols, hu₁, bind_ok, h₁.curX, hv], hpass⟩

theorem forRows_draws : ∀ n x y f u, n ≤ s.pix.h.toNat - 1 - y →
    PassAt s f x y u → ∃ v x' y', forRows visit (s.pix.w.toNat - 2) n u = .ok v ∧
      PassAt s (((List.range' y n).flatMap (rowFrom 1 (s.pix.w.toNat - 2))).foldl cell f) x' y' v := by
  intro n
  induction n with
  | zero => exact fun x y f u _ h => ⟨u, x, y, rfl, h⟩
  | succ n ih =>
    intro x y f u hy h
    obtain ⟨u₁, x₁, hu₁, h₁⟩ := forCols_draws hdraws (by omega) (s.pix.w.toNat - 2) 1 f _ le_rfl
      (by omega) (h.moveX 1)
    obtain ⟨v, x', y', hv, hpass⟩ := ih x₁ (y + 1) _ _ (by omega) (h₁.moveY (y + 1))
    refine ⟨v, x', y', by rw [forRows, hu₁, bind_ok, h₁.curY, hv], ?_⟩
    rwa [List.range'_succ, List.flatMap_cons, List.foldl_append]

end

/-- A pass is the fold of its visits over the whole grid (40_filters.md R149). -/
theorem filterPass_draws {visit : State → Run} {cell : Grid → Nat × Nat → Grid}
    (hdraws : Draws visit cell) (s : State) : ∃ v x y, filterPass visit s = .ok v ∧
      PassAt s ((visits s.pix.w.toNat s.pix.h.toNat).foldl cell (gridOf s)) x y v := by
  have hstart : PassAt s (gridOf s) s.cur.x 0 (setY (latchSize s) 0) :=
    ⟨⟨_, _, rfl⟩, rfl, rfl, rfl, rfl, fun _ _ _ => rfl⟩
  rw [visits_eq_rows]
  exact forRows_draws hdraws (s.pix.h.toNat - 1) _ 0 _ _ (by omega) hstart

/-! ### What a filter leaves -/

/-- The filter that does `cell` at each visit ends in `t`: completed, with the fold of its visits in the
buffer, and everything else as it was (40_filters.md R149). -/
def LeavesFold (cell : Grid → Nat × Nat → Grid) (s t : State) : Prop :=
  Completed s t ∧ t.pix.w = s.pix.w ∧ t.pix.h = s.pix.h ∧
  (∀ x < s.pix.w.toNat, ∀ y < s.pix.h.toNat, pixGet t x y = some
    ((visits s.pix.w.toNat s.pix.h.toNat).foldl cell (gridOf s) x y)) ∧
  SameSelect s t ∧ SameImage s t ∧ SameStream s t ∧ SameHost s t

theorem finish_leavesFold {visit : State → Run} {cell : Grid → Nat × Nat → Grid}
    (hdraws : Draws visit cell) (s : State) : LeavesFold cell s ((filterPass visit (accept s)).finish forgetPixels) := by
  obtain ⟨v, x, y, hv, hpass⟩ := filterPass_draws hdraws (accept s)
  have hpix : ∀ x < s.pix.w.toNat, ∀ y < s.pix.h.toNat, pixGet v x y = some
      ((visits s.pix.w.toNat s.pix.h.toNat).foldl cell (gridOf s) x y) :=
    fun _ hx _ hy => hpass.pixGet_eq ⟨hx, hy⟩
  obtain ⟨cur, cells, rfl⟩ := hpass.frame
  rw [hv]
  exact ⟨⟨rfl, rfl, rfl, rfl, rfl⟩, rfl, rfl, hpix, ⟨rfl, rfl, rfl⟩, sameImage_refl s,
    ⟨rfl, rfl, rfl, fun _ => rfl⟩, ⟨rfl, rfl, rfl⟩⟩

theorem exec_dither_eq {s : State} (hl : legalLevels s.levels.toNat) : exec .dither s =
    .next ((filterPass (ditherVisit s.levels.toNat) (accept s)).finish forgetPixels) := if_pos hl

/-- Settles O13: the pass draws what `ditherCell` draws, visit by visit. -/
theorem ditherIsTheFoldOfItsVisits : Obligations.DitherIsTheFoldOfItsVisits :=
  fun s hl => ⟨_, exec_dither_eq hl, finish_leavesFold (ditherVisit_draws _) s⟩

end Sys2Proof.Machine
end

section
/-! `GRAY` on the pixels (40_filters.md R135, R136): O10 and O11. -/

namespace Sys2Proof.Machine

open Sys2Proof.Claims

/-- The visits of `GRAY` do not disturb each other. -/
theorem foldl_grayCell {l : List (Nat × Nat)} (hl : l.Nodup) (f : Grid) (x y : Nat) :
    l.foldl grayCell f x y = if (x, y) ∈ l then grayPixel (f x y) else f x y := by
  induction l generalizing f with
  | nil => rfl
  | cons v l ih =>
    obtain ⟨hv, hl⟩ := List.nodup_cons.1 hl
    rw [List.foldl_cons, ih hl]
    by_cases heq : (x, y) = v
    · subst heq
      simp [hv, grayCell]
    · have hcell : grayCell f v x y = f x y := setCell_other _ _ fun h => heq (Prod.ext h.1 h.2)
      simp [heq, hcell]

theorem visits_nodup (w h : Nat) : (visits w h).Nodup :=
  (visits_pairwise w h).imp fun {a b} hab heq => by
    subst heq
    rcases hab with hlt | ⟨-, hlt⟩ <;> exact lt_irrefl _ hlt

/-- Settles O10: the visits of the pass are those of the visited pixels, each once. -/
theorem grayReplacesExactlyTheVisitedPixels : Obligations.GrayReplacesExactlyTheVisitedPixels := by
  intro s
  obtain ⟨hdone, hw, hh, hpix, hframe⟩ := finish_leavesFold grayVisit_draws s
  refine ⟨_, rfl, hdone, fun x y => ?_, hw, hh, hframe⟩
  by_cases hxy : s.pix.has x y
  · rw [hpix x hxy.1 y hxy.2, foldl_grayCell (visits_nodup _ _), pixGet_of_has hxy]
    simp only [mem_visits, Option.map_some, gridOf]
    split <;> rfl
  · have hv : ¬ visited s x y := fun hv => hxy (by omega)
    rw [if_neg hv, pixGet_outside hw hh hxy]

/-- Settles O11: `GRAY` visits the same pixels again, and a grey is its own luma. -/
theorem grayTwiceIsGrayOnce : Obligations.GrayTwiceIsGrayOnce := by
  intro s t u ht hu x y
  obtain ⟨t', ht', -, hpix, hw, hh, -⟩ := grayReplacesExactlyTheVisitedPixels s
  obtain ⟨u', hu', -, hpix', -⟩ := grayReplacesExactlyTheVisitedPixels t
  cases ht'.symm.trans ht
  cases hu'.symm.trans hu
  rw [hpix' x y]
  split
  case isFalse => rfl
  case isTrue hv =>
    have hvs : visited s x y := by simpa only [visited, hw, hh] using hv
    rw [hpix x y, if_pos hvs, Option.map_map]
    exact congrArg (Option.map · _) (funext grayPixel_grayPixel)

end Sys2Proof.Machine
end

section
/-! `DITHER` on the pixels (40_filters.md R147): error never flows back, and 256 levels change nothing. O14 and
O15. -/

namespace Sys2Proof.Machine

open Sys2Proof.Claims

/-- A visit leaves the pixels before its own alone: error never flows back (40_filters.md R147 (f)). -/
theorem ditherCell_before (levels : Nat) (f : Grid) {x y : Nat} {v : Nat × Nat}
    (h : RasterBefore (x, y) v) : ditherCell levels f v x y = f x y := by
  simp only [RasterBefore] at h
  simp only [ditherCell, diffuseCell]
  iterate 5 rw [setCell_other _ _ (by omega)]

/-- A visit quantises its own pixel; its neighbours are other pixels. -/
theorem ditherCell_self (levels : Nat) (f : Grid) (x y : Nat) :
    ditherCell levels f (x, y) x y = ditherPixel levels (f x y) := by
  simp only [ditherCell, diffuseCell]
  iterate 4 rw [setCell_other _ _ (by omega)]
  exact setCell_same _ _ _ _

theorem foldl_ditherCell_before (levels : Nat) {l : List (Nat × Nat)} {x y : Nat}
    (h : ∀ v ∈ l, RasterBefore (x, y) v) (f : Grid) :
    l.foldl (ditherCell levels) f x y = f x y := by
  induction l generalizing f with
  | nil => rfl
  | cons v l ih =>
    obtain ⟨hv, hl⟩ := List.forall_mem_cons.1 h
    rw [List.foldl_cons, ih hl, ditherCell_before levels f hv]

/-- A visited pixel ends as its own visit left it. -/
theorem exists_foldl_ditherCell_eq (levels : Nat) {l : List (Nat × Nat)} (hl : l.Pairwise RasterBefore)
    {x y : Nat} (hxy : (x, y) ∈ l) (f : Grid) :
    ∃ p, l.foldl (ditherCell levels) f x y = ditherPixel levels p := by
  obtain ⟨before, after, rfl⟩ := List.append_of_mem hxy
  have hafter : ∀ v ∈ after, RasterBefore (x, y) v :=
    (List.pairwise_cons.1 (List.pairwise_append.1 hl).2.1).1
  exact ⟨_, by rw [List.foldl_append, List.foldl_cons, foldl_ditherCell_before levels hafter,
    ditherCell_self]⟩

/-- `v` is one of the `L` values of 40_filters.md R143. -/
def Quantised (levels : Nat) (v : Byte) : Prop :=
  ∃ k : Nat, k + 1 ≤ levels ∧ (v.toNat : Int) = rnd (255 * k) (levels - 1)

theorem quantised_quantValue {levels : Nat} (hl : legalLevels levels) (p : Byte) :
    Quantised levels (toByte (quantValue levels p.toNat)) := by
  have hp : p.toNat ≤ 255 := by have := p.isLt; omega
  obtain ⟨hlo, hhi⟩ := quantIndex_bounds hl hp
  refine ⟨(quantIndex levels p.toNat).toNat, by omega, ?_⟩
  rw [toByte_toNat (quantValue_bounds hl hp), Int.toNat_of_nonneg hlo, quantValue]

/-- Settles O14: after its own visit, which quantises it, a pixel is not written again. -/
theorem ditheredPixelsHoldQuantisedValues : Obligations.DitheredPixelsHoldQuantisedValues := by
  intro s t hl ht x y hv
  obtain ⟨t', ht', -, -, -, hpix, -⟩ := ditherIsTheFoldOfItsVisits s hl
  cases ht'.symm.trans ht
  obtain ⟨p, hp⟩ := exists_foldl_ditherCell_eq s.levels.toNat (visits_pairwise _ _)
    (mem_visits.2 hv) (gridOf s)
  refine ⟨ditherPixel s.levels.toNat p, by rw [hpix x (by omega) y (by omega), hp], ?_⟩
  simp only [List.forall_mem_cons]
  exact ⟨quantised_quantValue hl p.r, quantised_quantValue hl p.g, quantised_quantValue hl p.b,
    List.forall_mem_nil _⟩

/-! ### `DITHER` with 256 levels -/

@[simp] theorem quantIndex_256 (p : Nat) : quantIndex 256 p = p := rnd_mul_self p (by omega)

@[simp] theorem quantError_256 (p : Nat) : quantError 256 p = 0 := by
  rw [quantError, quantIndex_256]
  omega

@[simp] theorem quantValue_256 (p : Nat) : quantValue 256 p = p := by
  rw [quantValue, quantIndex_256, mul_comm]
  exact rnd_mul_self p (by omega)

@[simp] theorem diffusion_256 (wt : Int) (p : Nat) : diffusion 256 wt p = 0 := by
  rw [diffusion, quantError_256, mul_zero]
  rfl

theorem clamp_byte (v : Byte) : clamp v.toNat 0 255 = v.toNat := by
  have := v.isLt
  simp only [clamp]
  omega

theorem setCell_self (f : Grid) (x y : Nat) : setCell f x y (f x y) = f := by
  funext x' y'
  unfold setCell
  split
  · next h => rw [h.1, h.2]
  · rfl

@[simp] theorem ditherPixel_256 (p : Color) : ditherPixel 256 p = p := by
  simp [ditherPixel, mapLanes, toByte_byte]

@[simp] theorem diffusePixel_256 (wt : Int) (p o : Color) : diffusePixel 256 wt p o = o := by
  simp [diffusePixel, clamp_byte, toByte_byte]

theorem ditherCell_256 (f : Grid) (v : Nat × Nat) : ditherCell 256 f v = f := by
  simp [ditherCell, diffuseCell, setCell_self]

/-- Settles O15: with 256 levels no visit changes the grid. -/
theorem ditherWithAllLevelsIsTheIdentity : Obligations.DitherWithAllLevelsIsTheIdentity := by
  intro s t hs ht x y
  have hlevels : s.levels.toNat = 256 := by rw [hs]; rfl
  obtain ⟨t', ht', -, hw, hh, hpix, -⟩ := ditherIsTheFoldOfItsVisits s (by omega)
  cases ht'.symm.trans ht
  by_cases hxy : s.pix.has x y
  · rw [hpix x hxy.1 y hxy.2, pixGet_of_has hxy, hlevels, List.foldl_fixed' (ditherCell_256 _), gridOf]
  · exact pixGet_outside hw hh hxy

end Sys2Proof.Machine
end

section
/-! Where a filter does nothing: no interior pixels (40_filters.md R133), illegal levels (R140). O16 and O12. -/

namespace Sys2Proof.Machine

open Sys2Proof.Claims

/-- A buffer without interior pixels is only measured (40_filters.md R133). -/
theorem forRows_no_columns (visit : State → Run) :
    ∀ n s, ∃ cur, forRows visit 0 n s = .ok { s with cur := cur } := by
  intro n
  induction n with
  | zero => exact fun s => ⟨s.cur, rfl⟩
  | succ n ih => exact fun s => ih (setY (setX s 1) (s.cur.y + 1))

theorem filterPass_degenerate (visit : State → Run) {s : State}
    (h : s.pix.h.toNat ≤ 1 ∨ s.pix.w.toNat ≤ 2) :
    ∃ cur, filterPass visit s = .ok { s with cur := cur } := by
  rcases h with hrows | hcols
  · have hzero : (latchSize s).cur.fh - 1 = 0 := by simp only [latchSize_cur]; omega
    exact ⟨_, by rw [filterPass, hzero]; rfl⟩
  · have hzero : (latchSize s).cur.fw - 2 = 0 := by simp only [latchSize_cur]; omega
    rw [filterPass, hzero]
    exact forRows_no_columns visit _ (setY (latchSize s) 0)

theorem finish_degenerate (visit : State → Run) {s : State}
    (h : s.pix.h.toNat ≤ 1 ∨ s.pix.w.toNat ≤ 2) :
    Completed s ((filterPass visit (accept s)).finish forgetPixels) ∧
      ((filterPass visit (accept s)).finish forgetPixels).pix = s.pix := by
  obtain ⟨cur, hv⟩ := filterPass_degenerate visit (s := accept s) h
  rw [hv]
  exact ⟨⟨rfl, rfl, rfl, rfl, rfl⟩, rfl⟩

/-- Settles O16: a pass without rows or without columns moves the cursors only. -/
theorem filtersLeaveDegenerateBuffersAlone : Obligations.FiltersLeaveDegenerateBuffersAlone := by
  intro s i hi hdegenerate
  rcases hi with rfl | ⟨rfl, hl⟩
  · exact ⟨_, rfl, finish_degenerate grayVisit hdegenerate⟩
  · exact ⟨_, exec_dither_eq hl, finish_degenerate _ hdegenerate⟩

/-- Settles O12: the check comes first, and an error writes three fields. -/
theorem ditherRefusesIllegalLevels : Obligations.DitherRefusesIllegalLevels := by
  intro s hl
  rcases execDither_cases s with ⟨h, -⟩ | ⟨-, hx⟩
  · exact absurd h hl
  · exact hx

end Sys2Proof.Machine
end

section
/-! The histogram of `CONVERT` in closed form (41_converter.md R162 to R165): the maximal stretches of one
colour in a buffer, the entry of each, the group of each colour, and what one more pixel adds. -/

namespace Sys2Proof.Machine

open Sys2Proof.Claims

variable {P : Nat → Color} {n m i j k : Nat} {c : Color}

/-! ### Stretches -/

theorem exists_stretch_end (P : Nat → Color) (n i : Nat) : ∃ j, i < j ∧ (n ≤ j ∨ P j ≠ P i) :=
  ⟨max n (i + 1), by omega, .inl (by omega)⟩

/-- Where the stretch of one colour from pixel `i` on ends: the `J` of 41_converter.md R164. -/
def stretchEnd (P : Nat → Color) (n i : Nat) : Nat := Nat.find (exists_stretch_end P n i)

theorem lt_stretchEnd (P : Nat → Color) (n i : Nat) : i < stretchEnd P n i :=
  (Nat.find_spec (exists_stretch_end P n i)).1

theorem stretchEnd_le (h : i < n) : stretchEnd P n i ≤ n := Nat.find_min' _ ⟨h, .inl le_rfl⟩

theorem colour_stretchEnd_ne (h : stretchEnd P n i < n) : P (stretchEnd P n i) ≠ P i :=
  (Nat.find_spec (exists_stretch_end P n i)).2.resolve_left h.not_ge

theorem colour_in_stretch (hik : i ≤ k) (hk : k < stretchEnd P n i) : P k = P i := by
  rcases hik.eq_or_lt with rfl | hik
  · rfl
  · by_contra hne
    exact Nat.find_min _ hk ⟨hik, .inr hne⟩

theorem stretchEnd_eq (hij : i < j) (hjn : j ≤ n) (hsame : ∀ k, i < k → k < j → P k = P i)
    (hend : j < n → P j ≠ P i) : stretchEnd P n i = j := by
  refine (Nat.find_eq_iff _).mpr ⟨⟨hij, ?_⟩, fun k hkj ⟨hik, hk⟩ => ?_⟩
  · exact hjn.eq_or_lt.imp ge_of_eq hend
  · exact hk.elim (hkj.trans_le hjn).not_ge fun hne => hne (hsame k hik hkj)

theorem startsAt_stretchEnd (h : stretchEnd P n i < n) : startsAt P (stretchEnd P n i) := by
  have hlt := lt_stretchEnd P n i
  refine .inr ?_
  have hlast : P (stretchEnd P n i - 1) = P i := colour_in_stretch (n := n) (by omega) (by omega)
  exact hlast ▸ (colour_stretchEnd_ne h).symm

theorem not_startsAt_in_stretch (hik : i < k) (hk : k < stretchEnd P n i) : ¬ startsAt P k := by
  rintro (h0 | hne)
  · omega
  · have hprev : P (k - 1) = P i := colour_in_stretch (n := n) (by omega) (by omega)
    exact hne (hprev.trans (colour_in_stretch hik.le hk).symm)

/-- A pixel of another colour lies between two stretches of one colour (41_converter.md R168 (d)). -/
theorem stretchEnd_lt_start (hij : i < j) (hj : startsAt P j) (hc : P j = P i) :
    stretchEnd P n i < j := by
  rcases hj with h0 | hne
  · omega
  · by_contra hle
    have hprev : P (j - 1) = P i := colour_in_stretch (n := n) (by omega) (by omega)
    exact hne (hprev.trans hc.symm)

/-- Every pixel lies in a stretch (41_converter.md R162). -/
theorem exists_stretch (hk : k < n) : ∃ i ≤ k, startsAt P i ∧ k < stretchEnd P n i := by
  induction k with
  | zero => exact ⟨0, le_rfl, .inl rfl, lt_stretchEnd P n 0⟩
  | succ k ih =>
    by_cases hs : startsAt P (k + 1)
    · exact ⟨k + 1, le_rfl, hs, lt_stretchEnd P n _⟩
    · obtain ⟨i, hik, hi, hlt⟩ := ih (by omega)
      refine ⟨i, by omega, hi, lt_of_le_of_ne hlt fun he => hs ?_⟩
      rw [he]
      exact startsAt_stretchEnd (he ▸ hk)

/-! ### Entries -/

theorem covers_iff {e : Entry} : covers e k ↔ startOf e ≤ k ∧ k < endOf e := by
  cases e with
  | single a =>
    simp only [covers, startOf, endOf, beq_iff_eq]
    omega
  | run a b => simp [covers, startOf, endOf]

/-- The entry that the run detector emits for the stretch from `i` on (41_converter.md R163, R164). -/
def entryAt (P : Nat → Color) (n i : Nat) : Entry :=
  if stretchEnd P n i = i + 1 then .single i else .run i (stretchEnd P n i)

theorem entryAt_cases (P : Nat → Color) (n i : Nat) :
    (stretchEnd P n i = i + 1 ∧ entryAt P n i = .single i) ∨
    (i + 2 ≤ stretchEnd P n i ∧ entryAt P n i = .run i (stretchEnd P n i)) := by
  have hlt := lt_stretchEnd P n i
  by_cases h : stretchEnd P n i = i + 1
  · exact .inl ⟨h, if_pos h⟩
  · exact .inr ⟨by omega, if_neg h⟩

@[simp] theorem startOf_entryAt (P : Nat → Color) (n i : Nat) : startOf (entryAt P n i) = i := by
  rcases entryAt_cases P n i with ⟨-, he⟩ | ⟨-, he⟩ <;> rw [he] <;> rfl

@[simp] theorem endOf_entryAt (P : Nat → Color) (n i : Nat) :
    endOf (entryAt P n i) = stretchEnd P n i := by
  rcases entryAt_cases P n i with ⟨h, he⟩ | ⟨-, he⟩ <;> rw [he]
  · exact h.symm
  · rfl

theorem inImage_entryAt (h : i < n) : inImage n (entryAt P n i) := by
  have hlt := lt_stretchEnd P n i
  rcases entryAt_cases P n i with ⟨-, he⟩ | ⟨-, he⟩ <;> rw [he]
  · simpa [inImage] using h
  · simpa [inImage, hlt] using stretchEnd_le h

/-- The entry of a maximal stretch is maximal (41_converter.md R164, R168 (c), (e)). -/
theorem maximalEntry_entryAt (h : startsAt P i) : maximalEntry P n (P i) (entryAt P n i) := by
  rcases entryAt_cases P n i with ⟨h1, he⟩ | ⟨h2, he⟩ <;> rw [he]
  · exact ⟨h, fun hn => h1 ▸ colour_stretchEnd_ne (h1 ▸ hn)⟩
  · exact ⟨h2, h, colour_stretchEnd_ne⟩

/-! ### Groups -/

/-- Where the stretches of colour `c` start among the first `m` pixels. -/
def startsOf (P : Nat → Color) (m : Nat) (c : Color) : List Nat :=
  (List.range m).filter fun i => P i = c ∧ startsAt P i

/-- The first pixel of each colour of the first `m` pixels. -/
def firstsOf (P : Nat → Color) (m : Nat) : List Nat :=
  (List.range m).filter fun i => ∀ j < i, P j ≠ P i

/-- The group of colour `c` when the scan has passed the first `m` of `n` pixels. -/
def groupOf (P : Nat → Color) (n m : Nat) (c : Color) : ColorGroup :=
  { color := c, entries := (startsOf P m c).map (entryAt P n) }

/-- `GRP` when the scan has passed the first `m` of `n` pixels (41_converter.md R165). -/
def groupsOf (P : Nat → Color) (n m : Nat) : List ColorGroup :=
  (firstsOf P m).map fun i => groupOf P n m (P i)

theorem mem_startsOf : i ∈ startsOf P m c ↔ i < m ∧ P i = c ∧ startsAt P i := by
  simp [startsOf]

theorem mem_firstsOf : i ∈ firstsOf P m ↔ i < m ∧ ∀ j < i, P j ≠ P i := by simp [firstsOf]

theorem startsOf_pairwise (P : Nat → Color) (m : Nat) (c : Color) :
    (startsOf P m c).Pairwise (· < ·) := List.pairwise_lt_range.filter _

theorem firstsOf_pairwise (P : Nat → Color) (m : Nat) : (firstsOf P m).Pairwise (· < ·) :=
  List.pairwise_lt_range.filter _

theorem startsOf_length (P : Nat → Color) (m : Nat) (c : Color) :
    (startsOf P m c).length = entriesOf P m c := List.countP_eq_length_filter.symm

theorem firstsOf_length (P : Nat → Color) (m : Nat) : (firstsOf P m).length = coloursIn P m :=
  List.countP_eq_length_filter.symm

theorem groupOf_entries_length (P : Nat → Color) (n m : Nat) (c : Color) :
    (groupOf P n m c).entries.length = entriesOf P m c := by
  rw [← startsOf_length]
  exact List.length_map _

theorem groupsOf_length (P : Nat → Color) (n m : Nat) :
    (groupsOf P n m).length = coloursIn P m := by
  rw [← firstsOf_length]
  exact List.length_map _

/-- Every colour has its first pixel. -/
theorem exists_first (h : i < m) : ∃ f ∈ firstsOf P m, f ≤ i ∧ P f = P i := by
  have hex : ∃ f, P f = P i := ⟨i, rfl⟩
  have hle : Nat.find hex ≤ i := Nat.find_min' hex rfl
  have hf : P (Nat.find hex) = P i := Nat.find_spec hex
  refine ⟨Nat.find hex, mem_firstsOf.mpr ⟨hle.trans_lt h, fun j hj => ?_⟩, hle, hf⟩
  rw [hf]
  exact Nat.find_min hex hj

theorem first_unique (hi : i ∈ firstsOf P m) (hj : j ∈ firstsOf P m) (h : P i = P j) : i = j := by
  obtain ⟨-, hi⟩ := mem_firstsOf.mp hi
  obtain ⟨-, hj⟩ := mem_firstsOf.mp hj
  rcases lt_trichotomy i j with hlt | heq | hlt
  · exact absurd h (hj i hlt)
  · exact heq
  · exact absurd h.symm (hi j hlt)

theorem startsAt_first (h : i ∈ firstsOf P m) : startsAt P i := by
  obtain ⟨-, h⟩ := mem_firstsOf.mp h
  exact (Nat.eq_zero_or_pos i).imp_right fun hpos => h (i - 1) (by omega)

/-- The first stretch of a colour starts at its first pixel. -/
theorem startsOf_head? (h : i ∈ firstsOf P m) : (startsOf P m (P i)).head? = some i := by
  have hs := startsAt_first h
  obtain ⟨him, hfirst⟩ := mem_firstsOf.mp h
  rw [startsOf, List.head?_filter, List.find?_range_eq_some]
  exact ⟨by simp [hs], by simpa using him, fun j hj => by simp [hfirst j hj]⟩

/-! ### One more pixel -/

theorem startsOf_succ (P : Nat → Color) (m : Nat) (c : Color) : startsOf P (m + 1) c =
    startsOf P m c ++ if P m = c ∧ startsAt P m then [m] else [] := by
  rw [startsOf, List.range_succ, List.filter_append, List.filter_singleton, Bool.cond_decide]
  rfl

theorem firstsOf_succ (P : Nat → Color) (m : Nat) :
    firstsOf P (m + 1) = firstsOf P m ++ if ∀ j < m, P j ≠ P m then [m] else [] := by
  rw [firstsOf, List.range_succ, List.filter_append, List.filter_singleton, Bool.cond_decide]
  rfl

/-- A group gains the entry of a stretch of its colour. -/
theorem groupOf_succ (P : Nat → Color) (n m : Nat) (c : Color) : groupOf P n (m + 1) c =
    if P m = c ∧ startsAt P m then
      { groupOf P n m c with entries := (groupOf P n m c).entries ++ [entryAt P n m] }
    else groupOf P n m c := by
  rw [groupOf, startsOf_succ]
  split <;> simp [groupOf]

theorem coloursIn_succ (P : Nat → Color) (m : Nat) (h : ∀ j < m, P j ≠ P m) :
    coloursIn P (m + 1) = coloursIn P m + 1 := by
  rw [← firstsOf_length, firstsOf_succ, if_pos h, List.length_append, firstsOf_length]
  rfl

theorem entriesIn_succ (P : Nat → Color) (m : Nat) :
    entriesIn P (m + 1) = entriesIn P m + if startsAt P m then 1 else 0 := by
  simp [entriesIn, List.range_succ, List.countP_append, List.countP_singleton]

theorem groupsOf_lacks : (∀ g ∈ groupsOf P n m, g.color ≠ c) ↔ ∀ j < m, P j ≠ c := by
  constructor
  · rintro h j hj rfl
    obtain ⟨f, hf, -, hc⟩ := exists_first hj
    exact h _ (List.mem_map_of_mem hf) hc
  · intro h g hg
    obtain ⟨i, hi, rfl⟩ := List.mem_map.mp hg
    exact h i (mem_firstsOf.mp hi).1

theorem groupsOf_colours_nodup (P : Nat → Color) (n m : Nat) :
    ((groupsOf P n m).map fun g => g.color).Nodup := by
  rw [groupsOf, List.map_map]
  refine List.Nodup.map_on (fun i hi j hj h => first_unique hi hj h) ?_
  exact (firstsOf_pairwise P m).imp ne_of_lt

/-- Appending to a store whose colours differ changes the one group of the colour. -/
theorem appendEntry_of_mem {grp : List ColorGroup} (e : Entry)
    (hnodup : (grp.map fun g => g.color).Nodup) (hmem : ∃ g ∈ grp, g.color = c) :
    appendEntry grp c e =
      grp.map fun g => if g.color = c then { g with entries := g.entries ++ [e] } else g := by
  obtain ⟨g, hg, rfl⟩ := hmem
  obtain ⟨before, after, rfl⟩ := List.append_of_mem hg
  simp only [List.map_append, List.map_cons, List.nodup_append, List.nodup_cons] at hnodup
  obtain ⟨-, ⟨hafter, -⟩, hbefore⟩ := hnodup
  have hb : ∀ b ∈ before, b.color ≠ g.color := fun b hb =>
    hbefore _ (List.mem_map_of_mem hb) _ (by simp)
  have ha : ∀ a ∈ after, a.color ≠ g.color := fun a ha h => hafter (h ▸ List.mem_map_of_mem ha)
  rw [appendEntry_of_first e hb, List.map_append, List.map_cons, if_pos rfl,
    List.map_congr_left fun b h => if_neg (hb b h), List.map_congr_left fun a h => if_neg (ha a h),
    List.map_id', List.map_id']

/-- The scan's next entry goes to the group of its colour (41_converter.md R165). -/
theorem groupsOf_succ (n : Nat) (h : startsAt P m) :
    groupsOf P n (m + 1) = appendEntry (groupsOf P n m) (P m) (entryAt P n m) := by
  by_cases hnew : ∀ j < m, P j ≠ P m
  · have hnone : startsOf P m (P m) = [] :=
      List.filter_eq_nil_iff.mpr fun i hi => by simp [hnew i (List.mem_range.mp hi)]
    rw [appendEntry_of_new _ (groupsOf_lacks.mpr hnew), groupsOf, firstsOf_succ, if_pos hnew,
      List.map_append]
    congr 1
    · refine List.map_congr_left fun i hi => ?_
      rw [groupOf_succ, if_neg fun hc => hnew i (mem_firstsOf.mp hi).1 hc.1.symm]
    · rw [List.map_singleton, groupOf_succ, if_pos ⟨rfl, h⟩, groupOf, hnone]
      rfl
  · have hold : ∃ g ∈ groupsOf P n m, g.color = P m := by
      by_contra hno
      push Not at hno
      exact hnew (groupsOf_lacks.mp hno)
    rw [appendEntry_of_mem _ (groupsOf_colours_nodup P n m) hold, groupsOf, firstsOf_succ,
      if_neg hnew, List.append_nil, groupsOf, List.map_map]
    refine List.map_congr_left fun i _ => (groupOf_succ P n m (P i)).trans ?_
    exact if_congr ((and_iff_left h).trans eq_comm) rfl rfl

theorem groupsOf_succ_inside (n : Nat) (h : ¬ startsAt P m) :
    groupsOf P n (m + 1) = groupsOf P n m := by
  have hold : ¬ ∀ j < m, P j ≠ P m := fun hnew =>
    h ((Nat.eq_zero_or_pos m).imp_right fun hpos => hnew (m - 1) (by omega))
  rw [groupsOf, firstsOf_succ, if_neg hold, List.append_nil]
  exact List.map_congr_left fun i _ => by rw [groupOf_succ, if_neg fun hc => h hc.2]

/-- One step of the scan, as the histogram sees it (41_converter.md R163, R164). -/
theorem groupsOf_stretchEnd (n : Nat) (h : startsAt P i) :
    groupsOf P n (stretchEnd P n i) = appendEntry (groupsOf P n i) (P i) (entryAt P n i) := by
  have inside : ∀ k, i + 1 ≤ k → k ≤ stretchEnd P n i →
      groupsOf P n k = groupsOf P n (i + 1) := by
    intro k hk
    induction k, hk using Nat.le_induction with
    | base => exact fun _ => rfl
    | succ k hk ih =>
      intro hle
      rw [groupsOf_succ_inside n (not_startsAt_in_stretch hk hle), ih (by omega)]
  rw [inside _ (lt_stretchEnd P n i) le_rfl, groupsOf_succ n h]

theorem totalEntries_groupsOf (P : Nat → Color) (n m : Nat) :
    totalEntries (groupsOf P n m) = entriesIn P m := by
  induction m with
  | zero => rfl
  | succ m ih =>
    rw [entriesIn_succ]
    split
    · next h => rw [groupsOf_succ n h, appendEntry_total, ih]
    · next h => rw [groupsOf_succ_inside n h, ih, Nat.add_zero]

/-! ### Capacities -/

/-- The first `m` pixels have no more colours and entries than the capacities (41_converter.md R165). -/
def WithinCaps (cap : Caps) (P : Nat → Color) (m : Nat) : Prop :=
  (∀ k ∈ cap.maxCol, coloursIn P m ≤ k) ∧ ∀ k ∈ cap.maxEnt, entriesIn P m ≤ k

theorem WithinCaps.mono {cap : Caps} (h : WithinCaps cap P n) (hmn : m ≤ n) :
    WithinCaps cap P m := by
  have hsub : (List.range m).Sublist (List.range n) := List.range_sublist.mpr hmn
  exact ⟨fun k hk => hsub.countP_le.trans (h.1 k hk), fun k hk => hsub.countP_le.trans (h.2 k hk)⟩

theorem withinCaps_of_roomFor {cap : Caps} (P : Nat → Color) (h : roomFor cap n) :
    WithinCaps cap P n := by
  have hcount : ∀ p : Nat → Bool, (List.range n).countP p ≤ n := fun p =>
    List.countP_le_length.trans_eq List.length_range
  exact ⟨fun k hk => (hcount _).trans (h.1 k hk), fun k hk => (hcount _).trans (h.2 k hk)⟩

theorem withinCaps_of_storeOk {cap : Caps} (h : StoreOk cap (groupsOf P n m)) :
    WithinCaps cap P m :=
  ⟨fun k hk => groupsOf_length P n m ▸ h.colourCap k hk,
    fun k hk => totalEntries_groupsOf P n m ▸ h.entryCap k hk⟩

/-- `Append` raises only where a capacity is passed (41_converter.md R165). -/
theorem not_withinCaps_of_append_error {cap : Caps} {e : Entry} {info : Nat} (hs : startsAt P m)
    (h : append cap (groupsOf P n m) (P m) e = .error info) : ¬ WithinCaps cap P (m + 1) := by
  rintro ⟨hcol, hent⟩
  rcases append_cases h with ⟨-, hnew, k, hk, hle⟩ | ⟨-, k, hk, hle⟩ | ⟨hok, -⟩
  · have hlt := hcol k hk
    rw [groupsOf_length] at hle
    rw [coloursIn_succ P m (groupsOf_lacks.mp hnew)] at hlt
    omega
  · have hlt := hent k hk
    rw [totalEntries_groupsOf] at hle
    rw [entriesIn_succ, if_pos hs] at hlt
    omega
  · cases hok

end Sys2Proof.Machine
end

section
/-! `CONVERT` end to end (41_converter.md R160 to R167): the scan builds the histogram or passes a capacity, the
background removal takes the first group with the most entries. O17, O18, O19. -/

namespace Sys2Proof.Machine

open Sys2Proof.Claims

/-! ### The scan -/

/-- `u` is the state `s` whose scan has come to pixel `i`. -/
structure ScanAt (s : State) (i : Nat) (u : State) : Prop where
  cursor : u.cur.i = i
  frame : u = { s with cur := u.cur, grp := groupsOf s.pix.cell s.pix.size i }
  store : StoreOk s.cap (groupsOf s.pix.cell s.pix.size i)

/-- A piece of the scan of `s` comes to pixel `i`, or raises because a capacity is passed
(41_converter.md R165). -/
def ScansTo (s : State) (i : Nat) : Run → Prop
  | .ok u => ScanAt s i u
  | .raised e info u => e = .capacityExceeded ∧ (info = 1 ∨ info = 2) ∧
      u = { s with cur := u.cur, grp := u.grp } ∧ ¬ WithinCaps s.cap s.pix.cell s.pix.size

theorem ScansTo.bind {s : State} {i j : Nat} {r : Run} {f : State → Run} (hr : ScansTo s i r)
    (hf : ∀ u, ScanAt s i u → ScansTo s j (f u)) : ScansTo s j (r.bind f) := by
  cases r with
  | ok u => exact hf u hr
  | raised e info u => exact hr

namespace ScanAt

variable {s u : State} {i j : Nat}

theorem pix_eq (h : ScanAt s i u) : u.pix = s.pix := by rw [h.frame]

theorem setJ_at (h : ScanAt s i u) (j : Nat) : ScanAt s i (setJ u j) :=
  ⟨h.cursor, by rw [h.frame]; rfl, h.store⟩

theorem atOrRaise_eq (h : ScanAt s i u) (hj : j < s.pix.size) (k : Color → Run) :
    atOrRaise u j k = k (s.pix.cell j) := by
  rw [atOrRaise, pixAt_of_lt (h.pix_eq ▸ hj), h.pix_eq]

/-- The stretch at `I` is appended, and `I` moves to its end `next` (41_converter.md R163, R164). -/
theorem emit_scansTo (h : ScanAt s i u) (hi : i < s.pix.size) (hs : startsAt s.pix.cell i)
    {next : State → Nat}
    (hnext : ∀ grp, next { u with grp := grp } = stretchEnd s.pix.cell s.pix.size i) :
    ScansTo s (stretchEnd s.pix.cell s.pix.size i)
      ((appendOrRaise u (s.pix.cell i) (entryAt s.pix.cell s.pix.size i)).bind fun v =>
        .ok (setI v (next v))) := by
  obtain ⟨-, hframe, hstore⟩ := h
  have happend : append u.cap u.grp = append s.cap (groupsOf s.pix.cell s.pix.size i) := by
    rw [hframe]
  rw [appendOrRaise, happend]
  cases ha : append s.cap (groupsOf s.pix.cell s.pix.size i) (s.pix.cell i)
      (entryAt s.pix.cell s.pix.size i) with
  | error info =>
    exact ⟨rfl, append_error_info ha, by rw [hframe],
      fun hcaps => not_withinCaps_of_append_error hs ha (hcaps.mono hi)⟩
  | ok grp =>
    have hgrp : grp = groupsOf s.pix.cell s.pix.size (stretchEnd s.pix.cell s.pix.size i) := by
      rw [groupsOf_stretchEnd _ hs]
      rcases append_cases ha with ⟨hr, -⟩ | ⟨hr, -⟩ | ⟨hr, -⟩ <;> cases hr
      rfl
    refine ⟨hnext grp, ?_, hgrp ▸ append_storeOk hstore ha⟩
    rw [hframe, ← hgrp]
    rfl

theorem singletonStep_scansTo (h : ScanAt s i u) (hi : i < s.pix.size) (hs : startsAt s.pix.cell i)
    (hlast : i + 1 < s.pix.size → s.pix.cell (i + 1) ≠ s.pix.cell i) :
    ScansTo s (stretchEnd s.pix.cell s.pix.size i) (singletonStep (s.pix.cell i) u) := by
  have hend : stretchEnd s.pix.cell s.pix.size i = i + 1 :=
    stretchEnd_eq (Nat.lt_succ_self i) hi (fun k h1 h2 => by omega) hlast
  have hentry : entryAt s.pix.cell s.pix.size i = .single u.cur.i := by
    rw [h.cursor]
    exact if_pos hend
  unfold singletonStep
  rw [← hentry]
  exact h.emit_scansTo hi hs fun grp => by rw [hend]; exact congrArg (· + 1) h.cursor

theorem runStep_scansTo (h : ScanAt s i u) (hi : i + 1 < s.pix.size) (hs : startsAt s.pix.cell i)
    (hnext : s.pix.cell (i + 1) = s.pix.cell i) :
    ScansTo s (stretchEnd s.pix.cell s.pix.size i) (runStep s.pix.size (s.pix.cell i) u) := by
  obtain ⟨j, hij, hjn, hrun, hsame, hend⟩ := runEnd_spec (n := s.pix.size) (c := s.pix.cell i)
    (s.pix.size - u.cur.i) (setJ u (u.cur.i + 1)) (by rw [setJ_pix, h.pix_eq])
    (by simp only [setJ_cur]; omega) (by simp only [setJ_cur, h.cursor]; omega)
  simp only [setJ_cur, setJ_pix, h.pix_eq, h.cursor] at hij hsame hend
  have hj : stretchEnd s.pix.cell s.pix.size i = j := stretchEnd_eq hij hjn hsame hend
  have hlong : j ≠ i + 1 := by
    rintro rfl
    exact hend hi hnext
  have hentry : entryAt s.pix.cell s.pix.size i = .run u.cur.i j := by
    rw [entryAt, hj, if_neg hlong, h.cursor]
  rw [runStep, hrun, bind_ok]
  have hemit := (h.setJ_at j).emit_scansTo (by omega) hs (next := fun v => v.cur.j) fun _ => hj.symm
  rw [hentry] at hemit
  exact hemit

/-- One step of the scan passes one stretch (41_converter.md R162). -/
theorem scanStep_scansTo (h : ScanAt s i u) (hi : i < s.pix.size) (hs : startsAt s.pix.cell i) :
    ScansTo s (stretchEnd s.pix.cell s.pix.size i) (scanStep s.pix.size u) := by
  rw [scanStep, h.cursor, h.atOrRaise_eq hi]
  by_cases hlt : i + 1 < s.pix.size
  · rw [if_pos hlt, h.atOrRaise_eq hlt]
    by_cases hc : s.pix.cell (i + 1) = s.pix.cell i
    · rw [if_pos hc]
      exact h.runStep_scansTo hlt hs hc
    · rw [if_neg hc]
      exact h.singletonStep_scansTo hi hs fun _ => hc
  · rw [if_neg hlt]
    exact h.singletonStep_scansTo hi hs fun h => absurd h hlt

end ScanAt

/-- The scan from the start of a stretch passes the rest of the buffer. -/
theorem scan_scansTo {s : State} : ∀ fuel i u, ScanAt s i u → i ≤ s.pix.size →
    s.pix.size ≤ i + fuel → (i < s.pix.size → startsAt s.pix.cell i) →
    ScansTo s s.pix.size (scan s.pix.size fuel u) := by
  intro fuel
  induction fuel with
  | zero =>
    intro i u h hin hfuel _
    obtain rfl : i = s.pix.size := by omega
    exact h
  | succ fuel ih =>
    intro i u h hin hfuel hs
    rw [scan, h.cursor]
    rcases hin.eq_or_lt with rfl | hi
    · rw [if_neg (lt_irrefl _)]
      exact h
    · rw [if_pos hi]
      refine (h.scanStep_scansTo hi (hs hi)).bind fun v hv => ?_
      have hlt := lt_stretchEnd s.pix.cell s.pix.size i
      exact ih _ v hv (stretchEnd_le hi) (by omega) startsAt_stretchEnd

/-! ### The command -/

/-- The state of an accepted `CONVERT` when its scan has passed the whole buffer. -/
def scanned (s : State) (cur : Cursors) : State :=
  { discardImage (accept s) with cur := cur, grp := groupsOf s.pix.cell s.pix.size s.pix.size }

/-- The state in which `CONVERT` ends by completion after that scan. -/
def converted (s : State) (cur : Cursors) : State :=
  complete (forgetCursors (finishConvert (removeBackground (scanned s cur))))

/-- A state in which `CONVERT` ends by `CapacityExceeded(info)`. -/
def convertFailed (s : State) (info : Nat) (cur : Cursors) (grp : List ColorGroup) : State :=
  takeError .capacityExceeded info (forgetCursors (forgetGroups
    { discardImage (accept s) with cur := cur, grp := grp }))

/-- `CONVERT` of a non-empty buffer completes within the capacities, and fails past them
(41_converter.md R160, R165). -/
theorem exec_convert_cases {s : State} (hn : s.pix.size ≠ 0) :
    (WithinCaps s.cap s.pix.cell s.pix.size ∧ ∃ cur,
      exec .convert s = .next (converted s cur)) ∨
    (¬ WithinCaps s.cap s.pix.cell s.pix.size ∧ ∃ info cur grp, (info = 1 ∨ info = 2) ∧
      exec .convert s = .next (convertFailed s info cur grp)) := by
  obtain ⟨-, hx⟩ := (execConvert_cases s).resolve_left fun h => hn h.1
  have hscan : ScansTo (discardImage (accept s)) s.pix.size
      (scan s.pix.size s.pix.size (setI (discardImage (accept s)) 0)) :=
    scan_scansTo s.pix.size 0 _ ⟨rfl, rfl, storeOk_nil _⟩ (Nat.zero_le _) (Nat.le_add_left _ _)
      fun _ => .inl rfl
  rw [show exec .convert s = _ from hx]
  cases hr : scan s.pix.size s.pix.size (setI (discardImage (accept s)) 0) with
  | ok u =>
    rw [hr] at hscan
    obtain ⟨-, hframe, hstore⟩ := hscan
    refine .inl ⟨withinCaps_of_storeOk hstore, u.cur, ?_⟩
    rw [hframe]
    rfl
  | raised e info u =>
    rw [hr] at hscan
    obtain ⟨rfl, hinfo, hframe, hcaps⟩ := hscan
    refine .inr ⟨hcaps, info, u.cur, u.grp, hinfo, ?_⟩
    rw [hframe]
    rfl

/-! ### The background -/

/-- The number found is that of the first group with the most entries, `g` being the first so far
(41_converter.md R166, R167). -/
theorem bestGroup_split : ∀ (rest before mid : List ColorGroup) (g : ColorGroup),
    (∀ x ∈ before, x.entries.length < g.entries.length) →
    (∀ x ∈ mid, x.entries.length ≤ g.entries.length) →
    ∃ before' g' after', before ++ g :: (mid ++ rest) = before' ++ g' :: after' ∧
      (∀ x ∈ before', x.entries.length < g'.entries.length) ∧
      (∀ x ∈ after', x.entries.length ≤ g'.entries.length) ∧
      bestGroup rest (before.length + 1 + mid.length) before.length g.entries.length =
        before'.length := by
  intro rest
  induction rest with
  | nil => exact fun before mid g hb hm => ⟨before, g, mid, by simp, hb, hm, rfl⟩
  | cons x rest ih =>
    intro before mid g hb hm
    by_cases hx : g.entries.length < x.entries.length
    · have hbefore : ∀ y ∈ before ++ g :: mid, y.entries.length < x.entries.length := by
        intro y hy
        rcases List.mem_append.mp hy with hy | hy
        · exact (hb y hy).trans hx
        · rcases List.mem_cons.mp hy with rfl | hy
          · exact hx
          · exact (hm y hy).trans_lt hx
      obtain ⟨before', g', after', heq, hb', ha', hbest⟩ :=
        ih (before ++ g :: mid) [] x hbefore (by simp)
      refine ⟨before', g', after', by simpa using heq, hb', ha', ?_⟩
      rw [bestGroup, if_pos hx, ← hbest]
      simp [Nat.add_assoc, Nat.add_comm 1]
    · have hmid : ∀ y ∈ mid ++ [x], y.entries.length ≤ g.entries.length := by
        intro y hy
        rcases List.mem_append.mp hy with hy | hy
        · exact hm y hy
        · rw [List.mem_singleton.mp hy]
          exact not_lt.mp hx
      obtain ⟨before', g', after', heq, hb', ha', hbest⟩ := ih before (mid ++ [x]) g hb hmid
      refine ⟨before', g', after', by simpa using heq, hb', ha', ?_⟩
      rw [bestGroup, if_neg hx, ← hbest]
      simp [Nat.add_assoc]

/-- The background removal takes out the first group with the most entries (41_converter.md R166). -/
theorem removeBackground_split {s : State} (h : s.grp ≠ []) :
    ∃ before g after, s.grp = before ++ g :: after ∧
      (∀ x ∈ before, x.entries.length < g.entries.length) ∧
      (∀ x ∈ after, x.entries.length ≤ g.entries.length) ∧
      removeBackground s = { s with imgBg := g.color, grp := before ++ after } := by
  obtain ⟨g, gs, hgrp⟩ := List.exists_cons_of_ne_nil h
  obtain ⟨before, g', after, heq, hb, ha, hbest⟩ := bestGroup_split gs [] [] g (by simp) (by simp)
  have hsplit : s.grp = before ++ g' :: after := hgrp.trans heq
  have hnumber : backgroundNumber s.grp = before.length := by rw [hgrp]; exact hbest
  refine ⟨before, g', after, hsplit, hb, ha, ?_⟩
  rw [removeBackground, hnumber, hsplit]
  simp [List.eraseIdx_append_of_length_le]

theorem removeBackground_frame (s : State) :
    ∃ bg grp, removeBackground s = { s with imgBg := bg, grp := grp } := by
  unfold removeBackground
  split
  · exact ⟨_, _, rfl⟩
  · exact ⟨s.imgBg, s.grp, rfl⟩

/-! ### The obligations -/

/-- Settles O17: the size is checked before the scan, and an error writes three fields. -/
theorem convertRejectsAnEmptyBuffer : Obligations.ConvertRejectsAnEmptyBuffer := by
  intro s hn
  rcases execConvert_cases s with ⟨-, hx⟩ | ⟨h, -⟩
  · exact hx
  · exact absurd hn h

theorem converted_frame (s : State) (cur : Cursors) :
    Completed s (converted s cur) ∧ (converted s cur).status.imgv = true ∧
      (converted s cur).imgW = s.pix.w ∧ (converted s cur).imgH = s.pix.h ∧
      SamePixels s (converted s cur) ∧ SameSelect s (converted s cur) ∧
      SameStream s (converted s cur) ∧ SameHost s (converted s cur) := by
  obtain ⟨bg, grp, hr⟩ := removeBackground_frame (scanned s cur)
  rw [converted, hr]
  exact ⟨⟨rfl, rfl, rfl, rfl, rfl⟩, rfl, rfl, rfl, ⟨rfl, rfl, fun _ => rfl⟩, ⟨rfl, rfl, rfl⟩,
    ⟨rfl, rfl, rfl, fun _ => rfl⟩, ⟨rfl, rfl, rfl⟩⟩

theorem convertFailed_failed {s : State} {info code : Nat} {cur : Cursors} {grp : List ColorGroup}
    (h : info = code) : Failed (convertFailed s info cur grp) .capacityExceeded code :=
  ⟨rfl, rfl, rfl, rfl, h⟩

theorem convertFailed_frame (s : State) (info : Nat) (cur : Cursors) (grp : List ColorGroup) :
    SamePixels s (convertFailed s info cur grp) ∧ SameSelect s (convertFailed s info cur grp) ∧
      SameStream s (convertFailed s info cur grp) ∧ SameHost s (convertFailed s info cur grp) :=
  ⟨⟨rfl, rfl, fun _ => rfl⟩, ⟨rfl, rfl, rfl⟩, ⟨rfl, rfl, rfl, fun _ => rfl⟩, ⟨rfl, rfl, rfl⟩⟩

/-- Settles O18: a buffer of `n` pixels has at most `n` colours and `n` entries. -/
theorem convertCompletes : Obligations.ConvertCompletes := by
  intro s hn hroom
  rcases exec_convert_cases hn with ⟨-, cur, hx⟩ | ⟨hcaps, -⟩
  · exact ⟨_, hx, converted_frame s cur⟩
  · exact absurd (withinCaps_of_roomFor _ hroom) hcaps

/-- Settles O19: `exec_convert_cases` has the capacities as its condition. -/
theorem convertFailsExactlyWhenACapacityIsPassed :
    Obligations.ConvertFailsExactlyWhenACapacityIsPassed := by
  intro s hn _
  rcases exec_convert_cases hn with ⟨hcaps, cur, hx⟩ | ⟨hcaps, info, cur, grp, hinfo, hx⟩
  · obtain ⟨⟨hbusy, hdone, -⟩, -, -, -, hsame⟩ := converted_frame s cur
    exact ⟨_, hx, hbusy, iff_of_true hdone hcaps,
      fun h => absurd (hdone.symm.trans h) (by decide), hsame⟩
  · exact ⟨_, hx, rfl, iff_of_false Bool.false_ne_true hcaps,
      fun _ => ⟨rfl, hinfo.imp convertFailed_failed convertFailed_failed⟩,
      convertFailed_frame s info cur grp⟩

end Sys2Proof.Machine
end

section
/-! What a completed `CONVERT` leaves (41_converter.md R166 to R168): the histogram without the group of the
background. O20 and O21. -/

namespace Sys2Proof.Machine

open Sys2Proof.Claims

section

variable {P : Nat → Color} {n i k : Nat} {c : Color}

/-! ### The groups of the histogram -/

theorem mem_groupOf_entries {e : Entry} :
    e ∈ (groupOf P n n c).entries ↔ ∃ i ∈ startsOf P n c, entryAt P n i = e := List.mem_map

theorem groupOf_starts (P : Nat → Color) (n : Nat) (c : Color) :
    (groupOf P n n c).entries.map startOf = startsOf P n c := by
  rw [groupOf, List.map_map]
  exact List.map_id'' (startOf_entryAt P n) _

/-- The entries of a colour cover its pixels only. -/
theorem colour_of_covers {e : Entry} (he : e ∈ (groupOf P n n c).entries) (hk : covers e k) :
    P k = c := by
  obtain ⟨i, hi, rfl⟩ := mem_groupOf_entries.mp he
  obtain ⟨-, rfl, -⟩ := mem_startsOf.mp hi
  rw [covers_iff, startOf_entryAt, endOf_entryAt] at hk
  exact colour_in_stretch hk.1 hk.2

/-- The entries of a colour cover all its pixels. -/
theorem exists_covers (hk : k < n) : ∃ e ∈ (groupOf P n n (P k)).entries, covers e k := by
  obtain ⟨i, hik, hi, hlt⟩ := exists_stretch (P := P) hk
  refine ⟨entryAt P n i, mem_groupOf_entries.mpr ⟨i, mem_startsOf.mpr
    ⟨by omega, (colour_in_stretch hik hlt).symm, hi⟩, rfl⟩, ?_⟩
  rw [covers_iff, startOf_entryAt, endOf_entryAt]
  exact ⟨hik, hlt⟩

theorem groupOf_entries_rising (P : Nat → Color) (n : Nat) (c : Color) :
    (groupOf P n n c).entries.Pairwise fun e f => startOf e < startOf f := by
  rw [← List.pairwise_map, groupOf_starts]
  exact startsOf_pairwise P n c

/-- Two entries of a colour never touch (41_converter.md R168 (d)). -/
theorem groupOf_entries_apart (P : Nat → Color) (n : Nat) (c : Color) :
    (groupOf P n n c).entries.Pairwise fun e f => endOf e < startOf f := by
  refine List.pairwise_map.mpr ((startsOf_pairwise P n c).imp_of_mem fun {i j} hi hj hij => ?_)
  obtain ⟨-, hci, -⟩ := mem_startsOf.mp hi
  obtain ⟨-, hcj, hs⟩ := mem_startsOf.mp hj
  rw [endOf_entryAt, startOf_entryAt]
  exact stretchEnd_lt_start hij hs (hcj.trans hci.symm)

/-! ### The image -/

/-- The image of a buffer: the background is the colour of `a`, the first pixel of its colour, which
splits the histogram's colours into those `before` with fewer entries and those `after` with no more. -/
structure ImageOf (P : Nat → Color) (n : Nat) (bg : Color) (grp : List ColorGroup)
    (before : List Nat) (a : Nat) (after : List Nat) : Prop where
  split : firstsOf P n = before ++ a :: after
  background : bg = P a
  groups : grp = (before ++ after).map fun i => groupOf P n n (P i)
  fewer : ∀ i ∈ before, entriesOf P n (P i) < entriesOf P n (P a)
  noMore : ∀ i ∈ after, entriesOf P n (P i) ≤ entriesOf P n (P a)

/-- What `CONVERT` leaves when it completes (41_converter.md R160, R166). -/
theorem exec_convert_image {s t : State} (hx : exec .convert s = .next t)
    (hdone : t.status.done = true) :
    s.pix.size ≠ 0 ∧ t.imgW = s.pix.w ∧ t.imgH = s.pix.h ∧
      ∃ before a after, ImageOf s.pix.cell s.pix.size t.imgBg t.grp before a after := by
  have hn : s.pix.size ≠ 0 := by
    intro hn
    cases (convertRejectsAnEmptyBuffer s hn).symm.trans hx
    cases hdone
  refine ⟨hn, ?_⟩
  rcases exec_convert_cases hn with ⟨-, cur, hc⟩ | ⟨-, info, cur, grp, -, hc⟩
  · cases hc.symm.trans hx
    obtain ⟨-, -, hw, hh, -⟩ := converted_frame s cur
    refine ⟨hw, hh, ?_⟩
    have hne : (scanned s cur).grp ≠ [] := by
      obtain ⟨f, hf, -⟩ := exists_first (P := s.pix.cell) (Nat.pos_of_ne_zero hn)
      exact List.ne_nil_of_mem (List.mem_map_of_mem hf)
    obtain ⟨gb, g, ga, hsplit, hfewer, hnoMore, hr⟩ := removeBackground_split hne
    obtain ⟨before, rest, hfirsts, rfl, hrest⟩ := List.map_eq_append_iff.mp hsplit
    obtain ⟨a, after, rfl, rfl, rfl⟩ := List.map_eq_cons_iff.mp hrest
    simp only [List.forall_mem_map, groupOf_entries_length] at hfewer hnoMore
    rw [converted, hr]
    exact ⟨before, a, after, hfirsts, rfl, List.map_append.symm, hfewer, hnoMore⟩
  · cases hc.symm.trans hx
    cases hdone

namespace ImageOf

variable {bg : Color} {grp : List ColorGroup} {before after : List Nat} {a : Nat}

theorem firsts_sublist (h : ImageOf P n bg grp before a after) :
    (before ++ after).Sublist (firstsOf P n) := by
  rw [h.split]
  exact (List.Sublist.refl before).append (List.sublist_cons_self a after)

theorem mem_firsts (h : ImageOf P n bg grp before a after) : a ∈ firstsOf P n := by
  rw [h.split]
  simp

/-- A group of the image is that of another colour than the background's. -/
theorem mem_grp (h : ImageOf P n bg grp before a after) {g : ColorGroup} (hg : g ∈ grp) :
    ∃ i ∈ firstsOf P n, P i ≠ bg ∧ g = groupOf P n n (P i) := by
  rw [h.groups] at hg
  obtain ⟨i, hi, rfl⟩ := List.mem_map.mp hg
  have hmem := h.firsts_sublist.subset hi
  refine ⟨i, hmem, fun hbg => ?_, rfl⟩
  obtain rfl := first_unique hmem h.mem_firsts (hbg.trans h.background)
  have hnodup := (firstsOf_pairwise P n).imp ne_of_lt
  rw [h.split] at hnodup
  exact (List.nodup_middle.mp hnodup).notMem hi

/-- Every colour but the background's has its group. -/
theorem groupOf_mem (h : ImageOf P n bg grp before a after) (hi : i < n) (hbg : P i ≠ bg) :
    groupOf P n n (P i) ∈ grp := by
  obtain ⟨f, hf, -, hc⟩ := exists_first hi
  rw [h.split, List.mem_append, List.mem_cons] at hf
  rw [← hc, h.groups]
  refine List.mem_map_of_mem (f := fun i => groupOf P n n (P i)) (List.mem_append.mpr ?_)
  rcases hf with hf | rfl | hf
  · exact .inl hf
  · exact absurd (hc.symm.trans h.background.symm) hbg
  · exact .inr hf

theorem colours_nodup (h : ImageOf P n bg grp before a after) :
    (grp.map fun g => g.color).Nodup := by
  rw [h.groups]
  exact (groupsOf_colours_nodup P n n).sublist ((h.firsts_sublist.map _).map _)

/-- `WF` of the image (10_state.md R44, 41_converter.md R168 (a)). -/
theorem wf (h : ImageOf P n bg grp before a after) {w ht : Nat} (hn : w * ht = n) (hpos : n ≠ 0) :
    WF w ht bg grp where
  nonempty := by omega
  inside e he := by
    obtain ⟨g, hg, he⟩ := List.mem_flatMap.mp he
    obtain ⟨i, -, -, rfl⟩ := h.mem_grp hg
    obtain ⟨k, hk, rfl⟩ := mem_groupOf_entries.mp he
    rw [hn]
    exact inImage_entryAt (mem_startsOf.mp hk).1
  disjoint := by
    refine List.pairwise_flatMap.mpr ⟨fun g hg => ?_, ?_⟩
    · obtain ⟨i, -, -, rfl⟩ := h.mem_grp hg
      refine (groupOf_entries_apart P n (P i)).imp fun hapart k ⟨he, hf⟩ => ?_
      rw [covers_iff] at he hf
      omega
    · refine (List.pairwise_map.mp h.colours_nodup).imp_of_mem
        fun hg hg' hne e he f hf k ⟨hk, hk'⟩ => ?_
      obtain ⟨i, -, -, rfl⟩ := h.mem_grp hg
      obtain ⟨j, -, -, rfl⟩ := h.mem_grp hg'
      exact hne ((colour_of_covers he hk).symm.trans (colour_of_covers hf hk'))
  rising g hg := by
    obtain ⟨i, -, -, rfl⟩ := h.mem_grp hg
    exact groupOf_entries_rising P n _
  noBackground g hg := by
    obtain ⟨i, -, hbg, rfl⟩ := h.mem_grp hg
    exact hbg
  distinct := h.colours_nodup
  noEmptyGroup g hg := by
    obtain ⟨i, hi, -, rfl⟩ := h.mem_grp hg
    obtain ⟨e, he, -⟩ := exists_covers (P := P) (mem_firstsOf.mp hi).1
    exact List.ne_nil_of_mem he

/-- Every pixel of another colour than the background's lies in an entry of its colour's group
(41_converter.md R168 (b)). -/
theorem covered (h : ImageOf P n bg grp before a after) (hi : i < n) (hbg : P i ≠ bg) :
    ∃ g ∈ grp, g.color = P i ∧ ∃ e ∈ g.entries, covers e i :=
  ⟨_, h.groupOf_mem hi hbg, rfl, exists_covers hi⟩

/-- `Recon` of the image is the buffer (10_state.md R45, 41_converter.md R168 (b)). -/
theorem isRecon (h : ImageOf P n bg grp before a after) {w ht : Nat} (hn : w * ht = n)
    (hpos : n ≠ 0) : IsRecon w ht bg grp P where
  wf := h.wf hn hpos
  inGroup i _ g hg e he hc := by
    obtain ⟨f, -, -, rfl⟩ := h.mem_grp hg
    exact colour_of_covers he hc
  elsewhere i hi hnone := by
    by_contra hbg
    obtain ⟨g, hg, -, e, he, hc⟩ := h.covered (hn ▸ hi) hbg
    exact hnone e (List.mem_flatMap.mpr ⟨g, hg, he⟩) hc

theorem maximal (h : ImageOf P n bg grp before a after) {g : ColorGroup} (hg : g ∈ grp) {e : Entry}
    (he : e ∈ g.entries) : maximalEntry P n g.color e := by
  obtain ⟨i, -, -, rfl⟩ := h.mem_grp hg
  obtain ⟨k, hk, rfl⟩ := mem_groupOf_entries.mp he
  obtain ⟨-, hc, hs⟩ := mem_startsOf.mp hk
  exact hc ▸ maximalEntry_entryAt hs

/-- The first entry of a group starts at the first pixel of its colour. -/
theorem head_start (h : ImageOf P n bg grp before a after) {g : ColorGroup} (hg : g ∈ grp) :
    ∃ i, (g.entries.map startOf).head? = some i ∧ P i = g.color ∧ ∀ j < i, P j ≠ g.color := by
  obtain ⟨i, hi, -, rfl⟩ := h.mem_grp hg
  refine ⟨i, ?_, rfl, (mem_firstsOf.mp hi).2⟩
  rw [groupOf_starts, startsOf_head? hi]

/-- The groups are in the order of their first pixels (41_converter.md R168 (f)). -/
theorem heads_rising (h : ImageOf P n bg grp before a after) :
    (grp.map fun g => (g.entries.map startOf).head?.getD 0).Pairwise (· < ·) := by
  have hheads : grp.map (fun g => (g.entries.map startOf).head?.getD 0) = before ++ after := by
    rw [h.groups, List.map_map]
    refine (List.map_congr_left fun i hi => ?_).trans (List.map_id' _)
    simp only [Function.comp_apply, groupOf_starts, startsOf_head? (h.firsts_sublist.subset hi),
      Option.getD_some]
  rw [hheads]
  exact (firstsOf_pairwise P n).sublist h.firsts_sublist

theorem length_add_one (h : ImageOf P n bg grp before a after) : grp.length + 1 = coloursIn P n := by
  rw [h.groups, ← firstsOf_length, h.split]
  simp [Nat.add_assoc]

/-- No colour has more entries than the background, and none as many starts before it
(41_converter.md R166, R167). -/
theorem background_first (h : ImageOf P n bg grp before a after) (hi : i < n) :
    entriesOf P n (P i) ≤ entriesOf P n bg ∧
      (entriesOf P n (P i) = entriesOf P n bg → a ≤ i) := by
  obtain ⟨f, hf, hfi, hc⟩ := exists_first hi
  have hrising := firstsOf_pairwise P n
  rw [h.split] at hf hrising
  obtain ⟨-, hrising, -⟩ := List.pairwise_append.mp hrising
  rw [← hc, h.background]
  rcases List.mem_append.mp hf with hf | hf
  · have hfewer := h.fewer f hf
    exact ⟨hfewer.le, fun heq => absurd heq hfewer.ne⟩
  · rcases List.mem_cons.mp hf with rfl | hf
    · exact ⟨le_rfl, fun _ => hfi⟩
    · exact ⟨h.noMore f hf, fun _ => ((List.rel_of_pairwise_cons hrising hf).trans_le hfi).le⟩

end ImageOf

end

/-! ### The obligations -/

/-- Settles O20, from the closed form of the groups and the first pixels of their colours. -/
theorem convertResultIsWellFormedAndLossless : Obligations.ConvertResultIsWellFormedAndLossless := by
  intro s t hx hdone
  obtain ⟨hpos, hw, hh, before, a, after, himage⟩ := exec_convert_image hx hdone
  have hn : t.imgW.toNat * t.imgH.toNat = s.pix.size := by rw [hw, hh]; rfl
  refine ⟨himage.wf hn hpos, ⟨hn, himage.isRecon hn hpos, fun _ => himage.covered⟩,
    fun _ hg _ => himage.maximal hg, fun g hg => ?_, fun _ => himage.head_start, himage.heads_rising,
    himage.length_add_one⟩
  obtain ⟨i, -, -, rfl⟩ := himage.mem_grp hg
  exact groupOf_entries_apart _ _ _

/-- Settles O21: the background's first pixel is `a`. -/
theorem backgroundHasTheMostEntriesFirstOfATie :
    Obligations.BackgroundHasTheMostEntriesFirstOfATie := by
  intro s t hx hdone
  obtain ⟨-, -, -, before, a, after, himage⟩ := exec_convert_image hx hdone
  refine ⟨⟨a, (mem_firstsOf.mp himage.mem_firsts).1, himage.background.symm,
    fun _ => himage.background_first⟩, fun g hg => ?_⟩
  obtain ⟨i, -, -, rfl⟩ := himage.mem_grp hg
  exact groupOf_entries_length _ _ _ _

end Sys2Proof.Machine
end

section
/-! Which images encode (42_encoder.md R180 to R182, R186, R190): one field, the first field that cannot be
written, and what a completed `ENCODE` says of its image. O5, O22, O24, O25 and O26. -/

namespace Sys2Proof.Machine

open Sys2Proof.Claims

/-! ### Rows of fields -/

/-- A row of fields that is written whole fits its widths and the bit buffer (42_encoder.md R180). -/
theorem putFields_eq_ok {fs : List BitField} : ∀ {s t : State}, fitsBits s.cap s.bitlen →
    putFields fs s = .ok t →
    (∀ f ∈ fs, fits f.value f.width) ∧ fitsBits s.cap (s.bitlen + widthOf fs) := by
  induction fs with
  | nil => exact fun hroom _ => ⟨by simp, hroom⟩
  | cons f fs ih =>
    intro s t _ h
    rw [putFields] at h
    rcases putBits_cases f s with ⟨-, hp⟩ | ⟨-, -, hp⟩ | ⟨hf, hs, hp⟩ <;> rw [hp] at h
    · cases h
    · cases h
    · obtain ⟨hfs, hroom⟩ := ih hs h
      refine ⟨List.forall_mem_cons.mpr ⟨hf, hfs⟩, ?_⟩
      rw [widthOf, List.map_cons, List.sum_cons, ← Nat.add_assoc]
      exact hroom

theorem putBits_status (f : BitField) (s : State) : (putBits f s).state.status = s.status := by
  rcases putBits_cases f s with ⟨-, hp⟩ | ⟨-, -, hp⟩ | ⟨-, -, hp⟩ <;> rw [hp] <;> rfl

theorem putFields_status (fields : List BitField) (s : State) :
    (putFields fields s).state.status = s.status :=
  putFields_keeps (P := fun t => t.status = s.status)
    (fun f t ht => (putBits_status f t).trans ht) fields s rfl

/-- An instruction whose fields fit their widths is well-formed (30_encoding.md R96). -/
theorem wf_of_fits {ib : Nat} {i : Instr} (hib : ib ≤ 127)
    (h : ∀ f ∈ i.fields ib, fits f.value f.width) : i.wf ib = true := by
  cases i with
  | nop | gray | dither | convert | encode | decode | rsvd6 | rsvd7 | rsvd8 | rsvd9 | rsvd10 | rsvd11
  | rsvd12 | rsvd13 | rsvd14 | sreset | color => rfl
  | hdr bg hib w ht =>
    have hw := h ⟨w, hib.toNat⟩ (by simp [Instr.fields])
    have hht := h ⟨ht, hib.toNat⟩ (by simp [Instr.fields])
    simp [Instr.wf, hw, hht]
  | sc a | st a =>
    have ha := h ⟨a, ib⟩ (by simp [Instr.fields])
    simp [Instr.wf, hib, ha]
  | rc a b | rt a b =>
    have ha := h ⟨a, ib⟩ (by simp [Instr.fields])
    have hb := h ⟨b, ib⟩ (by simp [Instr.fields])
    simp [Instr.wf, hib, ha, hb]

/-- Fields that fit and have room are written, and the row goes on after them (42_encoder.md R180). -/
theorem putFields_written {before : List BitField} {s : State} (rest : List BitField)
    (hfits : ∀ f ∈ before, fits f.value f.width)
    (hroom : fitsBits s.cap (s.bitlen + widthOf before)) (hcur : s.bitcur = s.bitlen) :
    ∃ t, putFields (before ++ rest) s = putFields rest t ∧
      t.cap = s.cap ∧ t.bitlen = s.bitlen + widthOf before := by
  rw [putFields_append, putFields_ok before s hfits hroom hcur]
  exact ⟨_, rfl, rfl, rfl⟩

/-! ### How `ENCODE` ends -/

/-- A field that cannot be written ends `ENCODE` with its error (60_exceptions.md R248). -/
theorem exec_encode_failed {s u : State} {e : ErrorKind} {info : Nat} (henc : encodable s)
    (hput : putFields (fieldsOf s) (encodeStart s) = .raised e info u) :
    ∃ t, exec .encode s = .next t ∧ Failed t e info := by
  have hx := exec_encode_eq henc
  have hstatus := putFields_status (fieldsOf s) (encodeStart s)
  rw [hput, bind_raised] at hx
  rw [hput, state_raised] at hstatus
  exact ⟨_, hx, rfl, congrArg Status.done hstatus, rfl, rfl, rfl⟩

/-- A completed `ENCODE` had an image it could size, every field of which fits, and room for the stream:
the converse of O23 (42_encoder.md R180, R186). -/
theorem encodable_of_done {s t : State} (hx : exec .encode s = .next t)
    (hdone : t.status.done = true) :
    encodable s ∧ (∀ i ∈ recordsOf s, i.wf (clog2 (imageSize s)) = true) ∧
      fitsBits s.cap (streamLength (clog2 (imageSize s)) s.grp) := by
  obtain ⟨himg, hsize, hib⟩ : encodable s := by
    rcases execEncode_cases s with ⟨-, he⟩ | ⟨-, -, he⟩ | ⟨-, -, he⟩ | ⟨himg, hsize, hib, -⟩
    · cases he.symm.trans hx
      cases hdone
    · cases he.symm.trans hx
      cases hdone
    · cases he.symm.trans hx
      cases hdone
    · exact ⟨himg, hsize, hib⟩
  have henc : encodable s := ⟨himg, hsize, hib⟩
  cases hput : putFields (fieldsOf s) (encodeStart s) with
  | raised e info u =>
    obtain ⟨t', hx', -, hdone', -⟩ := exec_encode_failed henc hput
    cases hx'.symm.trans hx
    exact absurd (hdone'.symm.trans hdone) Bool.false_ne_true
  | ok u =>
    obtain ⟨hfits, hroom⟩ := putFields_eq_ok (fun _ _ => Nat.zero_le _) hput
    refine ⟨henc, fun i hi => wf_of_fits hib fun f hf =>
      hfits f (List.mem_flatMap.mpr ⟨i, hi, hf⟩), ?_⟩
    rw [← widthOf_fieldsOf hib, ← Nat.zero_add (widthOf _)]
    exact hroom

/-! ### Images within their index width -/

/-- Entries that lie in an image of fewer than `2 ^ ib` pixels have well-formed records
(42_encoder.md R190). -/
theorem entryRecord_wf {ib n : Nat} {e : Entry} (hib : ib ≤ 127) (hn : n < 2 ^ ib)
    (he : inImage n e = true) (terminal : Bool) : (entryRecord terminal e).wf ib = true := by
  cases e with
  | single a =>
    have ha : a < n := by simpa [inImage] using he
    have hfits : fits a ib := ha.trans hn
    cases terminal <;> simp [entryRecord, Instr.wf, hib, hfits]
  | run a b =>
    obtain ⟨hab, hbn⟩ : a < b ∧ b ≤ n := by simpa [inImage] using he
    have hb : fits b ib := hbn.trans_lt hn
    have ha : fits a ib := hab.trans hb
    cases terminal <;> simp [entryRecord, Instr.wf, hib, ha, hb]

theorem mem_entryRecords {i : Instr} {es : List Entry} (h : i ∈ entryRecords es) :
    ∃ e ∈ es, ∃ terminal, i = entryRecord terminal e := by
  induction es with
  | nil => cases h
  | cons e es ih =>
    rcases List.mem_cons.mp h with rfl | h
    · exact ⟨e, by simp, _, rfl⟩
    · obtain ⟨e', he', hi⟩ := ih h
      exact ⟨e', List.mem_cons_of_mem _ he', hi⟩

/-- A well-formed image of fewer than `2 ^ ib` pixels has well-formed records: neither side is longer
than the image has pixels, and its entries lie in it (42_encoder.md R190). -/
theorem imageRecords_wf {ib : Nat} {w h : Size} {bg : Color} {groups : List ColorGroup}
    (hwf : WF w.toNat h.toNat bg groups) (hib : ib ≤ 127) (hn : w.toNat * h.toNat < 2 ^ ib) :
    ∀ i ∈ imageRecords ib w h bg groups, i.wf ib = true := by
  intro i hi
  rcases List.mem_cons.mp hi with rfl | hi
  · have hw : fits w.toNat ib :=
      (Nat.le_mul_of_pos_right _ (pos_of_mul_pos_right hwf.nonempty (Nat.zero_le _))).trans_lt hn
    have hh : fits h.toNat ib :=
      (Nat.le_mul_of_pos_left _ (pos_of_mul_pos_left hwf.nonempty (Nat.zero_le _))).trans_lt hn
    have hmod : ib % 2 ^ 7 = ib := Nat.mod_eq_of_lt (by omega)
    simp only [Instr.wf, BitVec.toNat_ofNat, hmod, hw, hh, decide_true, Bool.and_self]
  · obtain ⟨g, hg, hi⟩ := List.mem_flatMap.mp hi
    rcases List.mem_cons.mp hi with rfl | hi
    · rfl
    · obtain ⟨e, he, terminal, rfl⟩ := mem_entryRecords hi
      exact entryRecord_wf hib hn (hwf.inside e (List.mem_flatMap.mpr ⟨g, hg, he⟩)) terminal

/-- A completed `CONVERT` kept within the capacities, and left `converted` (41_converter.md R160, R165). -/
theorem exec_convert_done {s c : State} (hx : exec .convert s = .next c)
    (hdone : c.status.done = true) :
    WithinCaps s.cap s.pix.cell s.pix.size ∧ ∃ cur, c = converted s cur := by
  obtain ⟨hn, -⟩ := exec_convert_image hx hdone
  rcases exec_convert_cases hn with ⟨hcaps, cur, hc⟩ | ⟨-, info, cur, grp, -, hc⟩
  · cases hc.symm.trans hx
    exact ⟨hcaps, cur, rfl⟩
  · cases hc.symm.trans hx
    cases hdone

/-! ### The obligations -/

/-- Settles O26: a count of pixels that is no power of two lies below `2 ^ ib`, so every index, width and
height fits. -/
theorem convertedImagesEncodeUnlessAPowerOfTwo :
    Obligations.ConvertedImagesEncodeUnlessAPowerOfTwo := by
  intro s c hx hdone hpow hmax hroom
  obtain ⟨hwf, ⟨hsize, -⟩, -⟩ := convertResultIsWellFormedAndLossless s c hx hdone
  have himgv : c.status.imgv = true := by
    obtain ⟨-, cur, rfl⟩ := exec_convert_done hx hdone
    obtain ⟨-, himgv, -⟩ := converted_frame s cur
    exact himgv
  have hn : imageSize c = s.pix.size := hsize
  have hib : clog2 (imageSize c) ≤ 127 := clog2_le_iff.mpr (hn ▸ hmax)
  have hlt : imageSize c < 2 ^ clog2 (imageSize c) :=
    lt_of_le_of_ne (le_two_pow_clog2 _) fun h => hpow _ (hn.symm.trans h)
  obtain ⟨e, he, hcompleted, -⟩ := encodeWritesTheImagesStream c
    ⟨himgv, Nat.one_le_iff_ne_zero.mp hwf.nonempty, hib⟩ (imageRecords_wf hwf hib hlt) hroom
  exact ⟨e, he, hcompleted⟩

/-- Settles O5, by the three cases of `putBits_cases`. -/
theorem putBitsWritesTheFieldMostSignificantBitFirst :
    Obligations.PutBitsWritesTheFieldMostSignificantBitFirst := by
  intro s v n
  rcases putBits_cases ⟨v, n⟩ s with ⟨hf, hp⟩ | ⟨hf, hs, hp⟩ | ⟨hf, hs, hp⟩
  · exact ⟨fun _ => hp, fun h => absurd h hf, fun h => absurd h hf⟩
  · exact ⟨fun h => absurd hf h, fun _ _ => hp, fun _ h => absurd h hs⟩
  · refine ⟨fun h => absurd hf h, fun _ h => absurd hs h, fun _ _ =>
      ⟨_, hp, rfl, rfl, fun j hj => ?_, fun k hk => ?_, rfl⟩⟩
    · have hlen : j < (fieldBits n v).length := by rwa [fieldBits_length]
      exact (bitRead_bitWriteList_inside s _ hlen).trans (fieldBits_getElem n v j hlen)
    · exact bitRead_bitWriteList_outside s _ (by rwa [fieldBits_length])

/-- Settles O24: the fields before the one named are written, and it is not. -/
theorem encodeReportsTheFirstFieldThatCannotBeWritten :
    Obligations.EncodeReportsTheFirstFieldThatCannotBeWritten := by
  intro s before f after henc hfields hbefore hroom hbad
  obtain ⟨t, hx, -, hhost, hsel, himg, hpix⟩ := exec_encode_frame s
  obtain ⟨u, hput, hcap, hlen⟩ := putFields_written (s := encodeStart s) (f :: after) hbefore
    ((Nat.zero_add (widthOf before)).symm ▸ hroom) rfl
  obtain ⟨hoverflow, hspace, -⟩ :=
    putBitsWritesTheFieldMostSignificantBitFirst u f.value f.width
  rw [← hfields, putFields] at hput
  have hlen : u.bitlen = widthOf before := hlen.trans (Nat.zero_add _)
  rw [hlen] at hoverflow hspace
  have failed {e : ErrorKind} {info : Nat} (h : putBits f u = .raised e info u) :
      Failed t e info := by
    rw [h, bind_raised] at hput
    obtain ⟨t', hx', hfailed⟩ := exec_encode_failed henc hput
    cases hx'.symm.trans hx
    exact hfailed
  refine ⟨t, hx, fun hf => failed (hoverflow hf), fun hf => failed (hspace hf ?_), himg,
    ⟨congrArg _ hpix, congrArg _ hpix, fun _ => by rw [hpix]⟩, hsel, hhost⟩
  rw [hcap]
  exact hbad.resolve_left (not_not.mpr hf)

/-- Settles O25: the width is the first field of 0 bits, and it is 1. -/
theorem onePixelImagesDoNotEncode : Obligations.OnePixelImagesDoNotEncode := by
  intro s himg hsize hroom
  have hib : clog2 (imageSize s) = 0 := by rw [hsize]; rfl
  have hw : s.imgW.toNat = 1 := Nat.eq_one_of_mul_eq_one_right hsize
  have hfields : fieldsOf s = (colourFields s.imgBg ++ [⟨0, 7⟩]) ++ ⟨s.imgW.toNat, 0⟩ ::
      (⟨s.imgH.toNat, 0⟩ :: recordFields 0 (s.grp.flatMap groupRecords)) := by
    rw [fieldsOf_eq, hib]
    simp [Instr.fields]
  have hnot : ¬ fits s.imgW.toNat 0 := by simp [hw]
  obtain ⟨t, hx, hfailed, -⟩ := encodeReportsTheFirstFieldThatCannotBeWritten s _ _ _
    ⟨himg, by omega, by omega⟩ hfields
    (List.forall_mem_append.mpr ⟨fits_colourFields s.imgBg, by simp⟩) hroom (.inl hnot)
  exact ⟨t, hx, hfailed hnot⟩

/-- Settles O22: the three refusals of `execEncode_cases`, and `clog2 0` is 0. -/
theorem encodeRefusesImagesItCannotSize : Obligations.EncodeRefusesImagesItCannotSize := by
  intro s
  have hzero : imageSize s = 0 → clog2 (imageSize s) = 0 := fun h => by rw [h]; rfl
  rcases execEncode_cases s with
    ⟨himg, hx⟩ | ⟨himg, hsize, hx⟩ | ⟨himg, hib, hx⟩ | ⟨himg, hsize, hib, -⟩
  · exact ⟨fun _ => hx, by simp [himg], by simp [himg]⟩
  · exact ⟨by simp [himg], fun _ _ => hx, fun _ h => by omega⟩
  · exact ⟨by simp [himg], fun _ h => by omega, fun _ _ => hx⟩
  · exact ⟨by simp [himg], fun _ h => absurd h hsize, fun _ h => by omega⟩

end Sys2Proof.Machine
end

section
/-! `DECODE` of a stream that is a row of well-formed records (43_decoder.md R210 to R218): each tick takes one
record off the unread bits, a group record appends its entries, and the command completes where the bits
end. -/

namespace Sys2Proof.Machine

open Sys2Proof.Claims

/-! ### Ticks -/

/-- One tick of the sequencer while `DECODE` is busy. -/
def Ticks (s t : State) : Prop := s.status.busy = true ∧ decodeTick s = t

/-- The ticks of a `DECODE` lead where the command ends: fuel only bounds them (43_decoder.md R221). -/
theorem runDecode_of_ticks {u v : State} (h : Relation.ReflTransGen Ticks u v)
    (hv : v.status.busy = false) :
    ∀ fuel, u.status.busy = false ∨ u.bitlen - u.bitcur < fuel → runDecode fuel u = v := by
  induction h using Relation.ReflTransGen.head_induction_on with
  | refl => exact fun fuel _ => runDecode_idle hv fuel
  | @head u _ htick _ ih =>
    obtain ⟨hbusy, rfl⟩ := htick
    intro fuel hfuel
    have hfuel := hfuel.resolve_left (by simp [hbusy])
    obtain ⟨fuel, rfl⟩ := Nat.exists_eq_add_one_of_ne_zero (Nat.ne_zero_of_lt hfuel)
    rw [runDecode_succ, if_pos hbusy]
    refine ih fuel ?_
    rcases decodeTick_progress u with hidle | ⟨hlen, hlt, hle⟩
    · exact .inl hidle
    · exact .inr (by omega)

/-! ### The unread bits -/

/-- The bits of the stream from `BITCUR` on (43_decoder.md R210). -/
def unread (s : State) : List Bool := bitsAt s s.bitcur (s.bitlen - s.bitcur)

theorem unread_length (s : State) : (unread s).length = s.bitlen - s.bitcur := bitsAt_length _ _ _

theorem bitsAt_add (s : State) (k m n : Nat) :
    bitsAt s k (m + n) = bitsAt s k m ++ bitsAt s (k + m) n := by
  simp [bitsAt, List.range_add, Nat.add_assoc]

theorem bitsAt_congr {s t : State} (h : t.bit = s.bit) (k n : Nat) : bitsAt t k n = bitsAt s k n :=
  List.map_congr_left fun _ _ => bitRead_congr h _

theorem window_eq (s : State) : window s = (unread s).take maxRecordBits := by
  rw [window, unread, bitsAt, bitsAt, ← List.map_take, List.take_range, Nat.min_comm]

/-- Once the front of the unread bits has been passed, the rest is unread. -/
theorem unread_of_passed {s t : State} {front rest : List Bool} (h : unread s = front ++ rest)
    (hbit : t.bit = s.bit) (hlen : t.bitlen = s.bitlen)
    (hcur : t.bitcur = s.bitcur + front.length) : unread t = rest := by
  have htotal : s.bitlen - s.bitcur = front.length + rest.length := by
    rw [← unread_length, h, List.length_append]
  have hrest : t.bitlen - t.bitcur = rest.length := by omega
  rw [unread, htotal, bitsAt_add] at h
  rw [unread, hrest, hcur, bitsAt_congr hbit]
  exact List.append_inj_right h (bitsAt_length _ _ _)

theorem encode_length (ib : Nat) (i : Instr) : (encode ib i).length = i.length ib := by
  cases i with
  | nop | gray | dither | convert | encode | decode | rsvd6 | rsvd7 | rsvd8 | rsvd9 | rsvd10 | rsvd11
  | rsvd12 | rsvd13 | rsvd14 | sreset => rfl
  | hdr bg hib w h => exact Laws.EncodeLength.hdr bg hib w h ib
  | color c => exact Laws.EncodeLength.color c ib
  | sc a => exact Laws.EncodeLength.sc a ib
  | rc a b => exact Laws.EncodeLength.rc a b ib
  | st a => exact Laws.EncodeLength.st a ib
  | rt a b => exact Laws.EncodeLength.rt a b ib

/-- No record is longer than the window (30_encoding.md R94). -/
theorem length_le_maxRecordBits {ib : Nat} (i : Instr) (hib : ib ≤ 127) :
    i.length ib ≤ maxRecordBits := by
  cases i with
  | hdr bg hib w h =>
    have hlt := hib.isLt
    simp only [Instr.length, maxRecordBits]
    omega
  | _ => simp only [Instr.length, maxRecordBits]; omega

/-- The record at the front of the unread bits is the one the tick runs (43_decoder.md R212). -/
theorem decodeTick_record {s : State} {ib : Nat} {i : Instr} {rest : List Bool} (hib : ib ≤ 127)
    (hwf : i.wf ib = true) (hslot : recordSlot s = some (i.slot ib))
    (h : unread s = encode ib i ++ rest) : decodeTick s = recordEffect i s := by
  have hfront : (encode ib i).length ≤ maxRecordBits :=
    (encode_length ib i).trans_le (length_le_maxRecordBits i hib)
  have hwindow : window s = encode ib i ++ rest.take (maxRecordBits - (encode ib i).length) := by
    rw [window_eq, h, List.take_append, List.take_of_length_le hfront]
  have hread := decodingAnEncodedInstructionGivesItBack ib i
    (rest.take (maxRecordBits - (encode ib i).length)) hwf
  simp only [decodeTick, fetchRecord, hslot, Option.map_some, hwindow, hread]

/-! ### Appending within the capacities -/

/-- The group store after appending entries of one colour (43_decoder.md R214). -/
def appendEntries (grp : List ColorGroup) (c : Color) (es : List Entry) : List ColorGroup :=
  es.foldl (fun grp e => appendEntry grp c e) grp

/-- The group store after appending the entries of some group records. -/
def appendGroups (grp groups : List ColorGroup) : List ColorGroup :=
  groups.foldl (fun grp g => appendEntries grp g.color g.entries) grp

theorem appendGroups_nil (groups : List ColorGroup) : appendGroups [] groups = rebuilt groups := rfl

variable {cap : Caps} {grp : List ColorGroup} {c : Color}

/-- `Append` raises only if the store it would make is past a capacity (10_state.md R41). -/
theorem append_eq_ok {e : Entry} (h : roomForGroups cap (appendEntry grp c e)) :
    append cap grp c e = .ok (appendEntry grp c e) := by
  obtain ⟨hcol, hent⟩ := h
  rcases append_cases (rfl : append cap grp c e = _) with
    ⟨-, hnew, m, hm, hle⟩ | ⟨-, m, hm, hle⟩ | ⟨hok, -⟩
  · have hlen := hcol m hm
    rw [appendEntry_length, if_pos hnew] at hlen
    omega
  · have htotal := hent m hm
    rw [appendEntry_total] at htotal
    omega
  · exact hok

theorem roomForGroups_of_appendEntry {e : Entry} (h : roomForGroups cap (appendEntry grp c e)) :
    roomForGroups cap grp := by
  obtain ⟨hcol, hent⟩ := h
  refine ⟨fun m hm => le_trans ?_ (hcol m hm), fun m hm => le_trans ?_ (hent m hm)⟩
  · rw [appendEntry_length]
    split <;> omega
  · rw [appendEntry_total]
    omega

theorem roomForGroups_of_appendEntries {es : List Entry} :
    ∀ {grp}, roomForGroups cap (appendEntries grp c es) → roomForGroups cap grp := by
  induction es with
  | nil => exact id
  | cons e es ih => exact fun h => roomForGroups_of_appendEntry (ih h)

theorem roomForGroups_of_appendGroups {groups : List ColorGroup} :
    ∀ {grp}, roomForGroups cap (appendGroups grp groups) → roomForGroups cap grp := by
  induction groups with
  | nil => exact id
  | cons g gs ih => exact fun h => roomForGroups_of_appendEntries (ih h)

/-- The entries of a new colour become a group of their own. -/
theorem appendEntries_new {es : List Entry} (hnew : ∀ g ∈ grp, g.color ≠ c) (hes : es ≠ []) :
    appendEntries grp c es = grp ++ [{ color := c, entries := es }] := by
  have more : ∀ (es front : List Entry),
      appendEntries (grp ++ [{ color := c, entries := front }]) c es =
        grp ++ [{ color := c, entries := front ++ es }] := by
    intro es
    induction es with
    | nil => exact fun front => by rw [List.append_nil]; rfl
    | cons e es ih =>
      intro front
      have hfirst := appendEntry_of_first (g := { color := c, entries := front }) (after := []) e hnew
      rw [appendEntries, List.foldl_cons, hfirst]
      exact (ih (front ++ [e])).trans (by rw [List.append_assoc, List.singleton_append])
  obtain ⟨e, es, rfl⟩ := List.exists_cons_of_ne_nil hes
  rw [appendEntries, List.foldl_cons, appendEntry_of_new e hnew]
  exact more es [e]

/-- Groups of different colours, none of them empty, are rebuilt as they are (42_encoder.md R198). -/
theorem appendGroups_distinct {groups : List ColorGroup} (hne : ∀ g ∈ groups, g.entries ≠ []) :
    ∀ {grp}, ((grp ++ groups).map fun g => g.color).Nodup →
      appendGroups grp groups = grp ++ groups := by
  induction groups with
  | nil => exact fun _ => (List.append_nil _).symm
  | cons g gs ih =>
    intro grp hnodup
    obtain ⟨hg, hgs⟩ := List.forall_mem_cons.mp hne
    have hnew : ∀ x ∈ grp, x.color ≠ g.color := by
      rw [List.map_append, List.map_cons] at hnodup
      exact fun x hx => (List.nodup_append.mp hnodup).2.2 _ (List.mem_map_of_mem hx) _ (by simp)
    rw [List.append_cons] at hnodup ⊢
    rw [appendGroups, List.foldl_cons, appendEntries_new hnew hg]
    exact ih hgs hnodup

theorem rebuilt_eq_self {groups : List ColorGroup}
    (hnodup : (groups.map fun g => g.color).Nodup) (hne : ∀ g ∈ groups, g.entries ≠ []) :
    rebuilt groups = groups := appendGroups_distinct (grp := []) hne hnodup

/-! ### The sequencer over a row of records -/

/-- The state in which the sequencer stands between two group records (43_decoder.md R212). -/
def groupState (bits : List Bool) : DState := if bits = [] then .stop else .color

/-- `u` is a `DECODE` whose header left `b`, with the store `grp` so far and `bits` unread. -/
structure Reading (b : State) (grp : List ColorGroup) (bits : List Bool) (u : State) : Prop where
  frame : u = { b with bitcur := u.bitcur, cur := u.cur, grp := grp }
  inside : u.bitcur ≤ b.bitlen
  unread_eq : unread u = bits

theorem nextGroup_eq (s : State) : nextGroup s = enter (groupState (unread s)) s := by
  have hend : unread s = [] ↔ ¬ s.bitcur < s.bitlen := by
    rw [← List.length_eq_zero_iff, unread_length]
    omega
  rw [nextGroup, groupState, if_congr hend rfl rfl, ite_not]

theorem recordEffect_entryRecord (terminal : Bool) (e : Entry) (s : State) :
    recordEffect (entryRecord terminal e) s =
      parseEntry (entryLength s.indexbits.toNat e) e terminal s := by
  cases e <;> cases terminal <;> rfl

theorem entryRecord_slot (ib : Nat) (terminal : Bool) (e : Entry) :
    (entryRecord terminal e).slot ib = .entry ib := by
  cases e <;> cases terminal <;> rfl

theorem entryRecord_length (ib : Nat) (terminal : Bool) (e : Entry) :
    (entryRecord terminal e).length ib = entryLength ib e := by
  cases e <;> cases terminal <;> rfl

namespace Reading

variable {b u : State} {bits : List Bool} {ib : Nat}

theorem bitcur_of_nil (h : Reading b grp [] u) : u.bitcur = b.bitlen := by
  have hlen := unread_length u
  have hb : u.bitlen = b.bitlen := by rw [h.frame]
  have hinside := h.inside
  rw [h.unread_eq, List.length_nil] at hlen
  omega

/-- A record that is passed leaves the bits after it unread. -/
theorem passed {i : Instr} (h : Reading b grp (encode ib i ++ bits) u) (cur : Cursors)
    (grp' : List ColorGroup) :
    Reading b grp' bits { advance (i.length ib) u with cur := cur, grp := grp' } where
  frame := by
    rw [h.frame]
    rfl
  inside := by
    have hlen := unread_length u
    have hb : u.bitlen = b.bitlen := by rw [h.frame]
    have hinside := h.inside
    rw [h.unread_eq, List.length_append, encode_length] at hlen
    simp only [advance_bitcur]
    omega
  unread_eq := unread_of_passed h.unread_eq rfl rfl (by rw [encode_length]; rfl)

/-- A colour record (43_decoder.md R214). -/
theorem color_tick (hbusy : b.status.busy = true) (hib : ib ≤ 127)
    (h : Reading b grp (encode ib (.color c) ++ bits) u) (hd : u.cur.dstate = .color) :
    ∃ v, Ticks u v ∧ Reading b grp bits v ∧ v.cur.curc = c ∧ v.cur.dstate = .entry := by
  have hu : u.status.busy = true := by rw [h.frame]; exact hbusy
  have hslot : recordSlot u = some ((Instr.color c).slot ib) := by rw [recordSlot, hd]; rfl
  have hgrp : u.grp = grp := by rw [h.frame]
  refine ⟨_, ⟨hu, decodeTick_record hib rfl hslot h.unread_eq⟩, ?_, rfl, rfl⟩
  have hpassed : Reading b u.grp bits (recordEffect (.color c) u) := h.passed _ u.grp
  rwa [hgrp] at hpassed

/-- An entry record for which `Append` has room (43_decoder.md R215 to R218). -/
theorem entry_tick {e : Entry} {terminal : Bool} (hbusy : b.status.busy = true)
    (hindex : b.indexbits.toNat = ib) (h : Reading b grp (encode ib (entryRecord terminal e) ++ bits) u)
    (hd : u.cur.dstate = .entry) (hwf : (entryRecord terminal e).wf ib = true)
    (hroom : roomForGroups b.cap (appendEntry grp u.cur.curc e)) :
    ∃ v, Ticks u v ∧ Reading b (appendEntry grp u.cur.curc e) bits v ∧ v.cur.curc = u.cur.curc ∧
      v.cur.dstate = if terminal then groupState bits else .entry := by
  have hib : ib ≤ 127 := hindex ▸ Nat.le_of_lt_succ b.indexbits.isLt
  have hu : u.status.busy = true := by rw [h.frame]; exact hbusy
  have hindex : u.indexbits.toNat = ib := by rw [h.frame]; exact hindex
  have happend : append u.cap u.grp u.cur.curc e = .ok (appendEntry grp u.cur.curc e) := by
    rw [h.frame]
    exact append_eq_ok hroom
  have hslot : recordSlot u = some ((entryRecord terminal e).slot ib) := by
    rw [recordSlot, hd, entryRecord_slot, hindex]
  refine ⟨_, ⟨hu, decodeTick_record hib hwf hslot h.unread_eq⟩, ?_⟩
  rw [recordEffect_entryRecord, hindex, ← entryRecord_length ib terminal e]
  rcases parseEntry_cases ((entryRecord terminal e).length ib) e terminal u with
    ⟨grp', ha, hp⟩ | ⟨info, ha, -⟩
  · cases happend.symm.trans ha
    have hpassed := fun cur => h.passed cur (appendEntry grp u.cur.curc e)
    rw [hp]
    cases terminal with
    | false => exact ⟨hpassed _, rfl, rfl⟩
    | true =>
      have hunread : unread { advance ((entryRecord true e).length ib) u with
          grp := appendEntry grp u.cur.curc e } = bits := (hpassed u.cur).unread_eq
      rw [if_pos rfl, nextGroup_eq, hunread]
      exact ⟨hpassed _, rfl, rfl⟩
  · cases happend.symm.trans ha

/-- The entry records of a group (43_decoder.md R212, R215 to R218). -/
theorem entries_ticks (hbusy : b.status.busy = true) (hindex : b.indexbits.toNat = ib) :
    ∀ (es : List Entry) {grp : List ColorGroup} {u : State}, es ≠ [] →
      Reading b grp (bitsOf ib (entryRecords es) ++ bits) u → u.cur.dstate = .entry →
      (∀ i ∈ entryRecords es, i.wf ib = true) →
      roomForGroups b.cap (appendEntries grp u.cur.curc es) →
      ∃ v, Relation.ReflTransGen Ticks u v ∧
        Reading b (appendEntries grp u.cur.curc es) bits v ∧ v.cur.dstate = groupState bits := by
  intro es
  induction es with
  | nil => exact fun hne => absurd rfl hne
  | cons e es ih =>
    intro grp u _ h hd hwf hroom
    rw [entryRecords, List.forall_mem_cons] at hwf
    obtain ⟨hwf, hwfs⟩ := hwf
    rw [entryRecords, bitsOf, List.flatMap_cons, List.append_assoc] at h
    obtain ⟨v, htick, hv, hcolour, hstate⟩ :=
      h.entry_tick hbusy hindex hd hwf (roomForGroups_of_appendEntries hroom)
    rw [appendEntries, List.foldl_cons] at hroom ⊢
    by_cases hes : es = []
    · subst hes
      exact ⟨v, .single htick, hv, hstate⟩
    · rw [if_neg (by simpa using hes)] at hstate
      rw [← hcolour] at hv hroom ⊢
      obtain ⟨w, hticks, hw⟩ := ih hes hv hstate hwfs hroom
      exact ⟨w, .head htick hticks, hw⟩

/-- The group records of a stream, to its end (43_decoder.md R212). -/
theorem groups_ticks (hbusy : b.status.busy = true) (hindex : b.indexbits.toNat = ib) :
    ∀ (groups : List ColorGroup) {grp : List ColorGroup} {u : State},
      Reading b grp (bitsOf ib (groups.flatMap groupRecords)) u →
      u.cur.dstate = groupState (bitsOf ib (groups.flatMap groupRecords)) →
      (∀ g ∈ groups, g.entries ≠ []) →
      (∀ i ∈ groups.flatMap groupRecords, i.wf ib = true) →
      roomForGroups b.cap (appendGroups grp groups) →
      ∃ v, Relation.ReflTransGen Ticks u v ∧ Reading b (appendGroups grp groups) [] v ∧
        v.cur.dstate = .stop := by
  intro groups
  induction groups with
  | nil => exact fun h hd _ _ _ => ⟨_, .refl, h, hd⟩
  | cons g gs ih =>
    intro grp u h hd hne hwf hroom
    have hib : ib ≤ 127 := hindex ▸ Nat.le_of_lt_succ b.indexbits.isLt
    have hbits : bitsOf ib ((g :: gs).flatMap groupRecords) = encode ib (.color g.color) ++
        (bitsOf ib (entryRecords g.entries) ++ bitsOf ib (gs.flatMap groupRecords)) := by
      simp [bitsOf, groupRecords]
    obtain ⟨hg, hgs⟩ := List.forall_mem_cons.mp hne
    rw [List.flatMap_cons, groupRecords, List.forall_mem_append, List.forall_mem_cons] at hwf
    obtain ⟨⟨-, hwf⟩, hwfs⟩ := hwf
    rw [hbits] at h
    have hcolor : u.cur.dstate = .color := by
      rw [hd, hbits]
      rfl
    rw [appendGroups, List.foldl_cons] at hroom ⊢
    obtain ⟨v, htick, hv, hcolour, hstate⟩ := h.color_tick hbusy hib hcolor
    rw [← hcolour] at hroom ⊢
    obtain ⟨w, hentries, hw, hstate⟩ := hv.entries_ticks hbusy hindex g.entries hg hstate hwf
      (roomForGroups_of_appendGroups hroom)
    obtain ⟨x, hgroups, hx⟩ := ih hw hstate hgs hwfs hroom
    exact ⟨x, .head htick (hentries.trans hgroups), hx⟩

end Reading

/-! ### The command -/

/-- A `DECODE` in progress whose header has been read (43_decoder.md R213). -/
def headerRead (s : State) (ib : BitVec 7) (w h : Size) (bg : Color) : State :=
  { startDecode s with imgBg := bg, indexbits := ib, imgW := w, imgH := h }

theorem recordEffect_hdr (s : State) (ib : BitVec 7) (w h : Size) (bg : Color) :
    recordEffect (.hdr bg ib w.toNat h.toNat) (startDecode s) =
      nextGroup (advance (31 + 2 * ib.toNat) (headerRead s ib w h bg)) := by
  rw [recordEffect, parseHdr, BitVec.ofNat_toNat, BitVec.ofNat_toNat, BitVec.setWidth_eq,
    BitVec.setWidth_eq]
  rfl

/-- The header of a stream (43_decoder.md R213). -/
theorem header_tick {s : State} {ib : Nat} {w h : Size} {bg : Color} {bits : List Bool} (hib : ib ≤ 127)
    (hwf : (Instr.hdr bg (BitVec.ofNat 7 ib) w.toNat h.toNat).wf ib = true)
    (hbits : bitsAt s 0 s.bitlen =
      encode ib (.hdr bg (BitVec.ofNat 7 ib) w.toNat h.toNat) ++ bits) :
    ∃ u, Ticks (startDecode s) u ∧ Reading (headerRead s (BitVec.ofNat 7 ib) w h bg) [] bits u ∧
      u.cur.dstate = groupState bits := by
  have hstart : Reading (headerRead s (BitVec.ofNat 7 ib) w h bg) [] _
      (headerRead s (BitVec.ofNat 7 ib) w h bg) := ⟨rfl, Nat.zero_le _, hbits⟩
  have hpassed := fun cur => hstart.passed cur []
  have hunread : unread (advance (31 + 2 * (BitVec.ofNat 7 ib).toNat)
      (headerRead s (BitVec.ofNat 7 ib) w h bg)) = bits := (hpassed (startDecode s).cur).unread_eq
  refine ⟨_, ⟨rfl, decodeTick_record hib hwf rfl hbits⟩, ?_⟩
  rw [recordEffect_hdr, nextGroup_eq, hunread]
  exact ⟨hpassed _, rfl⟩

/-- `DECODE` of a stream that is an image's records, with room for the store it builds, ends in the state
that the header and the group records say (43_decoder.md R211 to R218). -/
theorem exec_decode_records {s : State} {ib : Nat} {w h : Size} {bg : Color} {groups : List ColorGroup}
    (hib : ib ≤ 127) (hwf : ∀ i ∈ imageRecords ib w h bg groups, i.wf ib = true)
    (hne : ∀ g ∈ groups, g.entries ≠ []) (hfits : fitsBits s.cap s.bitlen)
    (hbits : bitsAt s 0 s.bitlen = bitsOf ib (imageRecords ib w h bg groups))
    (hroom : roomForGroups s.cap (rebuilt groups)) :
    ∃ cur, exec .decode s = .next (completeDecode { headerRead s (BitVec.ofNat 7 ib) w h bg with
      bitcur := s.bitlen, cur := cur, grp := rebuilt groups }) := by
  obtain ⟨-, hx⟩ := (execDecode_cases s).resolve_left fun hno => hno.1 hfits
  obtain ⟨hhdr, hgroups⟩ := List.forall_mem_cons.mp hwf
  obtain ⟨u, htick, hu, hstate⟩ := header_tick hib hhdr hbits
  obtain ⟨v, hticks, hv, hstop⟩ := hu.groups_ticks rfl (Nat.mod_eq_of_lt (by omega)) groups hstate hne
    hgroups hroom
  have hend : Ticks v (completeDecode v) :=
    ⟨by rw [hv.frame]; rfl, by rw [decodeTick, fetchRecord, recordSlot, hstop]; rfl⟩
  have hrun := runDecode_of_ticks (.head htick (hticks.tail hend)) rfl (s.bitlen + 2)
    (.inr (Nat.lt_add_of_pos_right Nat.two_pos))
  rw [hrun, hv.frame, hv.bitcur_of_nil] at hx
  exact ⟨v.cur, hx⟩

end Sys2Proof.Machine
end

section
/-! The round trip (42_encoder.md R198): `DECODE` of what `ENCODE` wrote gives the image back, and after
`CONVERT` the buffer. O31 and O32. -/

namespace Sys2Proof.Machine

open Sys2Proof.Claims

/-- What `DECODE` gives back of the image that `ENCODE` of `s` wrote and left in `t`. -/
def GivesBack (s t u : State) : Prop :=
  Completed t u ∧ SameImage s u ∧ u.indexbits = t.indexbits ∧ u.bitcur = t.bitlen ∧
    u.bitlen = t.bitlen ∧ SameBits t u ∧ SamePixels s u ∧ SameSelect s u ∧ SameHost s u

/-- The round trip of any image whose group store keeps its rules (42_encoder.md R198). -/
theorem exec_decode_encoded {s t : State} (hstore : StoreOk s.cap s.grp)
    (hx : exec .encode s = .next t) (hdone : t.status.done = true) :
    ∃ u, exec .decode t = .next u ∧ GivesBack s t u := by
  obtain ⟨⟨himg, hsize, hib⟩, hwf, hroom⟩ := encodable_of_done hx hdone
  obtain ⟨t', hx', -, hindex, hlen, -, hbits, -, -, -, hpix, hselect, hhost⟩ :=
    encodeWritesTheImagesStream s ⟨himg, hsize, hib⟩ hwf hroom
  cases hx'.symm.trans hx
  have hcap : t.cap = s.cap := hhost.1
  have hsame : rebuilt s.grp = s.grp := rebuilt_eq_self hstore.colours hstore.entries
  obtain ⟨cur, hdecode⟩ := exec_decode_records hib hwf hstore.entries
    (by rw [hcap, hlen]; exact hroom) hbits
    (by rw [hcap, hsame]; exact ⟨hstore.colourCap, hstore.entryCap⟩)
  refine ⟨_, hdecode, ⟨rfl, rfl, rfl, rfl, rfl⟩, ⟨rfl, rfl, rfl, hsame, himg.symm⟩, ?_, rfl, rfl,
    fun _ => rfl, hpix, hselect, hhost⟩
  rw [← hindex, BitVec.ofNat_toNat, BitVec.setWidth_eq]
  rfl

/-- The histogram of a buffer within the capacities keeps the rules of the group store. -/
theorem groupsOf_storeOk {cap : Caps} {P : Nat → Color} {n : Nat} (h : WithinCaps cap P n) :
    StoreOk cap (groupsOf P n n) where
  colours := groupsOf_colours_nodup P n n
  entries g hg := by
    obtain ⟨i, hi, rfl⟩ := List.mem_map.mp hg
    obtain ⟨e, he, -⟩ := exists_covers (P := P) (mem_firstsOf.mp hi).1
    exact List.ne_nil_of_mem he
  colourCap m hm := (groupsOf_length P n n).trans_le (h.1 m hm)
  entryCap m hm := (totalEntries_groupsOf P n n).trans_le (h.2 m hm)

theorem removeBackground_storeOk {s : State} (h : StoreOk s.cap s.grp) :
    StoreOk (removeBackground s).cap (removeBackground s).grp := by
  unfold removeBackground
  split
  · exact storeOk_eraseIdx h _
  · exact h

/-- A completed `CONVERT` leaves a group store that keeps its rules (10_state.md R39, R41). -/
theorem exec_convert_storeOk {s c : State} (hx : exec .convert s = .next c)
    (hdone : c.status.done = true) : StoreOk c.cap c.grp := by
  obtain ⟨hcaps, cur, rfl⟩ := exec_convert_done hx hdone
  exact removeBackground_storeOk (s := scanned s cur) (groupsOf_storeOk hcaps)

/-! ### The obligations -/

/-- Settles O31: the invariant holds of the group store. -/
theorem decodeOfAnEncodedImageGivesItBack : Obligations.DecodeOfAnEncodedImageGivesItBack :=
  fun _ _ hinv _ hx hdone => exec_decode_encoded hinv.parts.store hx hdone

/-- Settles O32: the image is as `CONVERT` left it, and that reconstructs the buffer by O20. -/
theorem roundTripReconstructsThePixelBuffer : Obligations.RoundTripReconstructsThePixelBuffer := by
  intro s c e hconvert hcdone hencode hedone
  obtain ⟨d, hdecode, hcompleted, himage, -⟩ :=
    exec_decode_encoded (exec_convert_storeOk hconvert hcdone) hencode hedone
  obtain ⟨-, ⟨-, hrecon, -⟩, -⟩ := convertResultIsWellFormedAndLossless s c hconvert hcdone
  refine ⟨d, hdecode, hcompleted, himage, ?_⟩
  obtain ⟨hw, hh, hbg, hgrp, -⟩ := himage
  rw [hw, hh, hbg, hgrp]
  exact hrecon

end Sys2Proof.Machine
end

section
/-! The six records one by one (43_decoder.md R213 to R218), and the step that runs the one at `BITCUR` (R212):
O35, O36, O37, O46. -/

namespace Sys2Proof.Machine

open Sys2Proof.Claims

/-! ### Where `Append` has room -/

theorem append_ok_of_canAppend {s : State} {c : Color} (e : Entry) (h : canAppend s c) :
    append s.cap s.grp c e = .ok (appendEntry s.grp c e) := by
  obtain ⟨hcol, hent⟩ := h
  rcases append_cases (rfl : append s.cap s.grp c e = _) with
    ⟨-, hnew, m, hm, hle⟩ | ⟨-, m, hm, hle⟩ | ⟨hok, -⟩
  · exact absurd hle (not_le.mpr (hcol m hm hnew))
  · exact absurd hle (not_le.mpr (hent m hm))
  · exact hok

theorem parseEntry_of_canAppend {s : State} (n : Nat) (e : Entry) (terminal : Bool)
    (h : canAppend s s.cur.curc) : parseEntry n e terminal s =
      if terminal then nextGroup { advance n s with grp := appendEntry s.grp s.cur.curc e }
      else enter .entry { advance n s with grp := appendEntry s.grp s.cur.curc e } := by
  have happend := append_ok_of_canAppend e h
  rcases parseEntry_cases n e terminal s with ⟨grp, ha, hp⟩ | ⟨info, ha, -⟩ <;>
    cases happend.symm.trans ha
  exact hp

/-! ### The record at `BITCUR` -/

variable {s : State} {slot : Slot}

theorem fetchRecord_ok {i : Instr} {rest : List Bool} (hslot : recordSlot s = some slot)
    (h : decode slot (window s) = .ok (i, rest)) : fetchRecord s = some (.ok i) := by
  rw [fetchRecord, hslot, Option.map_some, h]

theorem fetchRecord_error {r : Reject} (hslot : recordSlot s = some slot)
    (h : decode slot (window s) = .error r) : fetchRecord s = some (.error r) := by
  rw [fetchRecord, hslot, Option.map_some, h]

theorem runEngine_record {i : Instr} {rest : List Bool} (hbusy : s.status.busy = true)
    (hslot : recordSlot s = some slot) (h : decode slot (window s) = .ok (i, rest)) :
    runEngine s = exec i s := by
  rw [runEngine, if_pos hbusy, fetchRecord_ok hslot h]

/-! ### The obligations -/

/-- Settles O35: a width or a height of at most 127 bits is its register's value. -/
theorem hdrWritesTheImageRegisters : Obligations.HdrWritesTheImageRegisters := by
  intro s bg ib w h hw hh
  have hsize : 2 ^ ib.toNat ≤ 2 ^ 127 :=
    Nat.pow_le_pow_right Nat.two_pos (Nat.le_of_lt_succ ib.isLt)
  exact ⟨_, rfl, rfl, rfl, Nat.mod_eq_of_lt (hw.trans_le hsize), Nat.mod_eq_of_lt (hh.trans_le hsize),
    rfl, rfl, rfl, rfl, rfl, rfl, rfl, fun _ => rfl, ⟨rfl, rfl, fun _ => rfl⟩, ⟨rfl, rfl, rfl⟩,
    ⟨rfl, rfl, rfl⟩⟩

/-- Settles O36: what `parseColor` writes, field by field. -/
theorem colorSetsTheCurrentColour : Obligations.ColorSetsTheCurrentColour := by
  intro s c
  exact ⟨_, rfl, rfl, rfl, rfl, sameImage_refl s, rfl, ⟨rfl, rfl, rfl⟩, rfl, rfl, fun _ => rfl,
    ⟨rfl, rfl, fun _ => rfl⟩, ⟨rfl, rfl, rfl⟩, ⟨rfl, rfl, rfl⟩⟩

/-- Settles O37: all four records are `parseEntry`, and `Append` answers the longer store. -/
theorem entryRecordsAppendToTheCurrentGroup : Obligations.EntryRecordsAppendToTheCurrentGroup := by
  intro s i e terminal n hi hroom
  refine ⟨_, exec_entryRecord s hi, ?_⟩
  rw [parseEntry_of_canAppend _ e terminal hroom]
  cases terminal <;>
  exact ⟨rfl, rfl, rfl, rfl, rfl, ⟨rfl, rfl, rfl⟩, rfl, rfl, rfl, rfl, rfl, fun _ => rfl,
    ⟨rfl, rfl, fun _ => rfl⟩, ⟨rfl, rfl, rfl⟩, ⟨rfl, rfl, rfl⟩⟩

/-- Settles O46: with no move, and with the move `wait`, the block is left alone. -/
theorem stepRunsTheRecordAtBitcur : Obligations.StepRunsTheRecordAtBitcur := by
  intro s slot i rest hbusy hslot hdecode
  refine ⟨fun hhost => ?_, fun ms hhost => ?_⟩
  · rw [step_nil hhost]
    exact runEngine_record hbusy hslot hdecode
  · rw [step_cons hhost]
    exact runEngine_record (s := { s with host := ms }) hbusy hslot hdecode

end Sys2Proof.Machine
end
section
/-! How `DECODE` ends (43_decoder.md R210 to R213, R221): completed exactly at `BITLEN`, or with an error that
says where. O27, O28, O29. -/

namespace Sys2Proof

/-! ### A field, and then the others -/

theorem ReadsFields.cons_cases {β : Type} {offset n len : Nat} {ns : List Nat} {r : Except Reject β}
    (h : ReadsFields offset (n :: ns) len r) :
    (len < n ∧ r = .error (.endsInField offset)) ∨
    ∃ left, len = n + left ∧ ReadsFields (offset + n) ns left r := by
  cases h with
  | cut _ hlt => exact .inl ⟨hlt, rfl⟩
  | field hrest => exact .inr ⟨_, rfl, hrest⟩

/-- A header cut in its fixed part is rejected at the field that is cut (43_decoder.md R213). -/
theorem decode_header_short {bits : List Bool} (h : bits.length < 31) :
    decode .header bits = .error (.endsInField (if bits.length < 8 then 0
      else if bits.length < 16 then 8 else if bits.length < 24 then 16 else 24)) := by
  have hreads := decode_readsFields .header bits
  generalize decode .header bits = r at hreads ⊢
  rcases hreads.cons_cases with ⟨hlt, rfl⟩ | ⟨left₁, hleft₁, hreads⟩
  · rw [if_pos hlt]
  rw [if_neg (by omega)]
  rcases hreads.cons_cases with ⟨hlt, rfl⟩ | ⟨left₂, hleft₂, hreads⟩
  · rw [if_pos (by omega)]
  rw [if_neg (by omega)]
  rcases hreads.cons_cases with ⟨hlt, rfl⟩ | ⟨left₃, hleft₃, hreads⟩
  · rw [if_pos (by omega)]
  rw [if_neg (by omega)]
  rcases hreads.cons_cases with ⟨hlt, rfl⟩ | ⟨left₄, hleft₄, -⟩
  · rfl
  · omega

end Sys2Proof

namespace Sys2Proof.Machine

open Sys2Proof.Claims

/-! ### The tick, an equation per case -/

variable {s u : State} {slot : Slot}

theorem decodeTick_ok {i : Instr} {rest : List Bool} (hslot : recordSlot s = some slot)
    (h : decode slot (window s) = .ok (i, rest)) : decodeTick s = recordEffect i s := by
  rw [decodeTick, fetchRecord_ok hslot h]

theorem decodeTick_error {offset : Nat} (hslot : recordSlot s = some slot)
    (h : decode slot (window s) = .error (.endsInField offset)) : decodeTick s = malformed offset s := by
  rw [decodeTick, fetchRecord_error hslot h]

theorem recordEffect_imgv {i : Instr} (s : State) (hi : ∀ ib, i.slot ib ≠ .command) :
    (recordEffect i s).status.imgv = s.status.imgv := by
  rcases recordEffect_cases s hi with ⟨_, _, _, _, _, _, -, hr⟩ | ⟨info, -, hr⟩ <;> rw [hr] <;> rfl

theorem recordSlot_eq_none : recordSlot s = none ↔ s.cur.dstate = .stop := by
  unfold recordSlot
  cases s.cur.dstate <;> simp

/-- A tick completes the `DECODE` in state `END` only; a record that ends it leaves `IMGV` alone. -/
theorem stop_of_decodeTick_complete (himg : s.status.imgv = false)
    (h : decodeTick s = completeDecode s) : s.cur.dstate = .stop := by
  cases hslot : recordSlot s with
  | none => exact recordSlot_eq_none.mp hslot
  | some slot =>
    have hkeeps : (decodeTick s).status.imgv = s.status.imgv := by
      cases hd : decode slot (window s) with
      | ok r =>
        rw [decodeTick_ok hslot hd]
        exact recordEffect_imgv s (decode_no_command (recordSlot_ne_command hslot) hd)
      | error r =>
        rw [decodeTick_error hslot hd]
        rfl
    rw [h, himg] at hkeeps
    cases hkeeps

/-! ### The sequencer stands in `END` only where the stream ends -/

/-- In state `END` no bit before `BITLEN` is left (43_decoder.md R212). -/
def StopsAtEnd (s : State) : Prop := s.cur.dstate = .stop → s.bitlen ≤ s.bitcur

theorem nextGroup_stopsAtEnd (s : State) : StopsAtEnd (nextGroup s) := by
  intro hstop
  by_contra hlt
  have hcolor : (nextGroup s).cur.dstate = .color := if_pos (not_le.mp hlt)
  cases hstop.symm.trans hcolor

theorem enter_stopsAtEnd {d : DState} (s : State) (h : d ≠ .stop) : StopsAtEnd (enter d s) :=
  fun hstop => absurd hstop h

theorem parseEntry_stopsAtEnd {n : Nat} {e : Entry} {terminal : Bool}
    (hbusy : (parseEntry n e terminal s).status.busy = true) :
    StopsAtEnd (parseEntry n e terminal s) := by
  rcases parseEntry_cases n e terminal s with ⟨grp, -, hp⟩ | ⟨info, -, hp⟩
  · rw [hp]
    cases terminal with
    | false => exact enter_stopsAtEnd _ (by decide)
    | true => exact nextGroup_stopsAtEnd _
  · rw [hp] at hbusy
    cases hbusy

theorem recordEffect_stopsAtEnd {i : Instr} (hi : ∀ ib, i.slot ib ≠ .command)
    (hbusy : (recordEffect i s).status.busy = true) : StopsAtEnd (recordEffect i s) := by
  cases i with
  | hdr bg ib w h => exact nextGroup_stopsAtEnd _
  | color c => exact enter_stopsAtEnd _ (by decide)
  | sc a => exact parseEntry_stopsAtEnd hbusy
  | rc a b => exact parseEntry_stopsAtEnd hbusy
  | st a => exact parseEntry_stopsAtEnd hbusy
  | rt a b => exact parseEntry_stopsAtEnd hbusy
  | _ => exact absurd rfl (hi 0)

/-! ### A `DECODE` in progress and at its end -/

/-- A `DECODE` started in `s` is in progress in `u`. -/
structure Decoding (s u : State) : Prop where
  status : u.status = (startDecode s).status
  err : u.err = s.err
  errinfo : u.errinfo = s.errinfo
  bitlen : u.bitlen = s.bitlen
  inside : u.bitcur ≤ s.bitlen
  stopsAtEnd : StopsAtEnd u

/-- The three ends of a `DECODE` started in `s` (43_decoder.md R211). -/
def DecodeEnded (s t : State) : Prop :=
  t.status.busy = false ∧
    (t.status.done = true ∧ SameError s t ∧ t.status.imgv = true ∧ t.bitcur = t.bitlen ∨
      t.status.imgv = false ∧
      (∃ pos ≤ s.bitlen, Failed t .malformedStream pos ∧ t.bitcur = pos) ∨
      t.status.imgv = false ∧ ∃ info, 1 ≤ info ∧ info ≤ 3 ∧ Failed t .capacityExceeded info)

theorem startDecode_decoding (s : State) : Decoding s (startDecode s) :=
  ⟨rfl, rfl, rfl, rfl, Nat.zero_le _, enter_stopsAtEnd _ (by decide)⟩

namespace Decoding

theorem completeDecode_ended (h : Decoding s u) (hstop : u.cur.dstate = .stop) :
    DecodeEnded s (completeDecode u) := by
  have hend : u.bitcur = u.bitlen :=
    Nat.le_antisymm (h.inside.trans_eq h.bitlen.symm) (h.stopsAtEnd hstop)
  have herrf : u.status.errf = s.status.errf := by rw [h.status]; rfl
  exact ⟨rfl, .inl ⟨rfl, ⟨h.err, h.errinfo, herrf⟩, rfl, hend⟩⟩

theorem malformed_ended (h : Decoding s u) {offset : Nat} (hle : offset ≤ u.bitlen - u.bitcur) :
    DecodeEnded s (malformed offset u) := by
  have hpos : u.bitcur + offset ≤ s.bitlen := by
    have hlen := h.bitlen
    have hinside := h.inside
    omega
  exact ⟨rfl, .inr (.inl ⟨congrArg Status.imgv h.status,
    _, hpos, ⟨rfl, congrArg Status.done h.status, rfl, rfl, rfl⟩, rfl⟩)⟩

theorem capacityExceeded_ended (h : u.status = (startDecode s).status) {info : Nat} (hlow : 1 ≤ info)
    (hhigh : info ≤ 3) : DecodeEnded s (decodeError .capacityExceeded info u) :=
  ⟨rfl, .inr (.inr ⟨congrArg Status.imgv h,
    info, hlow, hhigh, rfl, congrArg Status.done h, rfl, rfl, rfl⟩)⟩

theorem recordEffect_ends (h : Decoding s u) {i : Instr} (hi : ∀ ib, i.slot ib ≠ .command)
    (hlen : i.length u.indexbits.toNat ≤ u.bitlen - u.bitcur) :
    Decoding s (recordEffect i u) ∨ DecodeEnded s (recordEffect i u) := by
  rcases recordEffect_cases u hi with ⟨w, h', bg, ib, grp, cur, -, hr⟩ | ⟨info, hinfo, hr⟩
  · have hbusy : (recordEffect i u).status.busy = true := by
      rw [hr]
      exact congrArg Status.busy h.status
    have hstops := recordEffect_stopsAtEnd hi hbusy
    rw [hr] at hstops ⊢
    have hcur : u.bitcur + i.length u.indexbits.toNat ≤ s.bitlen := by
      have hbitlen := h.bitlen
      have hinside := h.inside
      omega
    exact .inl ⟨h.status, h.err, h.errinfo, h.bitlen, hcur, hstops⟩
  · rw [hr]
    exact .inr (capacityExceeded_ended (u := forgetBitcur (advance _ u)) h.status (by omega) (by omega))

theorem decodeTick_ends (h : Decoding s u) :
    Decoding s (decodeTick u) ∨ DecodeEnded s (decodeTick u) := by
  rcases decodeTick_cases u with ht | ⟨i, hi, hlen, ht⟩ | ⟨offset, hle, ht⟩
  · have hstop := stop_of_decodeTick_complete (congrArg Status.imgv h.status) ht
    rw [ht]
    exact .inr (h.completeDecode_ended hstop)
  · rw [ht]
    exact h.recordEffect_ends hi hlen
  · rw [ht]
    exact .inr (h.malformed_ended hle)

end Decoding

/-- The sequencer runs a `DECODE` to one of its ends (43_decoder.md R221). -/
theorem runDecode_ended (s : State) : DecodeEnded s (runDecode (s.bitlen + 2) (startDecode s)) := by
  have hidle : (runDecode (s.bitlen + 2) (startDecode s)).status.busy = false :=
    runDecode_ends _ _ (Nat.lt_add_of_pos_right Nat.two_pos)
  have htick : ∀ u, Decoding s u ∨ DecodeEnded s u → u.status.busy = true →
      Decoding s (decodeTick u) ∨ DecodeEnded s (decodeTick u) := by
    rintro u (h | ⟨hidle, -⟩) hbusy
    · exact h.decodeTick_ends
    · cases hidle.symm.trans hbusy
  refine (runDecode_keeps htick (s.bitlen + 2) _ (.inl (startDecode_decoding s))).resolve_left fun h => ?_
  rw [h.status] at hidle
  cases hidle

theorem exec_decode_ended (s : State) : ∃ t, exec .decode s = .next t ∧ DecodeEnded s t := by
  rcases execDecode_cases s with ⟨-, hx⟩ | ⟨-, hx⟩
  · exact ⟨_, hx, Decoding.capacityExceeded_ended (u := forgetBitcur (startDecode s)) rfl
      (by decide) (by decide)⟩
  · exact ⟨_, hx, runDecode_ended s⟩

/-! ### Where the first record cannot be read -/

/-- A header that cannot be read ends `DECODE` with its first tick (43_decoder.md R213). -/
theorem exec_decode_header_error {s : State} {offset : Nat} (hfits : fitsBits s.cap s.bitlen)
    (h : decode .header (window (startDecode s)) = .error (.endsInField offset)) :
    exec .decode s = .next (malformed offset (startDecode s)) := by
  obtain ⟨-, hx⟩ := (execDecode_cases s).resolve_left fun hno => hno.1 hfits
  refine hx.trans (congrArg _ ?_)
  have hbusy : (startDecode s).status.busy = true := rfl
  rw [runDecode_succ, if_pos hbusy, decodeTick_error rfl h]
  exact runDecode_idle rfl _

/-! ### The obligations -/

/-- Settles O27: the ends by `exec_decode_ended`, the frame by `exec_decode_frame`. -/
theorem decodeAlwaysEnds : Obligations.DecodeAlwaysEnds := by
  intro s _
  obtain ⟨t, hx, hidle, hend⟩ := exec_decode_ended s
  obtain ⟨t', hx', -, hhost, hselect, hpix, hlen, hbit⟩ := exec_decode_frame s
  cases hx.symm.trans hx'
  exact ⟨t, hx, hidle, hend, hlen, bitRead_congr hbit, by simp [SamePixels, hpix], hselect, hhost⟩

/-- Settles O28: the window is the whole stream, and its first record is cut. -/
theorem shortHeadersAreMalformed : Obligations.ShortHeadersAreMalformed := by
  intro s hshort hfits
  have hlen : (window (startDecode s)).length = s.bitlen := by
    rw [window, bitsAt_length]
    exact Nat.min_eq_left (hshort.le.trans (by decide))
  have hdecode := decode_header_short (hlen.trans_lt hshort)
  rw [hlen] at hdecode
  exact ⟨_, exec_decode_header_error hfits hdecode, rfl, rfl, rfl, rfl, Nat.zero_add _⟩

/-- Settles O29: the length is checked before the sequencer starts. -/
theorem decodeRefusesALengthBeyondTheBuffer : Obligations.DecodeRefusesALengthBeyondTheBuffer := by
  intro s hno
  obtain ⟨-, hx⟩ := (execDecode_cases s).resolve_right fun hfits => hno hfits.1
  exact ⟨_, hx, ⟨rfl, rfl, rfl, rfl, rfl⟩, rfl⟩

end Sys2Proof.Machine
end
section
/-! `DECODE` of an image's records, the colours of which may repeat: the store it builds is no larger than the
records say. O30. -/

namespace Sys2Proof.Machine

open Sys2Proof.Claims

/-! ### The size of the rebuilt store -/

theorem appendEntries_total (grp : List ColorGroup) (c : Color) (es : List Entry) :
    totalEntries (appendEntries grp c es) = totalEntries grp + es.length := by
  induction es generalizing grp with
  | nil => rfl
  | cons e es ih =>
    have htail : totalEntries (appendEntries (appendEntry grp c e) c es) =
        totalEntries (appendEntry grp c e) + es.length := ih _
    rw [appendEntries, List.foldl_cons, List.length_cons]
    rw [appendEntry_total] at htail
    exact htail.trans (by omega)

theorem appendEntry_colours_of_mem {grp : List ColorGroup} {c : Color} (e : Entry)
    (h : c ∈ grp.map fun g => g.color) :
    (appendEntry grp c e).map (fun g => g.color) = grp.map fun g => g.color := by
  rw [appendEntry_colours, if_neg]
  obtain ⟨g, hg, rfl⟩ := List.mem_map.mp h
  exact fun hnew => hnew g hg rfl

/-- Entries of a colour that has a group make no new one (43_decoder.md R214). -/
theorem appendEntries_colours_of_mem {c : Color} (es : List Entry) :
    ∀ {grp : List ColorGroup}, (c ∈ grp.map fun g => g.color) →
      (appendEntries grp c es).map (fun g => g.color) = grp.map fun g => g.color := by
  induction es with
  | nil => exact fun _ => rfl
  | cons e es ih =>
    intro grp h
    have hcolours := appendEntry_colours_of_mem e h
    exact (ih (hcolours ▸ h)).trans hcolours

theorem appendEntries_length_le {grp : List ColorGroup} {c : Color} {es : List Entry} (hes : es ≠ []) :
    (appendEntries grp c es).length ≤ grp.length + 1 := by
  by_cases hmem : c ∈ grp.map fun g => g.color
  · have hlen := congrArg List.length (appendEntries_colours_of_mem es hmem)
    rw [List.length_map, List.length_map] at hlen
    omega
  · have hnew : ∀ g ∈ grp, g.color ≠ c := fun g hg hc => hmem (List.mem_map.mpr ⟨g, hg, hc⟩)
    rw [appendEntries_new hnew hes, List.length_append, List.length_singleton]

theorem appendGroups_length_le {groups : List ColorGroup} (hne : ∀ g ∈ groups, g.entries ≠ []) :
    ∀ grp, (appendGroups grp groups).length ≤ grp.length + groups.length := by
  induction groups with
  | nil => exact fun _ => le_rfl
  | cons g gs ih =>
    intro grp
    obtain ⟨hg, hgs⟩ := List.forall_mem_cons.mp hne
    have hlen := appendEntries_length_le (grp := grp) (c := g.color) hg
    have htail := ih hgs (appendEntries grp g.color g.entries)
    rw [List.length_cons]
    exact htail.trans (by omega)

theorem appendGroups_total (groups : List ColorGroup) :
    ∀ grp, totalEntries (appendGroups grp groups) = totalEntries grp + totalEntries groups := by
  induction groups with
  | nil => exact fun _ => rfl
  | cons g gs ih =>
    intro grp
    have htotal := appendEntries_total grp g.color g.entries
    have htail := ih (appendEntries grp g.color g.entries)
    have hcons : totalEntries (g :: gs) = g.entries.length + totalEntries gs := rfl
    exact htail.trans (by omega)

theorem roomForGroups_rebuilt {cap : Caps} {groups : List ColorGroup}
    (hne : ∀ g ∈ groups, g.entries ≠ []) (h : roomForGroups cap groups) :
    roomForGroups cap (rebuilt groups) := by
  obtain ⟨hcol, hent⟩ := h
  have hlen := appendGroups_length_le hne []
  have htotal := appendGroups_total groups []
  rw [appendGroups_nil] at hlen htotal
  rw [List.length_nil, Nat.zero_add] at hlen
  refine ⟨fun m hm => hlen.trans (hcol m hm), fun m hm => ?_⟩
  rw [htotal]
  exact (Nat.zero_add _).trans_le (hent m hm)

/-! ### The obligation -/

/-- Settles O30: `exec_decode_records` has the whole end state. -/
theorem decodeRebuildsTheImageOfItsStream : Obligations.DecodeRebuildsTheImageOfItsStream := by
  intro s ib w h bg groups hib hwf hne _ hfits hbits hroom
  obtain ⟨cur, hx⟩ := exec_decode_records hib hwf hne hfits hbits (roomForGroups_rebuilt hne hroom)
  exact ⟨_, hx, ⟨rfl, rfl, rfl, rfl, rfl⟩, rfl, rfl, Nat.mod_eq_of_lt (by omega), rfl, rfl, rfl, rfl, rfl,
    fun _ => rfl, ⟨rfl, rfl, fun _ => rfl⟩, ⟨rfl, rfl, rfl⟩, ⟨rfl, rfl, rfl⟩⟩

end Sys2Proof.Machine
end
section
/-! `DECODE` of an image's stream without its last bits (43_decoder.md R222): the records before the cut are
read as from the whole stream, and the one that is cut is rejected. O33. -/

namespace Sys2Proof

/-! ### A record that is cut -/

theorem entry_width_of_slot {ib n : Nat} {i : Instr} (h : i.slot ib = .entry n) : n = ib := by
  cases i <;> cases h <;> rfl

/-- Where a stream is cut, a word of it is passed whole or lacks some of its bits. -/
theorem passed_or_cut {bits cut word more : List Bool} (h : bits ++ cut = word ++ more) :
    (∃ rest, bits = word ++ rest ∧ rest ++ cut = more) ∨
    ∃ missing, missing ≠ [] ∧ bits ++ missing = word := by
  rcases List.append_eq_append_iff.mp h with ⟨missing, hword, hcut⟩ | ⟨rest, hbits, hmore⟩
  · by_cases hnil : missing = []
    · subst hnil
      rw [List.append_nil] at hword
      exact .inl ⟨[], by rw [List.append_nil, hword], hcut⟩
    · exact .inr ⟨missing, hnil, hword.symm⟩
  · exact .inl ⟨rest, hbits, hmore.symm⟩

/-- No word is the front of another, so a word that is cut is rejected (30_encoding.md R100). -/
theorem decode_cut {ib : Nat} {i : Instr} {bits missing : List Bool} (hib : ib ≤ 127)
    (hwf : i.wf ib = true) (hmissing : missing ≠ []) (h : bits ++ missing = encode ib i) :
    ∃ offset, decode (i.slot ib) bits = .error (.endsInField offset) := by
  cases hd : decode (i.slot ib) bits with
  | error r =>
    obtain ⟨offset⟩ := r
    exact ⟨offset, rfl⟩
  | ok r =>
    obtain ⟨j, rest⟩ := r
    obtain ⟨hslot, hwfj, hword⟩ := decodedBitsAreTheInstructionsWord ib _ bits rest j
      (fun n hn => ⟨entry_width_of_slot hn, hib⟩) hd
    have hj := decodingAnEncodedInstructionGivesItBack ib j (rest ++ missing) hwfj
    have hi := decodingAnEncodedInstructionGivesItBack ib i [] hwf
    rw [List.append_nil, ← h, ← hword, List.append_assoc, ← hslot, hj] at hi
    injection hi with hi
    injection hi with _ hrest
    exact absurd (List.append_eq_nil_iff.mp hrest).2 hmissing

end Sys2Proof

namespace Sys2Proof.Machine

open Sys2Proof.Claims

variable {b u : State} {grp : List ColorGroup} {bits cut missing : List Bool} {ib : Nat}

theorem decodeTick_cut {i : Instr} (hib : ib ≤ 127) (hwf : i.wf ib = true)
    (hslot : recordSlot u = some (i.slot ib)) (hmissing : missing ≠ [])
    (h : unread u ++ missing = encode ib i) : ∃ offset, decodeTick u = malformed offset u := by
  have hlen : (unread u).length ≤ maxRecordBits := by
    have hword := congrArg List.length h
    rw [List.length_append, encode_length] at hword
    have hmax := length_le_maxRecordBits i hib
    omega
  have hwindow : window u = unread u := (window_eq u).trans (List.take_of_length_le hlen)
  obtain ⟨offset, hd⟩ := decode_cut hib hwf hmissing h
  exact ⟨offset, decodeTick_error hslot (hwindow ▸ hd)⟩

/-! ### The sequencer over a stream that is cut -/

/-- The ticks from `u` lead to a record that is rejected, with the flags as in `b`. -/
def EndsMalformed (b u : State) : Prop :=
  ∃ v offset, Relation.ReflTransGen Ticks u v ∧ v.status = b.status ∧ decodeTick v = malformed offset v

theorem EndsMalformed.of_ticks {v : State} (h : Relation.ReflTransGen Ticks u v)
    (hv : EndsMalformed b v) : EndsMalformed b u := by
  obtain ⟨w, offset, hticks, hw⟩ := hv
  exact ⟨w, offset, h.trans hticks, hw⟩

namespace Reading

theorem record_cut {i : Instr} (hib : ib ≤ 127) (h : Reading b grp bits u) (hwf : i.wf ib = true)
    (hslot : recordSlot u = some (i.slot ib)) (hmissing : missing ≠ [])
    (hbits : bits ++ missing = encode ib i) : EndsMalformed b u := by
  obtain ⟨offset, htick⟩ := decodeTick_cut hib hwf hslot hmissing (h.unread_eq ▸ hbits)
  exact ⟨u, offset, .refl, by rw [h.frame], htick⟩

/-- A cut among the entry records of a group: the sequencer does not leave state `ENTRY` before it. -/
theorem entries_cut (hbusy : b.status.busy = true) (hindex : b.indexbits.toNat = ib)
    (hmissing : missing ≠ []) :
    ∀ (es : List Entry) {grp : List ColorGroup} {bits : List Bool} {u : State},
      Reading b grp bits u → bits ++ missing = bitsOf ib (entryRecords es) →
      u.cur.dstate = .entry → (∀ i ∈ entryRecords es, i.wf ib = true) →
      roomForGroups b.cap (appendEntries grp u.cur.curc es) → EndsMalformed b u := by
  intro es
  induction es with
  | nil => exact fun _ hbits => absurd (List.append_eq_nil_iff.mp hbits).2 hmissing
  | cons e es ih =>
    intro grp bits u h hbits hd hwf hroom
    have hib : ib ≤ 127 := hindex ▸ Nat.le_of_lt_succ b.indexbits.isLt
    rw [entryRecords, List.forall_mem_cons] at hwf
    obtain ⟨hwf, hwfs⟩ := hwf
    rw [entryRecords, bitsOf, List.flatMap_cons] at hbits
    rcases passed_or_cut hbits with ⟨rest, rfl, hrest⟩ | ⟨missing', hmissing', hword⟩
    · have hes : es ≠ [] := by
        rintro rfl
        exact hmissing (List.append_eq_nil_iff.mp hrest).2
      obtain ⟨v, htick, hv, hcolour, hstate⟩ :=
        h.entry_tick hbusy hindex hd hwf (roomForGroups_of_appendEntries hroom)
      rw [if_neg (by simpa using hes)] at hstate
      rw [appendEntries, List.foldl_cons, ← hcolour] at hroom
      rw [← hcolour] at hv
      exact .of_ticks (.single htick) (ih hv hrest hstate hwfs hroom)
    · have hslot : recordSlot u = some ((entryRecord es.isEmpty e).slot ib) := by
        rw [recordSlot, hd, entryRecord_slot, h.frame]
        exact congrArg _ (congrArg _ hindex)
      exact h.record_cut hib hwf hslot hmissing' hword

/-- A cut inside a group record. -/
theorem group_cut (hbusy : b.status.busy = true) (hindex : b.indexbits.toNat = ib)
    (hmissing : missing ≠ []) {g : ColorGroup} (h : Reading b grp bits u)
    (hbits : bits ++ missing = bitsOf ib (groupRecords g)) (hd : u.cur.dstate = .color)
    (hwf : ∀ i ∈ groupRecords g, i.wf ib = true)
    (hroom : roomForGroups b.cap (appendEntries grp g.color g.entries)) : EndsMalformed b u := by
  have hib : ib ≤ 127 := hindex ▸ Nat.le_of_lt_succ b.indexbits.isLt
  rw [groupRecords, List.forall_mem_cons] at hwf
  obtain ⟨hwf, hwfs⟩ := hwf
  rw [groupRecords, bitsOf, List.flatMap_cons] at hbits
  rcases passed_or_cut hbits with ⟨rest, rfl, hrest⟩ | ⟨missing', hmissing', hword⟩
  · obtain ⟨v, htick, hv, hcolour, hstate⟩ := h.color_tick hbusy hib hd
    rw [← hcolour] at hroom
    exact .of_ticks (.single htick) (hv.entries_cut hbusy hindex hmissing _ hrest hstate hwfs hroom)
  · have hslot : recordSlot u = some ((Instr.color g.color).slot ib) := by rw [recordSlot, hd]; rfl
    exact h.record_cut hib hwf hslot hmissing' hword

/-- A group record passed whole (43_decoder.md R212). -/
theorem group_ticks (hbusy : b.status.busy = true) (hindex : b.indexbits.toNat = ib) {g : ColorGroup}
    (hne : g.entries ≠ []) (h : Reading b grp (bitsOf ib (groupRecords g) ++ bits) u)
    (hd : u.cur.dstate = .color) (hwf : ∀ i ∈ groupRecords g, i.wf ib = true)
    (hroom : roomForGroups b.cap (appendEntries grp g.color g.entries)) :
    ∃ v, Relation.ReflTransGen Ticks u v ∧ Reading b (appendEntries grp g.color g.entries) bits v ∧
      v.cur.dstate = groupState bits := by
  have hib : ib ≤ 127 := hindex ▸ Nat.le_of_lt_succ b.indexbits.isLt
  rw [groupRecords, bitsOf, List.flatMap_cons, List.append_assoc] at h
  obtain ⟨v, htick, hv, hcolour, hstate⟩ := h.color_tick hbusy hib hd
  rw [← hcolour] at hroom ⊢
  obtain ⟨w, hentries, hw⟩ := hv.entries_ticks hbusy hindex g.entries hne hstate
    (List.forall_mem_cons.mp hwf).2 hroom
  exact ⟨w, .head htick hentries, hw⟩

/-- A cut in the last 8 bits of a row of group records: at the end of each group record before the last
one, bits remain (43_decoder.md R222). -/
theorem groups_cut (hbusy : b.status.busy = true) (hindex : b.indexbits.toNat = ib) (hcut : cut ≠ [])
    (hshort : cut.length ≤ 8) :
    ∀ (groups : List ColorGroup) {grp : List ColorGroup} {bits : List Bool} {u : State},
      Reading b grp bits u → bits ++ cut = bitsOf ib (groups.flatMap groupRecords) →
      u.cur.dstate = groupState bits → (∀ g ∈ groups, g.entries ≠ []) →
      (∀ i ∈ groups.flatMap groupRecords, i.wf ib = true) →
      roomForGroups b.cap (appendGroups grp groups) → EndsMalformed b u := by
  intro groups
  induction groups with
  | nil => exact fun _ hbits => absurd (List.append_eq_nil_iff.mp hbits).2 hcut
  | cons g gs ih =>
    intro grp bits u h hbits hd hne hwf hroom
    obtain ⟨hg, hgs⟩ := List.forall_mem_cons.mp hne
    rw [List.flatMap_cons, List.forall_mem_append] at hwf
    obtain ⟨hwf, hwfs⟩ := hwf
    rw [appendGroups, List.foldl_cons] at hroom
    rw [List.flatMap_cons, bitsOf, List.flatMap_append] at hbits
    have hcolor : u.cur.dstate = .color := by
      rw [hd, groupState, if_neg]
      rintro rfl
      have hlen := congrArg List.length hbits
      rw [groupRecords, List.flatMap_cons, List.nil_append, List.length_append, List.length_append,
        encode_length, Instr.length] at hlen
      omega
    have hroomg := roomForGroups_of_appendGroups hroom
    rcases passed_or_cut hbits with ⟨rest, rfl, hrest⟩ | ⟨missing, hmissing, hword⟩
    · obtain ⟨v, hticks, hv, hstate⟩ := h.group_ticks hbusy hindex hg hcolor hwf hroomg
      exact .of_ticks hticks (ih hv hrest hstate hgs hwfs hroom)
    · exact h.group_cut hbusy hindex hmissing hword hcolor hwf hroomg

end Reading

/-! ### The command -/

/-- `DECODE` of an image's records without at most 8 of the last bits ends at a record that is cut. -/
theorem startDecode_cut {s : State} {w h : Size} {bg : Color} {groups : List ColorGroup} (hib : ib ≤ 127)
    (hwf : ∀ i ∈ imageRecords ib w h bg groups, i.wf ib = true) (hne : ∀ g ∈ groups, g.entries ≠ [])
    (hcut : cut ≠ []) (hshort : cut.length ≤ 8)
    (hbits : bitsAt s 0 s.bitlen ++ cut = bitsOf ib (imageRecords ib w h bg groups))
    (hroom : roomForGroups s.cap (rebuilt groups)) : EndsMalformed (startDecode s) (startDecode s) := by
  obtain ⟨hhdr, hgroups⟩ := List.forall_mem_cons.mp hwf
  rw [imageRecords, bitsOf, List.flatMap_cons] at hbits
  rcases passed_or_cut hbits with ⟨rest, hread, hrest⟩ | ⟨missing, hmissing, hword⟩
  · obtain ⟨u, htick, hu, hstate⟩ := header_tick hib hhdr hread
    exact .of_ticks (.single htick) (hu.groups_cut rfl (Nat.mod_eq_of_lt (by omega)) hcut hshort groups
      hrest hstate hne hgroups hroom)
  · obtain ⟨offset, htick⟩ := decodeTick_cut (u := startDecode s) hib hhdr rfl hmissing hword
    exact ⟨_, offset, .refl, rfl, htick⟩

theorem exec_decode_malformed {s : State} (hfits : fitsBits s.cap s.bitlen)
    (h : EndsMalformed (startDecode s) (startDecode s)) :
    ∃ u, exec .decode s = .next u ∧ (∃ pos, Failed u .malformedStream pos) ∧ u.status.imgv = false := by
  obtain ⟨v, offset, hticks, hstatus, htick⟩ := h
  obtain ⟨-, hx⟩ := (execDecode_cases s).resolve_left fun hno => hno.1 hfits
  have hbusy : v.status.busy = true := by rw [hstatus]; rfl
  have hrun := runDecode_of_ticks (hticks.tail ⟨hbusy, htick⟩) rfl (s.bitlen + 2)
    (.inr (Nat.lt_add_of_pos_right Nat.two_pos))
  rw [hrun] at hx
  exact ⟨_, hx, ⟨_, rfl, congrArg Status.done hstatus, rfl, rfl, rfl⟩, congrArg Status.imgv hstatus⟩

/-! ### The obligation -/

/-- Settles O33: the last byte holds 1 to 8 bits of the stream, and the invariant says that the group store
is the one its records build. -/
theorem aTruncatedStreamIsMalformed : Obligations.ATruncatedStreamIsMalformed := by
  intro s t hinv _ hx hdone
  have hstore := hinv.parts.store
  obtain ⟨henc, hwf, hroom⟩ := encodable_of_done hx hdone
  have ⟨_, _, hib⟩ := henc
  obtain ⟨t', hx', -, -, hlen, -, hbits, -, -, -, -, -, hcap, -⟩ :=
    encodeWritesTheImagesStream s henc hwf hroom
  cases hx'.symm.trans hx
  have hsame : rebuilt s.grp = s.grp := rebuilt_eq_self hstore.colours hstore.entries
  have hlong : 31 ≤ t.bitlen := by
    rw [hlen, streamLength]
    omega
  obtain ⟨n, hn⟩ : ∃ n, n = 8 * ((t.bitlen + 7) / 8 - 1) := ⟨_, rfl⟩
  have hsplit := bitsAt_add t 0 n (t.bitlen - n)
  rw [Nat.add_sub_cancel' (by omega), hbits] at hsplit
  have hcut : (bitsAt t (0 + n) (t.bitlen - n)).length = t.bitlen - n := bitsAt_length _ _ _
  rw [← hn]
  refine exec_decode_malformed (fun m hm => ?_) (startDecode_cut hib hwf hstore.entries
    (List.ne_nil_of_length_pos (by omega)) (by omega) hsplit.symm ?_)
  · have hle := hroom m (hcap ▸ hm)
    show n ≤ 8 * m
    omega
  · rw [hsame]
    exact hcap ▸ ⟨hstore.colourCap, hstore.entryCap⟩

end Sys2Proof.Machine
end

section
/-! The system commands (44_system.md): `NOP`, `SRESET`, which writes to `CMD` the block runs and which it
ignores, and `DECODE` as one record a step. O34, O40, O42, O45, O47. -/

namespace Sys2Proof.Machine

/-! ### Writes to `CMD` -/

/-- The code in the low 4 bits of a value written to `CMD` is that of `SRESET` (log 12). -/
theorem ofNat_eq_sreset_iff (v : Nat) : BitVec.ofNat 4 v = 15 ↔ v % 16 = 15 := by
  rw [BitVec.toNat_eq, BitVec.toNat_ofNat]
  rfl

theorem step_writeCmd {s : State} {v : Nat} {ms : List HostMove} (h : s.host = .writeReg 0 v :: ms) :
    step s = writeCmd v { s with host := ms } := step_cons h

/-! ### Reset -/

/-- After a reset every register reads 0 (70_reset_and_hazards.md R270). -/
@[simp] theorem readReg_resetBlock (s : State) (r : Reg) : readReg (resetBlock s) r = 0 := by
  cases r with
  | status => exact (by decide : State.reset.status.word.toNat = 0)
  | imgBg => exact (by decide : State.reset.imgBg.word.toNat = 0)
  | _ => rfl

/-! ### `DECODE` as steps -/

/-- A tick of the sequencer keeps the host's moves. -/
theorem decodeTick_host (s : State) : (decodeTick s).host = s.host := by
  obtain ⟨⟨-, hhost, -⟩, -⟩ := outsideImage_decodeTick (outsideImage_refl s)
  exact hhost

theorem run_succ_of_step {s t : State} (h : step s = .next t) (k : Nat) :
    Host.Core.run core (k + 1) s = Host.Core.run core k t := by
  have hstep : core.step s = .next t := h
  simp only [Host.Core.run, hstep]

/-- Steps of a block left alone are the sequencer's ticks, and then nothing (43_decoder.md R212,
70_reset_and_hazards.md R279). -/
theorem run_eq_runDecode (k : Nat) :
    ∀ s : State, s.host = [] → Host.Core.run core k s = .next (runDecode k s) := by
  induction k with
  | zero => exact fun _ _ => rfl
  | succ k ih =>
    intro s hhost
    rw [run_succ_of_step ((step_nil hhost).trans (runEngine_eq s)), runDecode_succ]
    cases hbusy : s.status.busy with
    | true => exact ih _ ((decodeTick_host s).trans hhost)
    | false => exact (ih s hhost).trans (congrArg _ (runDecode_idle hbusy k))

/-! ### The obligations -/

/-- Settles O34: `DECODE` runs the sequencer with `BITLEN + 2` as fuel, and that many steps do the same. -/
theorem decodeIsItsRecordsOneStepAtATime : Obligations.DecodeIsItsRecordsOneStepAtATime := by
  intro s hhost hfits
  obtain ⟨-, hx⟩ := (execDecode_cases s).resolve_left fun hno => hno.1 hfits
  exact ⟨s.bitlen + 2, (run_eq_runDecode _ (startDecode s) hhost).trans hx.symm⟩

/-- Settles O40: accepting clears `DONE`, completing sets it. -/
theorem nopSetsDoneOnly : Obligations.NopSetsDoneOnly := fun _ => rfl

/-- Settles O42: `SRESET` is the reset of an accepted command. -/
theorem sresetClearsEveryRegister : Obligations.SresetClearsEveryRegister := fun s =>
  ⟨resetBlock (accept s), rfl, readReg_resetBlock _, rfl, rfl, rfl, rfl, rfl⟩

/-- Settles O45: of the cases of a write to `CMD`, only the accepting one is left. -/
theorem stepRunsTheCommandTheHostWrites : Obligations.StepRunsTheCommandTheHostWrites := by
  intro s v ms hhost hidle haccepted
  rw [← ofNat_eq_sreset_iff] at haccepted
  rw [step_writeCmd hhost]
  rcases writeCmd_cases v { s with host := ms } with ⟨hbusy, -⟩ | ⟨-, herrf, hcode, -⟩ | ⟨-, -, hrun⟩
  · cases hidle.symm.trans hbusy
  · cases (haccepted.resolve_right hcode).symm.trans herrf
  · exact hrun

/-- Settles O47: of the cases of a write to `CMD`, only the two ignoring ones are left. -/
theorem ignoredCommandWritesChangeNothing : Obligations.IgnoredCommandWritesChangeNothing := by
  intro s v ms hhost hignored
  rw [Ne, ← ofNat_eq_sreset_iff] at hignored
  rw [step_writeCmd hhost]
  rcases writeCmd_cases v { s with host := ms } with
    ⟨-, hkept⟩ | ⟨-, -, -, hkept⟩ | ⟨hidle, haccepted, -⟩
  · exact hkept
  · exact hkept
  · rcases hignored with hbusy | ⟨herrf, hcode⟩
    · cases hidle.symm.trans hbusy
    · cases (haccepted.resolve_right hcode).symm.trans herrf

end Sys2Proof.Machine
end

section
/-! An error stands until a reset (60_exceptions.md R251): what a host's move and a step leave unchanged
while `ERRF` = 1. O49. -/

namespace Sys2Proof.Machine

open Sys2Proof.Claims

/-- From `s` to `t` the error, the flags and the image state stand, `INDEXBITS` and `BITCUR` included
(60_exceptions.md R251). -/
abbrev ErrorStands (s t : State) : Prop :=
  SameError s t ∧ t.status = s.status ∧ SameImage s t ∧ t.indexbits = s.indexbits ∧ t.bitcur = s.bitcur

theorem errorStands_refl (s : State) : ErrorStands s s :=
  ⟨⟨rfl, rfl, rfl⟩, rfl, sameImage_refl s, rfl, rfl⟩

theorem writeReg_errorStands (s : State) (r : Reg) (v : Nat) : ErrorStands s (writeReg s r v) := by
  cases r <;> exact errorStands_refl s

/-- While an error stands a write to `CMD` other than of `SRESET` is ignored (44_system.md R230). -/
theorem writeCmd_of_errf {s : State} {v : Nat} (herrf : s.status.errf = true) (hcode : v % 16 ≠ 15) :
    writeCmd v s = .next s := by
  rcases writeCmd_cases v s with ⟨-, hkept⟩ | ⟨-, -, -, hkept⟩ | ⟨-, haccepted, -⟩
  · exact hkept
  · exact hkept
  · rcases haccepted with hclear | hsreset
    · cases herrf.symm.trans hclear
    · exact absurd ((ofNat_eq_sreset_iff v).mp hsreset) hcode

theorem move_errorStands {m : HostMove} {s t : State} (hidle : s.status.busy = false)
    (herrf : s.status.errf = true) (hreset : m ≠ .hardReset)
    (hsreset : ∀ v, m = .writeReg 0 v → v % 16 ≠ 15) (hm : MoveEffect m s t) : ErrorStands s t := by
  cases hm with
  | read | byte | resize | pixel => exact errorStands_refl s
  | command hw =>
    cases (writeCmd_of_errf herrf (hsreset _ rfl)).symm.trans hw
    exact errorStands_refl s
  | register r _ => exact writeReg_errorStands s r _
  | reset => exact absurd rfl hreset
  | wait =>
    rw [if_neg (by simp [hidle])]
    exact errorStands_refl s

/-- Settles O49, by the move the step makes. -/
theorem errorsStandUntilAReset : Obligations.ErrorsStandUntilAReset := by
  intro s t hidle herrf hstep hreset hsreset
  rcases step_next_cases hstep with ⟨-, hrun⟩ | ⟨m, ms, hhost, hmove⟩
  · exact move_errorStands (m := .wait) hidle herrf (by rintro ⟨⟩) (by rintro _ ⟨⟩)
      (hostMove_effect hrun)
  · rw [hhost, List.head?_cons] at hreset hsreset
    exact move_errorStands (s := { s with host := ms }) hidle herrf (fun h => hreset (congrArg some h))
      (fun v h => hsreset v (congrArg some h)) (hostMove_effect hmove)

end Sys2Proof.Machine
end

section
/-! Reset and the host's accesses (70_reset_and_hazards.md R270 to R280): reads and writes of registers by an
idle block, what a busy block refuses, and the state after reset. O43, O44, O48, O50, O51, O55, O59. -/

namespace Sys2Proof.Machine

open Sys2Proof.Claims

/-! ### A busy block -/

/-- A block with `BUSY` = 1 refuses a move that is the host's only while it is idle (70_reset_and_hazards.md
R280). -/
theorem whenIdle_of_busy {s : State} (hbusy : s.status.busy = true)
    (move : Host.Outcome State Fault Refusal) : whenIdle s move = .refused .hostAccessWhileBusy := by
  simp [whenIdle, hbusy]

theorem step_refused_of_busy {s : State} {m : HostMove} {ms : List HostMove}
    {move : Host.Outcome State Fault Refusal} (hhost : s.host = m :: ms) (hbusy : s.status.busy = true)
    (hmove : hostMove m { s with host := ms } = whenIdle { s with host := ms } move) :
    step s = .refused .hostAccessWhileBusy :=
  (step_cons hhost).trans (hmove.trans (whenIdle_of_busy hbusy move))

/-! ### Reads of registers -/

/-- `STATUS` may be read at any time. -/
theorem hostMove_readStatus (s : State) :
    hostMove (.readReg 1) s = .next (returnToHost s.status.word.toNat s) := rfl

theorem hostMove_readReg {r : Reg} (hr : r ≠ .status) (s : State) :
    hostMove (.readReg r.number) s = whenIdle s (.next (returnToHost (readReg s r) s)) := by
  cases r with
  | status => exact absurd rfl hr
  | _ => rfl

theorem hostMove_readReg_of_idle {s : State} (hidle : s.status.busy = false) (r : Reg) :
    hostMove (.readReg r.number) s = .next (returnToHost (readReg s r) s) := by
  by_cases hr : r = .status
  · rw [hr]
    exact hostMove_readStatus s
  · rw [hostMove_readReg hr, whenIdle_of_idle hidle]

/-- What a register reads as does not depend on the host's moves. -/
theorem readReg_host (s : State) (r : Reg) (ms : List HostMove) :
    readReg { s with host := ms } r = readReg s r := by cases r <;> rfl

/-! ### Writes to registers -/

theorem hostMove_writeReg {r : Reg} (hr : r ≠ .cmd) (s : State) (v : Nat) :
    hostMove (.writeReg r.number v) s = whenIdle s (.next (writeReg s r v)) := by
  cases r with
  | cmd => exact absurd rfl hr
  | _ => rfl

/-- The registers the host can write (10_state.md R21). -/
abbrev Reg.hostWritable (r : Reg) : Prop := r ∈ [Reg.levels, .gsel, .esel, .bitlen]

theorem readReg_writeReg_same {r : Reg} (hr : r.hostWritable) (s : State) (v : Nat) :
    readReg (writeReg s r v) r = truncTo (r.width s.cap) v := by
  cases r with
  | levels => exact BitVec.toNat_ofNat v 16
  | gsel | esel | bitlen => rfl
  | _ => exact absurd hr (by decide)

theorem writeReg_ignored {r : Reg} (hr : ¬ r.hostWritable) (s : State) (v : Nat) :
    writeReg s r v = s := by
  cases r with
  | levels | gsel | esel | bitlen => exact absurd (by decide) hr
  | _ => rfl

/-- A write changes what its own register reads as, and through `GSEL` and `ESEL` what the readout window
shows, and nothing else (10_state.md R28). -/
theorem readReg_writeReg_other {r r' : Reg} (hne : r' ≠ r) (hout : outsideWindow r') (s : State) (v : Nat) :
    readReg (writeReg s r v) r' = readReg s r' := by
  obtain ⟨hcolor, hcount, hkind, hfirst, hpast⟩ := hout
  cases r' with
  | gcolor | gcount | ekind | ea | eb => contradiction
  | levels => cases r with
    | levels => contradiction
    | _ => rfl
  | gsel => cases r with
    | gsel => contradiction
    | _ => rfl
  | esel => cases r with
    | esel => contradiction
    | _ => rfl
  | bitlen => cases r with
    | bitlen => contradiction
    | _ => rfl
  | _ => cases r <;> rfl

/-- What no write to a register reaches: the data spaces, the group store, the host's side. -/
theorem writeReg_frame (s : State) (r : Reg) (v : Nat) :
    (writeReg s r v).bit = s.bit ∧ (writeReg s r v).pix = s.pix ∧ (writeReg s r v).grp = s.grp ∧
      (writeReg s r v).host = s.host ∧ (writeReg s r v).reads = s.reads := by
  cases r <;> exact ⟨rfl, rfl, rfl, rfl, rfl⟩

/-! ### The block left alone, and after reset -/

theorem runEngine_of_idle {s : State} (hidle : s.status.busy = false) : runEngine s = .next s := by
  rw [runEngine_eq, hidle]
  rfl

/-- The registers of `State.reset` are those that any reset leaves. -/
@[simp] theorem readReg_reset (r : Reg) : readReg State.reset r = 0 := readReg_resetBlock State.reset r

theorem capsOk_unbounded : Caps.ok Caps.unbounded := ⟨by rintro _ ⟨⟩, by rintro _ ⟨⟩, by rintro _ ⟨⟩⟩

/-! ### The obligations -/

/-- Settles O43: the host's reset is `resetBlock`, of any state. -/
theorem hardwareResetIsAcceptedAtAnyTime : Obligations.HardwareResetIsAcceptedAtAnyTime :=
  fun _ _ hhost => ⟨_, step_cons hhost, readReg_resetBlock _, rfl, rfl, rfl, rfl, rfl⟩

/-- Settles O44: the registers are those after any reset, the rest is read off `State.reset`. -/
theorem resetStateReadsZero : Obligations.ResetStateReadsZero := ⟨readReg_reset, rfl, rfl⟩

/-- Settles O48: a `STATUS` read is a move at any time, each of the others one of an idle block only. -/
theorem hostAccessesWhileBusyAreRefused : Obligations.HostAccessesWhileBusyAreRefused := by
  intro s m ms hhost hbusy
  refine ⟨?_, ?_⟩
  · rintro rfl
    exact ⟨_, (step_cons hhost).trans (hostMove_readStatus _), rfl⟩
  · rintro (⟨r, hr, rfl⟩ | ⟨r, v, hr, rfl⟩ | ⟨b, rfl⟩ | ⟨b, v, rfl⟩ | ⟨w, h, rfl⟩ | ⟨x, y, rfl⟩ |
      ⟨x, y, c, rfl⟩)
    · exact step_refused_of_busy hhost hbusy (hostMove_readReg hr _)
    · exact step_refused_of_busy hhost hbusy (hostMove_writeReg hr _ v)
    all_goals exact step_refused_of_busy hhost hbusy rfl

/-- Settles O50: the read is `returnToHost` of the register. -/
theorem readingARegisterChangesNothing : Obligations.ReadingARegisterChangesNothing := by
  intro s r ms hhost hidle
  rw [← readReg_host s r ms]
  exact (step_cons hhost).trans (hostMove_readReg_of_idle (s := { s with host := ms }) hidle r)

/-- Settles O51: the write is `writeReg`, on the four registers and on the others. -/
theorem hostWritesReachFourRegistersOnly : Obligations.HostWritesReachFourRegistersOnly := by
  intro s r v ms hhost hidle hr
  obtain ⟨hbit, hpix, hgrp, hmoves, hreads⟩ := writeReg_frame { s with host := ms } r v
  have hstep : step s = .next (writeReg { s with host := ms } r v) :=
    (step_cons hhost).trans ((hostMove_writeReg hr _ v).trans (whenIdle_of_idle hidle _))
  refine ⟨_, hstep, fun hwritable => ?_, fun hother => writeReg_ignored hother _ v, fun r' hne hout => ?_,
    bitRead_congr hbit, ?_, hgrp, hmoves, hreads⟩
  · rw [readReg_writeReg_same hwritable]
    cases r.width s.cap <;> rfl
  · rw [readReg_writeReg_other hne hout, readReg_host]
  · rw [SamePixels, hpix]
    exact ⟨rfl, rfl, fun _ => rfl⟩

/-- Settles O55: a block with `BUSY` = 0 and nothing from the host has no record to run. -/
theorem anIdleBlockDoesNothing : Obligations.AnIdleBlockDoesNothing := fun _ hidle =>
  ⟨fun hhost => (step_nil hhost).trans (runEngine_of_idle hidle),
    fun _ hhost => (step_cons hhost).trans (runEngine_of_idle hidle)⟩

/-- Settles O59: `State.reset` is a reset of itself but for its cursors and generations, which the invariant
leaves free. -/
theorem resetMeetsTheMachineInvariant : Obligations.ResetMeetsTheMachineInvariant :=
  InvParts.inv { inv_resetBlock (s := State.reset) capsOk_unbounded (cellsOk_nil 0 0 0) with }

end Sys2Proof.Machine
end
